-- ==== Sys2Proof/Word.lean ====
section
/-! DEFINITION. The widths the spec gives its values (00_scope.md R12, 20_memory.md R45, R46): a byte, a
16-bit pattern (`u16` and Int16 operands) and a 32-bit pattern (a Float32 field, held as opaque bits, R145). -/

namespace Sys2Proof

/-- A byte: 8 bits, bit 0 the least significant (R12). -/
abbrev Byte := BitVec 8

/-- A 16-bit pattern: a `u16` operand (R76) or the two's complement pattern of an Int16 field (R45). -/
abbrev Half := BitVec 16

/-- A 32-bit pattern: a Float32 field, never interpreted (R46, R145). -/
abbrev Word := BitVec 32

end Sys2Proof
end

