-- ==== Sys2Proof/Config.lean ====
section
/-! DEFINITION. What an instance fixes (00_scope.md R7 to R11, 92_eei_decisions.md) and the one value the spec leaves
free: the contents of the byte arrays after reset (10_state.md R42, 93_implementation_defined.md U2).
The open parameters `CAP` and `EM_DROP` are arguments of the step function in the spec (R18); here they are the
fields `cap` and `emDrop` of the state, so that every statement about all states is about all their values, and this
file only names the values that the ONE instance `State.reset` takes (assumptions 1 and 2). -/

namespace Sys2Proof

/-- The three private byte arrays (R14): ring storage, payload scratch, outbound message buffer. -/
inductive Space where
  | st
  | pl
  | msg
deriving DecidableEq, Repr

/-- `PMAX`: the size of the payload scratch area in bytes (R10, decision D6). -/
def Config.pmax : Nat := 255

/-- `MMAX`: the size of the outbound message buffer in bytes (R11, decision D7). -/
def Config.mmax : Nat := 37

/-- The greatest ring capacity the spec allows (R7, decision D4). -/
def Config.capMax : Nat := 65535

/-- `CAP` of the instance `State.reset`. DESIGN CHOICE (assumption 1): the spec leaves `CAP` open and gives no default;
64 is the capacity of the spec's own run of the source's scenario (95_test_vectors.md P1). No statement rests on it. -/
def Config.resetCap : Nat := 64

/-- `EM_DROP` of the instance `State.reset`: the spec's default 0, the original behaviour (R9). -/
def Config.resetEmDrop : Bool := false

/-- `cfg_start` of the instance `State.reset`: the default start marker 0x41 (R8, R28). -/
def Config.resetStart : Byte := 0x41

/-- `cfg_end` of the instance `State.reset`: the default end marker 0x23 (R8, R28). -/
def Config.resetEnd : Byte := 0x23

/-- FREE VALUE (assumption 3): the byte that address `a` of array `x` holds from the `d`-th reset until a command first
writes it. R42: "A model must treat such a byte as any value (a draw made at reset), not as zero". It has no body, so
nothing can be proved of which byte it is. -/
opaque Config.unwritten (x : Space) (d : Nat) (a : Nat) : Byte

end Sys2Proof
end

