-- ==== Sys2Proof/Syntax.lean ====
section
/-! DEFINITION. The commands of the block as syntax: one constructor of `Instr` per row of spec/opcode_table.json
(30_encoding.md R80), and the typed fields and the fifteen shapes their payloads are made of (R74, R86). -/

namespace Sys2Proof

/-- The three field types of `DATA` (R74): byte, Int16, Float32. -/
inductive FieldType where
  | byte
  | int16
  | float32
deriving DecidableEq, Repr

/-- A typed field with its value (R74): a byte, a two's complement 16-bit pattern (R45), a 32-bit pattern (R145). -/
inductive FieldValue where
  | byte (b : Byte)
  | int16 (v : Half)
  | float32 (w : Word)
deriving DecidableEq, Repr

/-- The fifteen payload shapes, in the order of R86 (shape number `s` from 0 to 14). -/
inductive Shape where
  | b1
  | b2
  | b3
  | i1
  | i2
  | i3
  | i7
  | f1
  | f2
  | f3
  | f4
  | f6
  | f8
  | b1f3
  | b2f1
deriving DecidableEq, Repr

/-- A decoded command (R80). The count operand of `INSERT` and `FEED` is the length of their byte list; an operand `I` is
its 16-bit pattern and an operand `F` its 32-bit pattern (R76). -/
inductive Instr where
  | isfull
  | isempty
  | size
  | push (b : Byte)
  | pop
  | top
  | insert (bytes : List Byte)
  | index (k : Half)
  | feed (bytes : List Byte)
  | extract
  | pld (k : Byte)
  | msglen
  | msgrd (k : Byte)
  | packB1 (code b0 : Byte)
  | packB2 (code b0 b1 : Byte)
  | packB3 (code b0 b1 b2 : Byte)
  | packI1 (code : Byte) (v0 : Half)
  | packI2 (code : Byte) (v0 v1 : Half)
  | packI3 (code : Byte) (v0 v1 v2 : Half)
  | packI7 (code : Byte) (v0 v1 v2 v3 v4 v5 v6 : Half)
  | packF1 (code : Byte) (f0 : Word)
  | packF2 (code : Byte) (f0 f1 : Word)
  | packF3 (code : Byte) (f0 f1 f2 : Word)
  | packF4 (code : Byte) (f0 f1 f2 f3 : Word)
  | packF6 (code : Byte) (f0 f1 f2 f3 f4 f5 : Word)
  | packF8 (code : Byte) (f0 f1 f2 f3 f4 f5 f6 f7 : Word)
  | packB1F3 (code b0 : Byte) (f0 f1 f2 : Word)
  | packB2F1 (code b0 b1 : Byte) (f0 : Word)
  | unpackB1
  | unpackB2
  | unpackB3
  | unpackI1
  | unpackI2
  | unpackI3
  | unpackI7
  | unpackF1
  | unpackF2
  | unpackF3
  | unpackF4
  | unpackF6
  | unpackF8
  | unpackB1F3
  | unpackB2F1
deriving DecidableEq, Repr

end Sys2Proof
end

