-- ==== Sys2Proof/WellFormed.lean ====
section
/-! DEFINITION. Which terms of `Instr` stand for a command: every operand value is legal (30_encoding.md R82); the one
limit is that the byte count of `INSERT` and `FEED` is a `u16` (R76, decision D25). -/

namespace Sys2Proof

/-- The count operand `n:u16` can hold the length of the byte list (R76, R77, D25: 0 to 65535). -/
def countFits (bytes : List Byte) : Bool := decide (bytes.length < 65536)

/-- A term of `Instr` that stands for a command of the command port. -/
def Instr.wf : Instr → Bool
  | .insert bytes => countFits bytes
  | .feed bytes => countFits bytes
  | .isfull | .isempty | .size | .push _ | .pop | .top | .index _ => true
  | .extract | .pld _ | .msglen | .msgrd _ => true
  | .packB1 _ _ | .packB2 _ _ _ | .packB3 _ _ _ _ => true
  | .packI1 _ _ | .packI2 _ _ _ | .packI3 _ _ _ _ | .packI7 _ _ _ _ _ _ _ _ => true
  | .packF1 _ _ | .packF2 _ _ _ | .packF3 _ _ _ _ | .packF4 _ _ _ _ _ => true
  | .packF6 _ _ _ _ _ _ _ | .packF8 _ _ _ _ _ _ _ _ _ => true
  | .packB1F3 _ _ _ _ _ | .packB2F1 _ _ _ _ => true
  | .unpackB1 | .unpackB2 | .unpackB3 | .unpackI1 | .unpackI2 | .unpackI3 | .unpackI7 => true
  | .unpackF1 | .unpackF2 | .unpackF3 | .unpackF4 | .unpackF6 | .unpackF8 => true
  | .unpackB1F3 | .unpackB2F1 => true

end Sys2Proof
end

