-- ==== Sys2Proof/Decode.lean ====
section
/-! DEFINITION. The command port's encoding (30_encoding.md part 2): byte order of fields, the shape table, the opcode
map, the decoder R87 (total on any byte string, rejecting by name) and after it the encoder. -/

namespace Sys2Proof

/-! ## Byte order (20_memory.md R45, R46, R49) -/

/-- `C[k]` of a byte string; 0 past its end (never read there once the length is checked, R87). -/
def byteAt (c : List Byte) (k : Nat) : Byte := c.getD k 0

/-- The `u16` or Int16 pattern at `k`: `C[k] + 256 * C[k+1]` (R45, R76). -/
def halfAt (c : List Byte) (k : Nat) : Half :=
  BitVec.ofNat 16 ((byteAt c k).toNat + 256 * (byteAt c (k + 1)).toNat)

/-- The 32-bit pattern at `k`: `C[k] + 256*C[k+1] + 65536*C[k+2] + 16777216*C[k+3]` (R46, R76). -/
def wordAt (c : List Byte) (k : Nat) : Word :=
  BitVec.ofNat 32 ((byteAt c k).toNat + 256 * (byteAt c (k + 1)).toNat
    + 65536 * (byteAt c (k + 2)).toNat + 16777216 * (byteAt c (k + 3)).toNat)

/-- The two bytes of a 16-bit pattern, low byte first (R45). -/
def halfBytes (u : Half) : List Byte := [u.extractLsb' 0 8, u.extractLsb' 8 8]

/-- The four bytes of a 32-bit pattern, least significant byte first (R46). -/
def wordBytes (w : Word) : List Byte :=
  [w.extractLsb' 0 8, w.extractLsb' 8 8, w.extractLsb' 16 8, w.extractLsb' 24 8]

/-! ## Typed fields and shapes (30_encoding.md R74, R86) -/

/-- Bytes a field of a type occupies (R74). -/
def FieldType.size : FieldType → Nat
  | .byte => 1
  | .int16 => 2
  | .float32 => 4

/-- The bytes of a field's value as they stand in `DATA` (R45, R46, R74). -/
def FieldValue.bytes : FieldValue → List Byte
  | .byte b => [b]
  | .int16 v => halfBytes v
  | .float32 w => wordBytes w

/-- The type of a field's value. -/
def FieldValue.type : FieldValue → FieldType
  | .byte _ => .byte
  | .int16 _ => .int16
  | .float32 _ => .float32

/-- `DATA`: the fields back to back in order, no padding (R74). -/
def dataBytes (vs : List FieldValue) : List Byte := vs.flatMap FieldValue.bytes

/-- The field of a type that stands at offset `k` of a byte string (R74, R150). -/
def fieldAt (t : FieldType) (c : List Byte) (k : Nat) : FieldValue :=
  match t with
  | .byte => .byte (byteAt c k)
  | .int16 => .int16 (halfAt c k)
  | .float32 => .float32 (wordAt c k)

/-- The fields of a list of types standing back to back from offset `k` (R74, R150). -/
def fieldsAt : List FieldType → List Byte → Nat → List FieldValue
  | [], _, _ => []
  | t :: ts, c, k => fieldAt t c k :: fieldsAt ts c (k + t.size)

/-- The fields of a shape in order (R86; in the mixed shapes the bytes come first, decision D15). -/
def Shape.fields : Shape → List FieldType
  | .b1 => [.byte]
  | .b2 => [.byte, .byte]
  | .b3 => [.byte, .byte, .byte]
  | .i1 => [.int16]
  | .i2 => [.int16, .int16]
  | .i3 => [.int16, .int16, .int16]
  | .i7 => [.int16, .int16, .int16, .int16, .int16, .int16, .int16]
  | .f1 => [.float32]
  | .f2 => [.float32, .float32]
  | .f3 => [.float32, .float32, .float32]
  | .f4 => [.float32, .float32, .float32, .float32]
  | .f6 => [.float32, .float32, .float32, .float32, .float32, .float32]
  | .f8 => [.float32, .float32, .float32, .float32, .float32, .float32, .float32, .float32]
  | .b1f3 => [.byte, .float32, .float32, .float32]
  | .b2f1 => [.byte, .byte, .float32]

/-- `D`: the number of `DATA` bytes of a shape, the sum of its field sizes (R86). -/
def Shape.dataSize (s : Shape) : Nat := (s.fields.map FieldType.size).sum

/-- `LEN` of a shape: derived as `1 + D`, never tabulated (R86, R144; 90_conflicts.md C1 for `I3`). -/
def Shape.len (s : Shape) : Nat := 1 + s.dataSize

/-- The length of a shape's frame on the wire: `LEN + 4` (R67). -/
def Shape.frameSize (s : Shape) : Nat := s.len + 4

/-! ## The opcode map (30_encoding.md R80, R77) -/

/-- What the first byte of a command selects: a row of R80, the shapes' rows indexed by the shape. -/
inductive Op where
  | isfull
  | isempty
  | size
  | push
  | pop
  | top
  | insert
  | index
  | feed
  | extract
  | pld
  | msglen
  | msgrd
  | pack (s : Shape)
  | unpack (s : Shape)
deriving DecidableEq, Repr

/-- The row of R80 a first byte selects; none for every byte R80 does not list (R81). -/
def Op.ofByte (b : Byte) : Option Op :=
  match b.toNat with
  | 0x01 => some .isfull
  | 0x02 => some .isempty
  | 0x03 => some .size
  | 0x04 => some .push
  | 0x05 => some .pop
  | 0x06 => some .top
  | 0x07 => some .insert
  | 0x08 => some .index
  | 0x10 => some .feed
  | 0x11 => some .extract
  | 0x12 => some .pld
  | 0x13 => some .msglen
  | 0x14 => some .msgrd
  | 0x20 => some (.pack .b1)
  | 0x21 => some (.pack .b2)
  | 0x22 => some (.pack .b3)
  | 0x23 => some (.pack .i1)
  | 0x24 => some (.pack .i2)
  | 0x25 => some (.pack .i3)
  | 0x26 => some (.pack .i7)
  | 0x27 => some (.pack .f1)
  | 0x28 => some (.pack .f2)
  | 0x29 => some (.pack .f3)
  | 0x2A => some (.pack .f4)
  | 0x2B => some (.pack .f6)
  | 0x2C => some (.pack .f8)
  | 0x2D => some (.pack .b1f3)
  | 0x2E => some (.pack .b2f1)
  | 0x40 => some (.unpack .b1)
  | 0x41 => some (.unpack .b2)
  | 0x42 => some (.unpack .b3)
  | 0x43 => some (.unpack .i1)
  | 0x44 => some (.unpack .i2)
  | 0x45 => some (.unpack .i3)
  | 0x46 => some (.unpack .i7)
  | 0x47 => some (.unpack .f1)
  | 0x48 => some (.unpack .f2)
  | 0x49 => some (.unpack .f3)
  | 0x4A => some (.unpack .f4)
  | 0x4B => some (.unpack .f6)
  | 0x4C => some (.unpack .f8)
  | 0x4D => some (.unpack .b1f3)
  | 0x4E => some (.unpack .b2f1)
  | _ => none

/-- `L`: the length a command must have, `n` being its count operand where it has one (R77, column L of R80). -/
def Op.length (o : Op) (n : Nat) : Nat :=
  match o with
  | .isfull => 1
  | .isempty => 1
  | .size => 1
  | .push => 2
  | .pop => 1
  | .top => 1
  | .insert => 3 + n
  | .index => 3
  | .feed => 3 + n
  | .extract => 1
  | .pld => 2
  | .msglen => 1
  | .msgrd => 2
  | .pack s => 2 + s.dataSize
  | .unpack _ => 1

/-- The operands of a command of the right length, assembled as R76 says; `C[0]` is the opcode (R87 step 3). -/
def assemble (o : Op) (c : List Byte) : Instr :=
  match o with
  | .isfull => .isfull
  | .isempty => .isempty
  | .size => .size
  | .push => .push (byteAt c 1)
  | .pop => .pop
  | .top => .top
  | .insert => .insert (c.drop 3)
  | .index => .index (halfAt c 1)
  | .feed => .feed (c.drop 3)
  | .extract => .extract
  | .pld => .pld (byteAt c 1)
  | .msglen => .msglen
  | .msgrd => .msgrd (byteAt c 1)
  | .pack .b1 => .packB1 (byteAt c 1) (byteAt c 2)
  | .pack .b2 => .packB2 (byteAt c 1) (byteAt c 2) (byteAt c 3)
  | .pack .b3 => .packB3 (byteAt c 1) (byteAt c 2) (byteAt c 3) (byteAt c 4)
  | .pack .i1 => .packI1 (byteAt c 1) (halfAt c 2)
  | .pack .i2 => .packI2 (byteAt c 1) (halfAt c 2) (halfAt c 4)
  | .pack .i3 => .packI3 (byteAt c 1) (halfAt c 2) (halfAt c 4) (halfAt c 6)
  | .pack .i7 => .packI7 (byteAt c 1) (halfAt c 2) (halfAt c 4) (halfAt c 6) (halfAt c 8)
      (halfAt c 10) (halfAt c 12) (halfAt c 14)
  | .pack .f1 => .packF1 (byteAt c 1) (wordAt c 2)
  | .pack .f2 => .packF2 (byteAt c 1) (wordAt c 2) (wordAt c 6)
  | .pack .f3 => .packF3 (byteAt c 1) (wordAt c 2) (wordAt c 6) (wordAt c 10)
  | .pack .f4 => .packF4 (byteAt c 1) (wordAt c 2) (wordAt c 6) (wordAt c 10) (wordAt c 14)
  | .pack .f6 => .packF6 (byteAt c 1) (wordAt c 2) (wordAt c 6) (wordAt c 10) (wordAt c 14)
      (wordAt c 18) (wordAt c 22)
  | .pack .f8 => .packF8 (byteAt c 1) (wordAt c 2) (wordAt c 6) (wordAt c 10) (wordAt c 14)
      (wordAt c 18) (wordAt c 22) (wordAt c 26) (wordAt c 30)
  | .pack .b1f3 => .packB1F3 (byteAt c 1) (byteAt c 2) (wordAt c 3) (wordAt c 7) (wordAt c 11)
  | .pack .b2f1 => .packB2F1 (byteAt c 1) (byteAt c 2) (byteAt c 3) (wordAt c 4)
  | .unpack .b1 => .unpackB1
  | .unpack .b2 => .unpackB2
  | .unpack .b3 => .unpackB3
  | .unpack .i1 => .unpackI1
  | .unpack .i2 => .unpackI2
  | .unpack .i3 => .unpackI3
  | .unpack .i7 => .unpackI7
  | .unpack .f1 => .unpackF1
  | .unpack .f2 => .unpackF2
  | .unpack .f3 => .unpackF3
  | .unpack .f4 => .unpackF4
  | .unpack .f6 => .unpackF6
  | .unpack .f8 => .unpackF8
  | .unpack .b1f3 => .unpackB1F3
  | .unpack .b2f1 => .unpackB2F1

/-! ## The decoder (30_encoding.md R87) -/

/-- Why a byte string is no command. The block answers the last two with the status `ILLEGAL` (R81, R82); the first is
never presented (R75: `L >= 1`; R87: "An empty byte string is not a command and gets no response"). -/
inductive DecodeError where
  | emptyString
  | illegalOpcode (op : Byte)
  | wrongLength (o : Op) (given : Nat)
deriving DecidableEq, Repr

/-- R87: look `C[0]` up; compute `L` (for `INSERT` and `FEED` from the count operand `C[1] + 256*C[2]`; a string of fewer
than 3 bytes never has length `3 + n`); compare it with the given length; assemble the operands. The opcode check comes
before the length check (R82, R175). -/
def decode (c : List Byte) : Except DecodeError Instr :=
  match c with
  | [] => .error .emptyString
  | op :: _ =>
    match Op.ofByte op with
    | none => .error (.illegalOpcode op)
    | some o =>
      if c.length = o.length (halfAt c 1).toNat then .ok (assemble o c)
      else .error (.wrongLength o c.length)

/-! ## The encoder, written from the same table (30_encoding.md R76, R80) -/

/-- The count operand of `INSERT` and `FEED`: the number of bytes as a `u16`, low byte first (R76). -/
def countBytes (bytes : List Byte) : List Byte := halfBytes (BitVec.ofNat 16 bytes.length)

/-- The byte string of a command. -/
def encode : Instr → List Byte
  | .isfull => [0x01]
  | .isempty => [0x02]
  | .size => [0x03]
  | .push b => [0x04, b]
  | .pop => [0x05]
  | .top => [0x06]
  | .insert bytes => 0x07 :: (countBytes bytes ++ bytes)
  | .index k => 0x08 :: halfBytes k
  | .feed bytes => 0x10 :: (countBytes bytes ++ bytes)
  | .extract => [0x11]
  | .pld k => [0x12, k]
  | .msglen => [0x13]
  | .msgrd k => [0x14, k]
  | .packB1 code b0 => 0x20 :: code :: dataBytes [.byte b0]
  | .packB2 code b0 b1 => 0x21 :: code :: dataBytes [.byte b0, .byte b1]
  | .packB3 code b0 b1 b2 => 0x22 :: code :: dataBytes [.byte b0, .byte b1, .byte b2]
  | .packI1 code v0 => 0x23 :: code :: dataBytes [.int16 v0]
  | .packI2 code v0 v1 => 0x24 :: code :: dataBytes [.int16 v0, .int16 v1]
  | .packI3 code v0 v1 v2 => 0x25 :: code :: dataBytes [.int16 v0, .int16 v1, .int16 v2]
  | .packI7 code v0 v1 v2 v3 v4 v5 v6 =>
      0x26 :: code :: dataBytes [.int16 v0, .int16 v1, .int16 v2, .int16 v3, .int16 v4, .int16 v5, .int16 v6]
  | .packF1 code f0 => 0x27 :: code :: dataBytes [.float32 f0]
  | .packF2 code f0 f1 => 0x28 :: code :: dataBytes [.float32 f0, .float32 f1]
  | .packF3 code f0 f1 f2 => 0x29 :: code :: dataBytes [.float32 f0, .float32 f1, .float32 f2]
  | .packF4 code f0 f1 f2 f3 =>
      0x2A :: code :: dataBytes [.float32 f0, .float32 f1, .float32 f2, .float32 f3]
  | .packF6 code f0 f1 f2 f3 f4 f5 =>
      0x2B :: code :: dataBytes [.float32 f0, .float32 f1, .float32 f2, .float32 f3, .float32 f4, .float32 f5]
  | .packF8 code f0 f1 f2 f3 f4 f5 f6 f7 =>
      0x2C :: code :: dataBytes [.float32 f0, .float32 f1, .float32 f2, .float32 f3, .float32 f4, .float32 f5,
        .float32 f6, .float32 f7]
  | .packB1F3 code b0 f0 f1 f2 => 0x2D :: code :: dataBytes [.byte b0, .float32 f0, .float32 f1, .float32 f2]
  | .packB2F1 code b0 b1 f0 => 0x2E :: code :: dataBytes [.byte b0, .byte b1, .float32 f0]
  | .unpackB1 => [0x40]
  | .unpackB2 => [0x41]
  | .unpackB3 => [0x42]
  | .unpackI1 => [0x43]
  | .unpackI2 => [0x44]
  | .unpackI3 => [0x45]
  | .unpackI7 => [0x46]
  | .unpackF1 => [0x47]
  | .unpackF2 => [0x48]
  | .unpackF3 => [0x49]
  | .unpackF4 => [0x4A]
  | .unpackF6 => [0x4B]
  | .unpackF8 => [0x4C]
  | .unpackB1F3 => [0x4D]
  | .unpackB2F1 => [0x4E]

/-! ## The opcode table's numbering of an instruction's bits -/

/-- The byte string of an instruction given as one number, byte `k` being bits `8k+7 .. 8k` (spec/opcode_table.json): the
bytes the table gives it, then zero bytes up to the length its opcode asks for. -/
def tableWordBytes (nbits w : Nat) : List Byte :=
  let c := (List.range (max 1 ((nbits + 7) / 8))).map
    fun k => BitVec.ofNat 8 ((w % 2 ^ nbits) / 256 ^ k)
  match Op.ofByte (byteAt c 0) with
  | none => c
  | some o => c ++ List.replicate (o.length (halfAt c 1).toNat - c.length) 0

/-- The instruction the decoder reads from an instruction word of the opcode table; none where it refuses. -/
def decodeTableWord (nbits w : Nat) : Option Instr :=
  match decode (tableWordBytes nbits w) with
  | .ok i => some i
  | .error _ => none

end Sys2Proof
end

