-- ==== Sys2Proof/Machine/State.lean ====
section
/-! DEFINITION. The state as plain data: the nine items of 10_state.md R20, the two instance parameters the step function
takes (00_scope.md R7, R9, R18), and the model's own fields: which reset's draw the unwritten bytes belong to, what the
environment has presented and the response last given. -/

namespace Sys2Proof.Machine

/-- The status codes of a response (30_encoding.md R79). -/
inductive Status where
  | ok
  | empty
  | range
  | noData
  | incomplete
  | endMismatch
  | crcFail
  | illegal
deriving DecidableEq, Repr

/-- A response: the status and, when the status is `OK`, the result bytes (R78). -/
structure Response where
  status : Status
  result : List Byte
deriving DecidableEq, Repr

/-- What the environment may do between two commands (70_reset_and_hazards.md R196): issue a command, that is a byte
string of length at least 1 (R75), or apply reset with the markers on the configuration inputs (R28, R192). -/
inductive Input where
  | command (opcode : Byte) (operands : List Byte)
  | reset (cfgStart cfgEnd : Byte)
deriving DecidableEq, Repr

/-- The state of the block. Registers are bounded natural numbers (R20 allows it); each byte array is the list of the
cells that have been written since the last reset, in rising order of address. -/
structure State where
  /-- `CAP`, the instance's ring capacity, a parameter no step changes (R7, R191; assumption 2). -/
  cap : Nat
  /-- `EM_DROP`, an instance parameter no step changes (R9; assumption 2). -/
  emDrop : Bool
  /-- Physical index of the oldest valid byte (R21). -/
  head : Nat
  /-- Physical index of the slot the next pushed byte goes to (R22). -/
  tail : Nat
  /-- Number of valid bytes (R23). -/
  count : Nat
  /-- The `message length` field of the outbound message buffer (R25). -/
  msgLen : Nat
  /-- Start marker (R28). -/
  sm : Byte
  /-- End marker (R28). -/
  em : Byte
  /-- Ring storage `ST` (R30). -/
  st : List Host.Cell
  /-- Payload scratch `PL` (R32). -/
  pl : List Host.Cell
  /-- Outbound message buffer `MSG` (R33). -/
  msg : List Host.Cell
  /-- The model's own: the number of the reset whose draw gives the unwritten bytes (R42; assumption 3). -/
  draw : Nat
  /-- The model's own: what the environment has presented and the block has not yet taken, oldest first (assumption 4). -/
  port : List Input
  /-- The model's own: the response to the last command; none since a reset (assumption 5). -/
  resp : Option Response
deriving DecidableEq, Repr

/-- Reasons for the machine to stop: there are none. R170: "Error taxonomy (all recoverable, no fatal errors within the
core)"; every failure is a status in the response, and no access of a command leaves an array (R55). -/
inductive Fault where
deriving DecidableEq, Repr

/-- Reasons to refuse a command. -/
inductive Refusal where
  /-- Raised by `exec`'s arm of a command that has no meaning in the model yet; no arm raises it now. Safe: a run stops. -/
  | notModelled (mnemonic : String)
deriving DecidableEq, Repr

/-- The state right after the first reset of an instance with the given parameters and configuration inputs (R41, R42,
R190): registers 0, markers from the inputs, no byte of an array written. -/
def State.resetWith (cap : Nat) (emDrop : Bool) (cfgStart cfgEnd : Byte) : State :=
  { cap := cap, emDrop := emDrop, head := 0, tail := 0, count := 0, msgLen := 0, sm := cfgStart, em := cfgEnd,
    st := [], pl := [], msg := [], draw := 0, port := [], resp := none }

/-- The machine right after reset: the default instance, markers 0x41 and 0x23 and `EM_DROP = 0` (R8, R9, R41), with the
capacity the model names (assumption 1). -/
def State.reset : State :=
  State.resetWith Config.resetCap Config.resetEmDrop Config.resetStart Config.resetEnd

end Sys2Proof.Machine
end

