-- ==== Sys2Proof/Machine/Ops.lean ====
section
/-! DEFINITION. The named operations over the byte arrays, the response and the inputs (00_scope.md R14, R15,
20_memory.md R52, 30_encoding.md R78). There is no exception to take and none to return from (60_exceptions.md R176,
R177): the one shared operation for a failing command is `raise`, which ends the command with a status. -/

namespace Sys2Proof.Machine

/-! ## A byte array as a list of written cells -/

/-- The byte written at an address, if one has been. -/
def Mem.lookup : List Host.Cell → Nat → Option Byte
  | [], _ => none
  | (k, v) :: m, a => if k = a then some v else Mem.lookup m a

/-- Write a byte, keeping the cells in rising order of address. -/
def Mem.write : List Host.Cell → Nat → Byte → List Host.Cell
  | [], a, v => [(a, v)]
  | (k, w) :: m, a, v =>
    if a < k then (a, v) :: (k, w) :: m
    else if a = k then (a, v) :: m
    else (k, w) :: Mem.write m a v

/-- The canonical form of an array of `size` bytes: addresses strictly rising and inside the array. An unlisted address
holds no written byte, so no entry can equal what it holds (assumption 3). -/
abbrev Memory.wf (size : Nat) (m : List Host.Cell) : Prop :=
  m.Pairwise (fun c d => c.1 < d.1) ∧ ∀ c ∈ m, c.1 < size

/-! ## `MemRead` and `MemWrite` (R14): every access is one byte (R52) -/

/-- The cells of an array. -/
def cells (x : Space) (s : State) : List Host.Cell :=
  match x with
  | .st => s.st
  | .pl => s.pl
  | .msg => s.msg

/-- `MemRead(x:a, 1)`: the byte written there last, or the free value of the last reset's draw (R42). -/
def memRead (x : Space) (a : Nat) (s : State) : Byte :=
  (Mem.lookup (cells x s) a).getD (Config.unwritten x s.draw a)

/-- `MemWrite(x:a, 1, v)`. -/
def memWrite (x : Space) (a : Nat) (v : Byte) (s : State) : State :=
  match x with
  | .st => { s with st := Mem.write s.st a v }
  | .pl => { s with pl := Mem.write s.pl a v }
  | .msg => { s with msg := Mem.write s.msg a v }

/-- `MemRead(x:a, n)`: the bytes at `a .. a+n-1`, lowest address first (R14). -/
def memReadN (x : Space) (a n : Nat) (s : State) : List Byte :=
  (List.range n).map fun k => memRead x (a + k) s

/-- Write bytes one by one at `a, a+1, ..` (R52: increasing address order). -/
def memWriteN (x : Space) : Nat → List Byte → State → State
  | _, [], s => s
  | a, v :: vs, s => memWriteN x (a + 1) vs (memWrite x a v s)

/-! ## Ending a command (R15, R78) -/

/-- Give a response. -/
def respond (st : Status) (result : List Byte) (s : State) : State :=
  { s with resp := some { status := st, result := result } }

/-- `return OK(result)`: the command ends with status `OK` and its result bytes (R15). -/
def answer (result : List Byte) (s : State) : Host.Outcome State Fault Refusal :=
  .next (respond .ok result s)

/-- `raise STATUS`: the command ends at once with that status and no result bytes; what it has changed stays changed (R15,
R176: no state is saved, no control moves). -/
def raise (st : Status) (s : State) : Host.Outcome State Fault Refusal :=
  .next (respond st [] s)

/-- The decoder's answer to a byte string that is no command: `ILLEGAL`, no state change (R81, R82). -/
def rejectIllegal (s : State) : Host.Outcome State Fault Refusal := raise .illegal s

/-! ## The environment's inputs -/

/-- The byte string of a presented command (R75). -/
def commandBytes (opcode : Byte) (operands : List Byte) : List Byte := opcode :: operands

/-- Take the oldest input from the port: the rest stays presented. -/
def takeInput (rest : List Input) (s : State) : State := { s with port := rest }

/-- The reset event (R190, R191, R192): registers at their reset values, markers sampled from the configuration inputs,
the arrays unspecified anew (R42: "A second reset leaves the arrays equally unspecified"), so the unwritten bytes
belong to a new draw; `CAP` and `EM_DROP` stay. Reset is no command and gets no response. -/
def applyReset (cfgStart cfgEnd : Byte) (s : State) : State :=
  { s with
    head := 0, tail := 0, count := 0, msgLen := 0, sm := cfgStart, em := cfgEnd,
    st := [], pl := [], msg := [], draw := s.draw + 1, resp := none }

/-- Present a command given as a byte string in front of all other inputs; an empty string is no command (R75). -/
def presentCommand (c : List Byte) (s : State) : State :=
  match c with
  | [] => s
  | op :: operands => { s with port := .command op operands :: s.port }

end Sys2Proof.Machine
end

