-- ==== Sys2Proof/Machine/Operands.lean ====
section
/-! DEFINITION. The operand forms: how a command reaches a byte of the ring by logical index (10_state.md R31, 20_memory.md
R57), and the logical contents `Q` of the ring (00_scope.md R16). `PL` and `MSG` are addressed by their plain index (R55). -/

namespace Sys2Proof.Machine

/-- The physical index of logical index `i`: `(head + i) mod CAP` (R31, R57). -/
def ringSlot (s : State) (i : Nat) : Nat := (s.head + i) % s.cap

/-- `RB[i]`, the ring byte at logical index `i` (R14, R31). -/
def ringByte (s : State) (i : Nat) : Byte := memRead .st (ringSlot s i) s

/-- The `n` ring bytes from logical index `i` on: `RB[i], .., RB[i+n-1]`. -/
def ringBytes (s : State) (i n : Nat) : List Byte := (List.range n).map fun k => ringByte s (i + k)

/-- `Q`: the bytes `RB[0], .., RB[count-1]`, oldest first (R16). -/
def logical (s : State) : List Byte := ringBytes s 0 s.count

end Sys2Proof.Machine
end

