-- ==== Sys2Proof/Machine/Flags.lean ====
section
/-! DEFINITION. The conditions the block derives and never stores (10_state.md R26), how they and a count appear in a
response, and the numbers of the status codes (30_encoding.md R79). -/

namespace Sys2Proof.Machine

/-- `empty = (count = 0)` (R26). -/
def isEmpty (s : State) : Bool := s.count == 0

/-- `full = (count = CAP)` (R26). -/
def isFull (s : State) : Bool := s.count == s.cap

/-- A condition as the flag byte of a response: 1 or 0 (R91, R92). -/
def flagByte (b : Bool) : Byte := if b then 1 else 0

/-- A natural number as the `u16` result of a response, low byte first (R76, R93). -/
def u16Result (n : Nat) : List Byte := halfBytes (BitVec.ofNat 16 n)

/-- The number of a status (R79). -/
def Status.code : Status → Byte
  | .ok => 0x00
  | .empty => 0x01
  | .range => 0x02
  | .noData => 0x10
  | .incomplete => 0x11
  | .endMismatch => 0x12
  | .crcFail => 0x13
  | .illegal => 0xFF

/-- The byte string of a response: the status byte, then the result bytes (R78). -/
def Response.bytes (r : Response) : List Byte := r.status.code :: r.result

/-- The boolean of the source's `try_extract_payload`: true exactly for `OK` (R79, R173). -/
def Response.extracted (r : Response) : Bool := r.status == .ok

end Sys2Proof.Machine
end

