-- ==== Sys2Proof/Machine/Ring.lean ====
section
/-! DEFINITION. The Ring Buffer commands (40_ring_buffer.md): `ISFULL`, `ISEMPTY`, `SIZE`, `PUSH`, `POP`, `TOP`, `INSERT`,
`INDEX`, and the two ring operations they share with the deframer, a push and `DROP`. -/

namespace Sys2Proof.Machine

/-- The body of `PUSH` (R94): write at `tail`, advance `tail`; a full ring advances `head` (the oldest byte is evicted),
another counts one more. The test uses the count before the push. -/
def pushByte (b : Byte) (s : State) : State :=
  { s with
    st := Mem.write s.st s.tail b
    tail := (s.tail + 1) % s.cap
    head := if s.count = s.cap then (s.head + 1) % s.cap else s.head
    count := if s.count = s.cap then s.count else s.count + 1 }

/-- The pushes of `INSERT` and `FEED`, in order (R97, R108). -/
def pushBytes (bytes : List Byte) (s : State) : State :=
  bytes.foldl (fun t b => pushByte b t) s

/-- `DROP(n)`: remove the `n` oldest bytes (R107). -/
def dropBytes (n : Nat) (s : State) : State :=
  { s with head := (s.head + n) % s.cap, count := s.count - n }

/-- `ISFULL` (R91). -/
def execIsfull (s : State) : Host.Outcome State Fault Refusal := answer [flagByte (isFull s)] s

/-- `ISEMPTY` (R92). -/
def execIsempty (s : State) : Host.Outcome State Fault Refusal := answer [flagByte (isEmpty s)] s

/-- `SIZE` (R93). -/
def execSize (s : State) : Host.Outcome State Fault Refusal := answer (u16Result s.count) s

/-- `PUSH b` (R94): always `OK`. -/
def execPush (b : Byte) (s : State) : Host.Outcome State Fault Refusal := answer [] (pushByte b s)

/-- `POP` (R95): `EMPTY` on an empty ring, else the oldest byte, which is removed; the slot is not cleared. -/
def execPop (s : State) : Host.Outcome State Fault Refusal :=
  if isEmpty s then raise .empty s
  else answer [memRead .st s.head s] (dropBytes 1 s)

/-- `TOP` (R96): `EMPTY` on an empty ring, else the oldest byte, which stays. -/
def execTop (s : State) : Host.Outcome State Fault Refusal :=
  if isEmpty s then raise .empty s
  else answer [memRead .st s.head s] s

/-- `INSERT [b0, ..]` (R97): the body of `PUSH` for each byte in order. -/
def execInsert (bytes : List Byte) (s : State) : Host.Outcome State Fault Refusal := answer [] (pushBytes bytes s)

/-- `INDEX i` (R98): `RANGE` when `i >= count`, else `RB[i]`. -/
def execIndex (k : Half) (s : State) : Host.Outcome State Fault Refusal :=
  if s.count ≤ k.toNat then raise .range s
  else answer [ringByte s k.toNat] s

end Sys2Proof.Machine
end

