-- ==== Sys2Proof/Machine/Ingest.lean ====
section
/-! DEFINITION. The ingest path (41_deframer.md): CRC-8/MAXIM, `FEED`, the deframer `EXTRACT` in its nine steps, `PLD`. -/

namespace Sys2Proof.Machine

/-- One iteration of the checksum (R105): mix the low bits of `crc` and `d`, shift `crc` right, and xor with 0x8C if the
mix is 1. -/
def crcBit (crc d : Byte) : Byte :=
  if crc.getLsbD 0 != d.getLsbD 0 then (crc >>> 1) ^^^ 0x8C else crc >>> 1

/-- `n` iterations, the data byte shifted right after each (R105). -/
def crcIter : Nat → Byte → Byte → Byte
  | 0, crc, _ => crc
  | n + 1, crc, d => crcIter n (crcBit crc d) (d >>> 1)

/-- The eight iterations one input byte takes (R105). -/
def crcByte (crc d : Byte) : Byte := crcIter 8 crc d

/-- `crc8(bytes)`: CRC-8/MAXIM, seed 0x00, first byte first, no final xor (R105). -/
def crc8 (bytes : List Byte) : Byte := bytes.foldl crcByte 0x00

/-- `FEED [b0, ..]` (R108): the same pushes as `INSERT`; the deframer is not run. -/
def execFeed (bytes : List Byte) (s : State) : Host.Outcome State Fault Refusal := answer [] (pushBytes bytes s)

/-- Step 2 of `EXTRACT` (R111): drop bytes one at a time until the front is `SM` or the ring is empty. The first argument
bounds the iterations; the count before the step is enough, since each iteration drops a byte (R19). -/
def resync : Nat → State → State
  | 0, s => s
  | n + 1, s => if 0 < s.count ∧ ringByte s 0 ≠ s.sm then resync n (dropBytes 1 s) else s

/-- `payload_size`: the length byte `RB[1]` of the candidate frame, a natural number from 0 to 255 (R113, R13). -/
def payloadSize (s : State) : Nat := (ringByte s 1).toNat

/-- Step 7 of `EXTRACT` (R116): copy `RB[2], .., RB[payload_size + 1]` to `PL:0, PL:1, ..`. -/
def copyPayload (s : State) : State := memWriteN .pl 0 (ringBytes s 2 (payloadSize s)) s

/-- Steps 3 to 9 of `EXTRACT` (R112 to R118), from the state step 2 leaves. -/
def extractFrame (s : State) : Host.Outcome State Fault Refusal :=
  if s.count < 2 then raise .incomplete s
  else if s.count < payloadSize s + 4 then raise .incomplete s
  else if ringByte s (payloadSize s + 2) ≠ s.em then
    raise .endMismatch (if s.emDrop then dropBytes 1 s else s)
  else if crc8 (memReadN .pl 0 (payloadSize s) (copyPayload s)) ≠ ringByte (copyPayload s) (payloadSize s + 3) then
    raise .crcFail (dropBytes 1 (copyPayload s))
  else answer [] (dropBytes (payloadSize s + 4) (copyPayload s))

/-- `EXTRACT` (R109): `NO_DATA` on an empty ring (step 1), else resynchronise (step 2) and examine the candidate frame. -/
def execExtract (s : State) : Host.Outcome State Fault Refusal :=
  if isEmpty s then raise .noData s
  else extractFrame (resync s.count s)

/-- `PLD i` (R121): `RANGE` for `i >= PMAX`, else the byte `PL:i`. -/
def execPld (k : Byte) (s : State) : Host.Outcome State Fault Refusal :=
  if Config.pmax ≤ k.toNat then raise .range s
  else answer [memRead .pl k.toNat s] s

end Sys2Proof.Machine
end

