-- ==== Sys2Proof/Machine/Pack.lean ====
section
/-! DEFINITION. The outbound path (42_pack.md): `build_frame`, the fifteen `PACK_*` commands, `MSGLEN`, `MSGRD`. -/

namespace Sys2Proof.Machine

/-- The bytes of a frame (30_encoding.md R65): `START | LEN | CODE | DATA | END | CRC`, `LEN = 1 + D` (R144), the CRC over
`CODE + DATA` only (R71). -/
def frameBytes (sm em code : Byte) (data : List Byte) : List Byte :=
  sm :: BitVec.ofNat 8 (1 + data.length) :: code :: (data ++ [em, crc8 (code :: data)])

/-- `build_frame(code, data)` (R125): write the frame into `MSG` from `MSG:0` on and set `msg_len` to `LEN + 4`. -/
def buildFrame (code : Byte) (data : List Byte) (s : State) : State :=
  { memWriteN .msg 0 (frameBytes s.sm s.em code data) s with msgLen := 1 + data.length + 4 }

/-- What every `PACK_*` command does with its code and fields (R126): serialise, build the frame, return `msg_len`. -/
def pack (code : Byte) (fields : List FieldValue) (s : State) : Host.Outcome State Fault Refusal :=
  answer [BitVec.ofNat 8 (buildFrame code (dataBytes fields) s).msgLen] (buildFrame code (dataBytes fields) s)

/-- `PACK_B1` (R127). -/
def execPackB1 (code : Byte) (b0 : Byte) (s : State) : Host.Outcome State Fault Refusal :=
    pack code [.byte b0] s

/-- `PACK_B2` (R128). -/
def execPackB2 (code : Byte) (b0 b1 : Byte) (s : State) : Host.Outcome State Fault Refusal :=
    pack code [.byte b0, .byte b1] s

/-- `PACK_B3` (R129). -/
def execPackB3 (code : Byte) (b0 b1 b2 : Byte) (s : State) : Host.Outcome State Fault Refusal :=
    pack code [.byte b0, .byte b1, .byte b2] s

/-- `PACK_I1` (R130). -/
def execPackI1 (code : Byte) (v0 : Half) (s : State) : Host.Outcome State Fault Refusal :=
    pack code [.int16 v0] s

/-- `PACK_I2` (R131). -/
def execPackI2 (code : Byte) (v0 v1 : Half) (s : State) : Host.Outcome State Fault Refusal :=
    pack code [.int16 v0, .int16 v1] s

/-- `PACK_I3` (R132). -/
def execPackI3 (code : Byte) (v0 v1 v2 : Half) (s : State) : Host.Outcome State Fault Refusal :=
    pack code [.int16 v0, .int16 v1, .int16 v2] s

/-- `PACK_I7` (R133). -/
def execPackI7 (code : Byte) (v0 v1 v2 v3 v4 v5 v6 : Half) (s : State) : Host.Outcome State Fault Refusal :=
    pack code [.int16 v0, .int16 v1, .int16 v2, .int16 v3, .int16 v4, .int16 v5, .int16 v6] s

/-- `PACK_F1` (R134). -/
def execPackF1 (code : Byte) (f0 : Word) (s : State) : Host.Outcome State Fault Refusal :=
    pack code [.float32 f0] s

/-- `PACK_F2` (R135). -/
def execPackF2 (code : Byte) (f0 f1 : Word) (s : State) : Host.Outcome State Fault Refusal :=
    pack code [.float32 f0, .float32 f1] s

/-- `PACK_F3` (R136). -/
def execPackF3 (code : Byte) (f0 f1 f2 : Word) (s : State) : Host.Outcome State Fault Refusal :=
    pack code [.float32 f0, .float32 f1, .float32 f2] s

/-- `PACK_F4` (R137). -/
def execPackF4 (code : Byte) (f0 f1 f2 f3 : Word) (s : State) : Host.Outcome State Fault Refusal :=
    pack code [.float32 f0, .float32 f1, .float32 f2, .float32 f3] s

/-- `PACK_F6` (R138). -/
def execPackF6 (code : Byte) (f0 f1 f2 f3 f4 f5 : Word) (s : State) : Host.Outcome State Fault Refusal :=
    pack code [.float32 f0, .float32 f1, .float32 f2, .float32 f3, .float32 f4, .float32 f5] s

/-- `PACK_F8` (R139). -/
def execPackF8 (code : Byte) (f0 f1 f2 f3 f4 f5 f6 f7 : Word) (s : State) : Host.Outcome State Fault Refusal :=
    pack code [.float32 f0, .float32 f1, .float32 f2, .float32 f3, .float32 f4, .float32 f5, .float32 f6, .float32
    f7] s

/-- `PACK_B1F3` (R140). -/
def execPackB1F3 (code : Byte) (b0 : Byte) (f0 f1 f2 : Word) (s : State) : Host.Outcome State Fault Refusal :=
    pack code [.byte b0, .float32 f0, .float32 f1, .float32 f2] s

/-- `PACK_B2F1` (R141). -/
def execPackB2F1 (code : Byte) (b0 b1 : Byte) (f0 : Word) (s : State) : Host.Outcome State Fault Refusal :=
    pack code [.byte b0, .byte b1, .float32 f0] s

/-- `MSGLEN` (R142): `msg_len` as one byte. -/
def execMsglen (s : State) : Host.Outcome State Fault Refusal := answer [BitVec.ofNat 8 s.msgLen] s

/-- `MSGRD i` (R143): `RANGE` when `i >= msg_len`, else the byte `MSG:i`. -/
def execMsgrd (k : Byte) (s : State) : Host.Outcome State Fault Refusal :=
  if s.msgLen ≤ k.toNat then raise .range s
  else answer [memRead .msg k.toNat s] s

end Sys2Proof.Machine
end

