-- ==== Sys2Proof/Machine/Unpack.lean ====
section
/-! DEFINITION. The inbound path (43_unpack.md): the fifteen `UNPACK_*` commands, which read a shape's layout out of `PL`
without any check and change nothing (R150, R151). -/

namespace Sys2Proof.Machine

/-- `unpack(D)` (R150): the code `PL:0` and the `D` data bytes `PL:1 .. PL:D` of a shape. -/
def unpack (sh : Shape) (s : State) : Host.Outcome State Fault Refusal :=
  answer (memRead .pl 0 s :: memReadN .pl 1 sh.dataSize s) s

/-- The typed values of an `UNPACK_*` result (R150): the code and the shape's fields, from payload offset 1 on. -/
def typedResult (sh : Shape) (result : List Byte) : Byte × List FieldValue :=
  (byteAt result 0, fieldsAt sh.fields result 1)

/-- `UNPACK_B1` (R152). -/
def execUnpackB1 (s : State) : Host.Outcome State Fault Refusal := unpack .b1 s

/-- `UNPACK_B2` (R153). -/
def execUnpackB2 (s : State) : Host.Outcome State Fault Refusal := unpack .b2 s

/-- `UNPACK_B3` (R154). -/
def execUnpackB3 (s : State) : Host.Outcome State Fault Refusal := unpack .b3 s

/-- `UNPACK_I1` (R155). -/
def execUnpackI1 (s : State) : Host.Outcome State Fault Refusal := unpack .i1 s

/-- `UNPACK_I2` (R156). -/
def execUnpackI2 (s : State) : Host.Outcome State Fault Refusal := unpack .i2 s

/-- `UNPACK_I3` (R157). -/
def execUnpackI3 (s : State) : Host.Outcome State Fault Refusal := unpack .i3 s

/-- `UNPACK_I7` (R158). -/
def execUnpackI7 (s : State) : Host.Outcome State Fault Refusal := unpack .i7 s

/-- `UNPACK_F1` (R159). -/
def execUnpackF1 (s : State) : Host.Outcome State Fault Refusal := unpack .f1 s

/-- `UNPACK_F2` (R160). -/
def execUnpackF2 (s : State) : Host.Outcome State Fault Refusal := unpack .f2 s

/-- `UNPACK_F3` (R161). -/
def execUnpackF3 (s : State) : Host.Outcome State Fault Refusal := unpack .f3 s

/-- `UNPACK_F4` (R162). -/
def execUnpackF4 (s : State) : Host.Outcome State Fault Refusal := unpack .f4 s

/-- `UNPACK_F6` (R163). -/
def execUnpackF6 (s : State) : Host.Outcome State Fault Refusal := unpack .f6 s

/-- `UNPACK_F8` (R164). -/
def execUnpackF8 (s : State) : Host.Outcome State Fault Refusal := unpack .f8 s

/-- `UNPACK_B1F3` (R165). -/
def execUnpackB1F3 (s : State) : Host.Outcome State Fault Refusal := unpack .b1f3 s

/-- `UNPACK_B2F1` (R166). -/
def execUnpackB2F1 (s : State) : Host.Outcome State Fault Refusal := unpack .b2f1 s

end Sys2Proof.Machine
end

