-- ==== Sys2Proof/Machine/Dispatch.lean ====
section
/-! DEFINITION. One arm per command: each calls the meaning of its own rule of the spec. -/

namespace Sys2Proof.Machine

def exec (i : Instr) (s : State) : Host.Outcome State Fault Refusal :=
  match i with
  | .isfull => Sys2Proof.Machine.execIsfull s
  | .isempty => Sys2Proof.Machine.execIsempty s
  | .size => Sys2Proof.Machine.execSize s
  | .push b => Sys2Proof.Machine.execPush b s
  | .pop => Sys2Proof.Machine.execPop s
  | .top => Sys2Proof.Machine.execTop s
  | .insert bytes => Sys2Proof.Machine.execInsert bytes s
  | .index k => Sys2Proof.Machine.execIndex k s
  | .feed bytes => Sys2Proof.Machine.execFeed bytes s
  | .extract => Sys2Proof.Machine.execExtract s
  | .pld k => Sys2Proof.Machine.execPld k s
  | .msglen => Sys2Proof.Machine.execMsglen s
  | .msgrd k => Sys2Proof.Machine.execMsgrd k s
  | .packB1 code b0 => Sys2Proof.Machine.execPackB1 code b0 s
  | .packB2 code b0 b1 => Sys2Proof.Machine.execPackB2 code b0 b1 s
  | .packB3 code b0 b1 b2 => Sys2Proof.Machine.execPackB3 code b0 b1 b2 s
  | .packI1 code v0 => Sys2Proof.Machine.execPackI1 code v0 s
  | .packI2 code v0 v1 => Sys2Proof.Machine.execPackI2 code v0 v1 s
  | .packI3 code v0 v1 v2 => Sys2Proof.Machine.execPackI3 code v0 v1 v2 s
  | .packI7 code v0 v1 v2 v3 v4 v5 v6 => Sys2Proof.Machine.execPackI7 code v0 v1 v2 v3 v4 v5 v6 s
  | .packF1 code f0 => Sys2Proof.Machine.execPackF1 code f0 s
  | .packF2 code f0 f1 => Sys2Proof.Machine.execPackF2 code f0 f1 s
  | .packF3 code f0 f1 f2 => Sys2Proof.Machine.execPackF3 code f0 f1 f2 s
  | .packF4 code f0 f1 f2 f3 => Sys2Proof.Machine.execPackF4 code f0 f1 f2 f3 s
  | .packF6 code f0 f1 f2 f3 f4 f5 => Sys2Proof.Machine.execPackF6 code f0 f1 f2 f3 f4 f5 s
  | .packF8 code f0 f1 f2 f3 f4 f5 f6 f7 => Sys2Proof.Machine.execPackF8 code f0 f1 f2 f3 f4 f5 f6 f7 s
  | .packB1F3 code b0 f0 f1 f2 => Sys2Proof.Machine.execPackB1F3 code b0 f0 f1 f2 s
  | .packB2F1 code b0 b1 f0 => Sys2Proof.Machine.execPackB2F1 code b0 b1 f0 s
  | .unpackB1 => Sys2Proof.Machine.execUnpackB1 s
  | .unpackB2 => Sys2Proof.Machine.execUnpackB2 s
  | .unpackB3 => Sys2Proof.Machine.execUnpackB3 s
  | .unpackI1 => Sys2Proof.Machine.execUnpackI1 s
  | .unpackI2 => Sys2Proof.Machine.execUnpackI2 s
  | .unpackI3 => Sys2Proof.Machine.execUnpackI3 s
  | .unpackI7 => Sys2Proof.Machine.execUnpackI7 s
  | .unpackF1 => Sys2Proof.Machine.execUnpackF1 s
  | .unpackF2 => Sys2Proof.Machine.execUnpackF2 s
  | .unpackF3 => Sys2Proof.Machine.execUnpackF3 s
  | .unpackF4 => Sys2Proof.Machine.execUnpackF4 s
  | .unpackF6 => Sys2Proof.Machine.execUnpackF6 s
  | .unpackF8 => Sys2Proof.Machine.execUnpackF8 s
  | .unpackB1F3 => Sys2Proof.Machine.execUnpackB1F3 s
  | .unpackB2F1 => Sys2Proof.Machine.execUnpackB2F1 s

end Sys2Proof.Machine
end

