-- ==== Sys2Proof/Machine/Step.lean ====
section
/-! DEFINITION. One step of the block: it takes the oldest input the environment has presented. A command is decoded
(30_encoding.md R87) and executed, or answered with `ILLEGAL`; a reset event resets the block (70_reset_and_hazards.md
R192); with no input nothing changes (60_exceptions.md R188). Also where the host places an instruction. -/

namespace Sys2Proof.Machine

/-- Decode a command's byte string and execute it; a string that is no command is answered with `ILLEGAL` (R87). -/
def runCommand (c : List Byte) (s : State) : Host.Outcome State Fault Refusal :=
  match decode c with
  | .ok i => exec i s
  | .error _ => rejectIllegal s

/-- One step. -/
def step (s : State) : Host.Outcome State Fault Refusal :=
  match s.port with
  | [] => .next s
  | .command op operands :: rest => runCommand (commandBytes op operands) (takeInput rest s)
  | .reset cfgStart cfgEnd :: rest => .next (applyReset cfgStart cfgEnd (takeInput rest s))

/-- The state with an instruction word of the opcode table presented as the next command. -/
def State.withFetchWord (s : State) (nbits w : Nat) : State := presentCommand (tableWordBytes nbits w) s

end Sys2Proof.Machine
end

