-- ==== Sys2Proof/Safety.lean ====
section
/-! DEFINITION. The terms claims are made in: the invariant of the block (10_state.md R20, R27, R38, R40), what a caller
can observe (R39), runs of commands, frames on the wire (30_encoding.md R65), and the model of the block on the logical
contents `Q` alone (00_scope.md R16, 40_ring_buffer.md R101, 41_deframer.md R120), which `exec` is claimed to refine. -/

namespace Sys2Proof.Machine

/-! ## Legal states -/

/-- The instance's capacity is in the range the spec allows (R7). -/
abbrev CapLegal (s : State) : Prop := 1 ≤ s.cap ∧ s.cap ≤ Config.capMax

/-- The invariants of the ring registers: (a) `0 <= count <= CAP`, (b) `head` and `tail` below `CAP`, (c)
`tail = (head + count) mod CAP` (R27). -/
abbrev RingInv (s : State) : Prop :=
  s.count ≤ s.cap ∧ s.head < s.cap ∧ s.tail < s.cap ∧ s.tail = (s.head + s.count) % s.cap

/-- The values `msg_len` may have (R20, R25). -/
abbrev MsgLenLegal (s : State) : Prop := s.msgLen ∈ [0, 6, 7, 8, 9, 11, 13, 17, 18, 19, 21, 29, 37]

/-- Every array is in canonical form and inside its size (R20, R55). -/
abbrev ArraysCanonical (s : State) : Prop :=
  Memory.wf s.cap s.st ∧ Memory.wf Config.pmax s.pl ∧ Memory.wf Config.mmax s.msg

/-- Every byte a command may read from the ring or from the message has been written since reset (R38, R40): the
unspecified contents of `ST` and `MSG` (R42) are never read. -/
abbrev WindowWritten (s : State) : Prop :=
  (∀ i < s.count, (Mem.lookup s.st (ringSlot s i)).isSome = true)
    ∧ ∀ i < s.msgLen, (Mem.lookup s.msg i).isSome = true

/-- A response that is not `OK` has no result bytes (R78). -/
def Response.legal (r : Response) : Bool := r.status == .ok || r.result.isEmpty

/-- The response last given, if any, is legal. -/
abbrev ResponseLegal (s : State) : Prop := s.resp.all Response.legal = true

/-- A legal state of the block. -/
abbrev StateLegal (s : State) : Prop :=
  CapLegal s ∧ RingInv s ∧ MsgLenLegal s ∧ ArraysCanonical s ∧ WindowWritten s ∧ ResponseLegal s

/-! ## Runs of commands -/

/-- Execute commands one after another (R19): the responses in order and the last state; none if a command stops. -/
def runAll : List Instr → State → Option (List Response × State)
  | [], s => some ([], s)
  | i :: is, s =>
    match exec i s with
    | .next t =>
      match t.resp with
      | some r => (runAll is t).map fun x => (r :: x.1, x.2)
      | none => none
    | .fault _ => none
    | .refused _ => none

/-- The response `OK` with result bytes. -/
def okResponse (result : List Byte) : Response := { status := .ok, result := result }

/-- A response that is not `OK`. -/
def failResponse (st : Status) : Response := { status := st, result := [] }

/-! ## What a caller observes (R39) -/

/-- Two states of instances with the same parameters that agree on `Q`, on every byte of `PL`, on the readable bytes of
`MSG`, on `msg_len`, `SM` and `EM`; `head`, `tail` and everything else may differ. -/
def ObsEq (s t : State) : Prop :=
  s.cap = t.cap ∧ s.emDrop = t.emDrop ∧ logical s = logical t
    ∧ (∀ a < Config.pmax, memRead .pl a s = memRead .pl a t)
    ∧ s.msgLen = t.msgLen ∧ (∀ a < s.msgLen, memRead .msg a s = memRead .msg a t)
    ∧ s.sm = t.sm ∧ s.em = t.em

/-! ## Sequences and frames -/

/-- The last `k` elements of a sequence (R101). -/
def lastN (k : Nat) (q : List Byte) : List Byte := q.drop (q.length - k)

/-- A sequence without its longest prefix free of `b` (R111, R120). -/
def fromFirst (b : Byte) (q : List Byte) : List Byte := q.dropWhile fun x => x != b

/-- A frame on the wire with any payload `CODE + DATA` of at most 255 bytes, empty included (R65, R67, R71, R73). -/
def wireFrame (sm em : Byte) (payload : List Byte) : List Byte :=
  sm :: BitVec.ofNat 8 payload.length :: (payload ++ [em, crc8 payload])

/-- The 16-bit pattern of two bytes, low byte first: `lo + 256 * hi` (R45). -/
def half (lo hi : Byte) : Half := BitVec.ofNat 16 (lo.toNat + 256 * hi.toNat)

/-- The 32-bit pattern of four bytes, least significant first (R46). -/
def word (b0 b1 b2 b3 : Byte) : Word :=
  BitVec.ofNat 32 (b0.toNat + 256 * b1.toNat + 65536 * b2.toNat + 16777216 * b3.toNat)

/-- The payload offsets at which fields stand, from an offset on (R86). -/
def fieldOffsets : List FieldType → Nat → List Nat
  | [], _ => []
  | t :: ts, k => k :: fieldOffsets ts (k + t.size)

/-! ## The commands that pack and unpack a shape -/

/-- The shape, code and fields of a `PACK_*` command; none for every other command. -/
def packOf : Instr → Option (Shape × Byte × List FieldValue)
  | .packB1 code b0 => some (.b1, code, [.byte b0])
  | .packB2 code b0 b1 => some (.b2, code, [.byte b0, .byte b1])
  | .packB3 code b0 b1 b2 => some (.b3, code, [.byte b0, .byte b1, .byte b2])
  | .packI1 code v0 => some (.i1, code, [.int16 v0])
  | .packI2 code v0 v1 => some (.i2, code, [.int16 v0, .int16 v1])
  | .packI3 code v0 v1 v2 => some (.i3, code, [.int16 v0, .int16 v1, .int16 v2])
  | .packI7 code v0 v1 v2 v3 v4 v5 v6 =>
      some (.i7, code, [.int16 v0, .int16 v1, .int16 v2, .int16 v3, .int16 v4, .int16 v5, .int16 v6])
  | .packF1 code f0 => some (.f1, code, [.float32 f0])
  | .packF2 code f0 f1 => some (.f2, code, [.float32 f0, .float32 f1])
  | .packF3 code f0 f1 f2 => some (.f3, code, [.float32 f0, .float32 f1, .float32 f2])
  | .packF4 code f0 f1 f2 f3 => some (.f4, code, [.float32 f0, .float32 f1, .float32 f2, .float32 f3])
  | .packF6 code f0 f1 f2 f3 f4 f5 =>
      some (.f6, code, [.float32 f0, .float32 f1, .float32 f2, .float32 f3, .float32 f4, .float32 f5])
  | .packF8 code f0 f1 f2 f3 f4 f5 f6 f7 =>
      some (.f8, code, [.float32 f0, .float32 f1, .float32 f2, .float32 f3, .float32 f4, .float32 f5, .float32 f6,
        .float32 f7])
  | .packB1F3 code b0 f0 f1 f2 => some (.b1f3, code, [.byte b0, .float32 f0, .float32 f1, .float32 f2])
  | .packB2F1 code b0 b1 f0 => some (.b2f1, code, [.byte b0, .byte b1, .float32 f0])
  | .isfull | .isempty | .size | .push _ | .pop | .top | .insert _ | .index _ => none
  | .feed _ | .extract | .pld _ | .msglen | .msgrd _ => none
  | .unpackB1 | .unpackB2 | .unpackB3 | .unpackI1 | .unpackI2 | .unpackI3 | .unpackI7 => none
  | .unpackF1 | .unpackF2 | .unpackF3 | .unpackF4 | .unpackF6 | .unpackF8 => none
  | .unpackB1F3 | .unpackB2F1 => none

/-- The shape an `UNPACK_*` command reads; none for every other command. -/
def unpackOf : Instr → Option Shape
  | .unpackB1 => some .b1
  | .unpackB2 => some .b2
  | .unpackB3 => some .b3
  | .unpackI1 => some .i1
  | .unpackI2 => some .i2
  | .unpackI3 => some .i3
  | .unpackI7 => some .i7
  | .unpackF1 => some .f1
  | .unpackF2 => some .f2
  | .unpackF3 => some .f3
  | .unpackF4 => some .f4
  | .unpackF6 => some .f6
  | .unpackF8 => some .f8
  | .unpackB1F3 => some .b1f3
  | .unpackB2F1 => some .b2f1
  | .isfull | .isempty | .size | .push _ | .pop | .top | .insert _ | .index _ => none
  | .feed _ | .extract | .pld _ | .msglen | .msgrd _ => none
  | .packB1 _ _ | .packB2 _ _ _ | .packB3 _ _ _ _ => none
  | .packI1 _ _ | .packI2 _ _ _ | .packI3 _ _ _ _ | .packI7 _ _ _ _ _ _ _ _ => none
  | .packF1 _ _ | .packF2 _ _ _ | .packF3 _ _ _ _ | .packF4 _ _ _ _ _ => none
  | .packF6 _ _ _ _ _ _ _ | .packF8 _ _ _ _ _ _ _ _ _ => none
  | .packB1F3 _ _ _ _ _ | .packB2F1 _ _ _ _ => none

/-- What R125 and R126 say of a `PACK_*` command with the given code and data bytes, from every state: it completes with
`OK` and the new `msg_len`, `MSG` from index 0 on holds the frame `SM, LEN, code, data, EM, crc8(code ++ data)` with
`LEN = 1 + D`, the other bytes of `MSG` keep their contents, and nothing else changes. -/
def BuildsFrame (i : Instr) (code : Byte) (data : List Byte) : Prop :=
  ∀ s : State, ∃ t : State, exec i s = .next t
    ∧ memReadN .msg 0 (data.length + 5) t
        = [s.sm, BitVec.ofNat 8 (1 + data.length), code] ++ data ++ [s.em, crc8 (code :: data)]
    ∧ (∀ a, data.length + 5 ≤ a → memRead .msg a t = memRead .msg a s)
    ∧ t.msgLen = data.length + 5
    ∧ t.resp = some (okResponse [BitVec.ofNat 8 (data.length + 5)])
    ∧ t = { s with msg := t.msg, msgLen := t.msgLen, resp := t.resp }

/-- What R150 and R151 say of an `UNPACK_*` command of a shape, from every state: it completes with `OK` and the result
bytes `PL:0 .. PL:D`, and nothing else changes; read as typed values the result is the given code and fields. -/
def UnpacksTo (i : Instr) (sh : Shape) (d : Nat) (fields : (Nat → Byte) → List FieldValue) : Prop :=
  ∀ s : State, exec i s = .next { s with resp := some (okResponse (memReadN .pl 0 (1 + d) s)) }
    ∧ typedResult sh (memReadN .pl 0 (1 + d) s) = (memRead .pl 0 s, fields fun p => memRead .pl p s)

/-- The number of result bytes a command's response carries when its status is `OK` (R80, column "result bytes on OK"). -/
def resultSize : Instr → Nat
  | .isfull | .isempty | .pop | .top | .index _ | .pld _ | .msglen | .msgrd _ => 1
  | .size => 2
  | .push _ | .insert _ | .feed _ | .extract => 0
  | .packB1 _ _ | .packB2 _ _ _ | .packB3 _ _ _ _ => 1
  | .packI1 _ _ | .packI2 _ _ _ | .packI3 _ _ _ _ | .packI7 _ _ _ _ _ _ _ _ => 1
  | .packF1 _ _ | .packF2 _ _ _ | .packF3 _ _ _ _ | .packF4 _ _ _ _ _ => 1
  | .packF6 _ _ _ _ _ _ _ | .packF8 _ _ _ _ _ _ _ _ _ => 1
  | .packB1F3 _ _ _ _ _ | .packB2F1 _ _ _ _ => 1
  | .unpackB1 => 2
  | .unpackB2 | .unpackI1 => 3
  | .unpackB3 => 4
  | .unpackI2 | .unpackF1 => 5
  | .unpackI3 | .unpackB2F1 => 7
  | .unpackF2 => 9
  | .unpackF3 => 13
  | .unpackB1F3 => 14
  | .unpackI7 => 15
  | .unpackF4 => 17
  | .unpackF6 => 25
  | .unpackF8 => 33

/-- A byte with bit `j` flipped (R123). -/
def flipBit (b : Byte) (j : Nat) : Byte := b ^^^ (1#8 <<< j)

/-! ## The block on `Q` alone (R16, R101, R120) -/

/-- What `EXTRACT` does to the logical contents (R120): the status, the contents left, and the payload written to `PL`
from index 0 on, if step 7 is reached. -/
structure Extraction where
  status : Status
  rest : List Byte
  payload : Option (List Byte)
deriving DecidableEq, Repr

/-- Steps 3 to 9 on the contents that step 2 leaves (R120). -/
def extractCandidate (emDrop : Bool) (em : Byte) (q : List Byte) : Extraction :=
  match q with
  | [] => { status := .incomplete, rest := [], payload := none }
  | [m] => { status := .incomplete, rest := [m], payload := none }
  | m :: len :: body =>
    if body.length < len.toNat + 2 then { status := .incomplete, rest := q, payload := none }
    else if body.getD len.toNat 0 ≠ em then
      { status := .endMismatch, rest := if emDrop then len :: body else m :: len :: body, payload := none }
    else if crc8 (body.take len.toNat) ≠ body.getD (len.toNat + 1) 0 then
      { status := .crcFail, rest := len :: body, payload := some (body.take len.toNat) }
    else { status := .ok, rest := body.drop (len.toNat + 2), payload := some (body.take len.toNat) }

/-- `EXTRACT` on the logical contents (R120). -/
def extractLogical (emDrop : Bool) (sm em : Byte) (q : List Byte) : Extraction :=
  match q with
  | [] => { status := .noData, rest := [], payload := none }
  | _ :: _ => extractCandidate emDrop em (fromFirst sm q)

/-- The block without `head`, `tail` and physical indexes (R16, R39): the logical contents, the 255 bytes of `PL`, and the
readable bytes of `MSG`. -/
structure Block where
  cap : Nat
  emDrop : Bool
  sm : Byte
  em : Byte
  q : List Byte
  pl : List Byte
  msg : List Byte
deriving DecidableEq, Repr

/-- What a state of the model looks like as such a block. -/
def toBlock (s : State) : Block :=
  { cap := s.cap, emDrop := s.emDrop, sm := s.sm, em := s.em, q := logical s,
    pl := memReadN .pl 0 Config.pmax s, msg := memReadN .msg 0 s.msgLen s }

/-- `PUSH` and its repetitions on `Q`: the last `min(CAP, |Q| + n)` elements of `Q ++ bytes` (R101). -/
def Block.pushAll (bytes : List Byte) (b : Block) : Block :=
  { b with q := lastN (min b.cap (b.q.length + bytes.length)) (b.q ++ bytes) }

/-- A payload written to `PL` from index 0 on (R116). -/
def Block.storePayload (payload : Option (List Byte)) (b : Block) : Block :=
  match payload with
  | none => b
  | some p => { b with pl := p ++ b.pl.drop p.length }

/-- `EXTRACT` on the block (R120). -/
def Block.extract (b : Block) : Response × Block :=
  ({ status := (extractLogical b.emDrop b.sm b.em b.q).status, result := [] },
    { b.storePayload (extractLogical b.emDrop b.sm b.em b.q).payload with
      q := (extractLogical b.emDrop b.sm b.em b.q).rest })

/-- A byte at an index below a bound, or the status `RANGE` (R98, R121, R143). -/
def Block.readAt (bytes : List Byte) (k : Nat) : Response :=
  match bytes[k]? with
  | some v => okResponse [v]
  | none => failResponse .range

/-- `build_frame` on the block (R125, R126): the message becomes the frame, the response is its length. -/
def Block.pack (code : Byte) (data : List Byte) (b : Block) : Response × Block :=
  (okResponse [BitVec.ofNat 8 (data.length + 5)],
    { b with msg := [b.sm, BitVec.ofNat 8 (1 + data.length), code] ++ data ++ [b.em, crc8 (code :: data)] })

/-- The commands that neither pack nor unpack, on the block (R101, R120, R121, R142, R143). -/
def Block.execPlain (i : Instr) (b : Block) : Response × Block :=
  match i with
  | .isfull => (okResponse [if b.q.length = b.cap then 1 else 0], b)
  | .isempty => (okResponse [if b.q = [] then 1 else 0], b)
  | .size => (okResponse [BitVec.ofNat 8 b.q.length, BitVec.ofNat 8 (b.q.length / 256)], b)
  | .push v => (okResponse [], b.pushAll [v])
  | .pop =>
    match b.q with
    | [] => (failResponse .empty, b)
    | v :: q => (okResponse [v], { b with q := q })
  | .top =>
    match b.q with
    | [] => (failResponse .empty, b)
    | v :: _ => (okResponse [v], b)
  | .insert bytes => (okResponse [], b.pushAll bytes)
  | .index k => (Block.readAt b.q k.toNat, b)
  | .feed bytes => (okResponse [], b.pushAll bytes)
  | .extract => b.extract
  | .pld k => (Block.readAt b.pl k.toNat, b)
  | .msglen => (okResponse [BitVec.ofNat 8 b.msg.length], b)
  | .msgrd k => (Block.readAt b.msg k.toNat, b)
  | .packB1 _ _ | .packB2 _ _ _ | .packB3 _ _ _ _ => (okResponse [], b)
  | .packI1 _ _ | .packI2 _ _ _ | .packI3 _ _ _ _ | .packI7 _ _ _ _ _ _ _ _ => (okResponse [], b)
  | .packF1 _ _ | .packF2 _ _ _ | .packF3 _ _ _ _ | .packF4 _ _ _ _ _ => (okResponse [], b)
  | .packF6 _ _ _ _ _ _ _ | .packF8 _ _ _ _ _ _ _ _ _ => (okResponse [], b)
  | .packB1F3 _ _ _ _ _ | .packB2F1 _ _ _ _ => (okResponse [], b)
  | .unpackB1 | .unpackB2 | .unpackB3 | .unpackI1 | .unpackI2 | .unpackI3 | .unpackI7 => (okResponse [], b)
  | .unpackF1 | .unpackF2 | .unpackF3 | .unpackF4 | .unpackF6 | .unpackF8 => (okResponse [], b)
  | .unpackB1F3 | .unpackB2F1 => (okResponse [], b)

/-- One command on the block: a `PACK_*` (R125), an `UNPACK_*` (R150), or another command. -/
def Block.exec (i : Instr) (b : Block) : Response × Block :=
  match packOf i with
  | some x => b.pack x.2.1 (dataBytes x.2.2)
  | none =>
    match unpackOf i with
    | some sh => (okResponse (b.pl.take (1 + sh.dataSize)), b)
    | none => Block.execPlain i b

end Sys2Proof.Machine
end

