-- ==== Sys2Proof/Certificates/Slice0/Obligations.lean ====
section
/-! DEFINITION. The statements for the provers, from the numbered rules of spec/. Each is about every state and every
operand; where a statement could fail only in a state no run reaches it assumes the part of the invariant that rules that
state out (`RingInv`, `StateLegal`), and that invariant is a statement of its own. -/

open Sys2Proof Sys2Proof.Machine

/-! ## Reset, configuration, invariants -/

/-- R41, R191: a reset leaves `count`, `head`, `tail` and `msg_len` at 0 and the markers at the values on the configuration
inputs, 0x41 and 0x23 for the default instance; no byte of `MSG` is readable until the first pack; `CAP` keeps its value.
The model's own form: the capacity of `State.reset`, of which nothing is said (assumption 1); `EM_DROP` as a field, which a
reset keeps (assumption 2); the reset event taken from `port` (assumption 4); the response in `resp` (assumption 5). -/
def Obligations.ResetLoadsTheSpecValues : Prop :=
  (∀ (s : State) (cs ce : Byte) (rest : List Input), ∃ t : State,
    step { s with port := .reset cs ce :: rest } = .next t
      ∧ t.count = 0 ∧ t.head = 0 ∧ t.tail = 0 ∧ t.msgLen = 0 ∧ t.sm = cs ∧ t.em = ce ∧ logical t = []
      ∧ t.cap = s.cap ∧ t.emDrop = s.emDrop ∧ t.port = rest
      ∧ ∀ k, exec (.msgrd k) t = .next { t with resp := some (failResponse .range) })
  ∧ (∀ (cap : Nat) (drop : Bool) (cs ce : Byte), ∃ t : State, t = State.resetWith cap drop cs ce
      ∧ t.count = 0 ∧ t.head = 0 ∧ t.tail = 0 ∧ t.msgLen = 0 ∧ t.sm = cs ∧ t.em = ce ∧ logical t = []
      ∧ ∀ k, exec (.msgrd k) t = .next { t with resp := some (failResponse .range) })
  ∧ State.reset.count = 0 ∧ State.reset.head = 0 ∧ State.reset.tail = 0 ∧ State.reset.msgLen = 0
  ∧ State.reset.sm = 0x41 ∧ State.reset.em = 0x23

/-- R42: after a reset every byte of every array is the free value of a draw of that reset, and no command changes a byte
without writing it: a byte that is unwritten after a command was unwritten before it and reads as before. The form of the
free value is the model's (assumption 3). -/
def Obligations.UnwrittenBytesKeepTheirDraw : Prop :=
  (∀ (s : State) (cs ce : Byte) (rest : List Input), ∃ t : State,
    step { s with port := .reset cs ce :: rest } = .next t
      ∧ ∀ x a, memRead x a t = Config.unwritten x (s.draw + 1) a)
  ∧ ∀ (i : Instr) (s t : State) (x : Space) (a : Nat), exec i s = .next t → Mem.lookup (cells x t) a = none →
      Mem.lookup (cells x s) a = none ∧ memRead x a t = memRead x a s

/-- The state after the first reset of an instance with a legal capacity is a legal state, whatever its parameters. -/
def Obligations.ResetStateIsLegal : Prop :=
  ∀ (cap : Nat) (drop : Bool) (cs ce : Byte), 1 ≤ cap → cap ≤ 65535 → StateLegal (State.resetWith cap drop cs ce)

/-- Every step from a legal state leads to a legal state: the ring registers stay consistent, `msg_len` stays a legal
value, the arrays stay in canonical form inside their sizes, every byte a command may read from the ring or the message
has been written, and a response that is not `OK` has no result bytes. The list form of the arrays is the model's
(assumption 3). -/
def Obligations.EveryStepKeepsTheStateLegal : Prop :=
  ∀ s t : State, StateLegal s → step s = .next t → StateLegal t

/-- R27: the invariants (a), (b), (c) of the ring registers hold after reset and every command keeps them; when the ring is
full, `tail = head`. -/
def Obligations.RingRegistersStayConsistent : Prop :=
  (∀ (cap : Nat) (drop : Bool) (cs ce : Byte), 1 ≤ cap → RingInv (State.resetWith cap drop cs ce))
  ∧ (∀ (i : Instr) (s t : State), RingInv s → exec i s = .next t → RingInv t)
  ∧ ∀ s : State, RingInv s → s.count = s.cap → s.tail = s.head

/-- R170: no status stops the block: from every state the next step leads to a next state, and every command completes with
a response. -/
def Obligations.NothingStopsTheBlock : Prop :=
  (∀ s : State, ∃ t : State, step s = .next t)
  ∧ ∀ (i : Instr) (s : State), ∃ (t : State) (r : Response), exec i s = .next t ∧ t.resp = some r

/-- R25: `msg_len` is written only by the `PACK_*` commands, each of which sets it to `LEN + 4` of its frame, between 6 and
37, and returns it; `MSGLEN` returns it; it is 0 after reset. -/
def Obligations.OnlyPackWritesTheMessageLength : Prop :=
  (∀ (i : Instr) (s t : State), exec i s = .next t → packOf i = none → t.msgLen = s.msgLen)
  ∧ (∀ (i : Instr) (sh : Shape) (code : Byte) (fields : List FieldValue), packOf i = some (sh, code, fields) →
      ∀ s : State, ∃ t : State, exec i s = .next t ∧ t.msgLen = sh.len + 4 ∧ 6 ≤ t.msgLen ∧ t.msgLen ≤ 37
        ∧ t.resp = some (okResponse [BitVec.ofNat 8 t.msgLen]))
  ∧ (∀ s : State, exec .msglen s = .next { s with resp := some (okResponse [BitVec.ofNat 8 s.msgLen]) })
  ∧ ∀ (cap : Nat) (drop : Bool) (cs ce : Byte), (State.resetWith cap drop cs ce).msgLen = 0

/-- R191: `CAP` never changes (nor does the parameter `EM_DROP`, assumption 2); `SM` and `EM` change only in a reset, which loads them
from the configuration inputs. -/
def Obligations.OnlyResetLoadsTheMarkers : Prop :=
  ∀ s t : State, step s = .next t →
    t.cap = s.cap ∧ t.emDrop = s.emDrop
    ∧ (∀ cs ce rest, s.port = .reset cs ce :: rest → t.sm = cs ∧ t.em = ce)
    ∧ ((∀ cs ce rest, s.port ≠ .reset cs ce :: rest) → t.sm = s.sm ∧ t.em = s.em)

/-! ## The command port -/

/-- Decoding the encoding of a well-formed instruction gives it back, with every operand at every value. -/
def Obligations.DecodeInvertsEncode : Prop :=
  ∀ i : Instr, i.wf = true → decode (encode i) = .ok i

/-- Every byte string that decodes is the encoding of what it decodes to: each command has one byte string. -/
def Obligations.EncodeInvertsDecode : Prop :=
  ∀ (c : List Byte) (i : Instr), decode c = .ok i → i.wf = true ∧ encode i = c

/-- Some of the spec's own byte strings decode to the commands the spec says they are. -/
def Obligations.SpecWordsDecode : Prop :=
  decode [0x04, 0x41] = .ok (.push 0x41)
  ∧ decode [0x07, 0x06, 0x00, 0x41, 0x02, 0x05, 0xC8, 0x23, 0xF7]
      = .ok (.insert [0x41, 0x02, 0x05, 0xC8, 0x23, 0xF7])
  ∧ decode [0x08, 0x2C, 0x01] = .ok (.index 300)
  ∧ decode [0x11] = .ok .extract
  ∧ decode [0x24, 0x11, 0xFF, 0x7F, 0xFF, 0xFF] = .ok (.packI2 17 32767 (-1))
  ∧ decode [0x27, 0x20, 0x00, 0x00, 0x80, 0x3F] = .ok (.packF1 32 0x3F800000)
  ∧ decode [0x2E, 0x31, 0x41, 0x23, 0x00, 0x00, 0x20, 0x40] = .ok (.packB2F1 49 0x41 0x23 0x40200000)
  ∧ decode [0x4E] = .ok .unpackB2F1

/-- R81: exactly the listed values of `C[0]` are illegal opcodes, and a command with one changes no state and gets the
response `ILLEGAL` with no result bytes. A command is presented at the model's `port` and its response is the model's
`resp` (assumptions 4 and 5). -/
def Obligations.UnlistedOpcodesAreIllegal : Prop :=
  (∀ op : Byte, Op.ofByte op = none ↔
    op.toNat = 0x00 ∨ (0x09 ≤ op.toNat ∧ op.toNat ≤ 0x0F) ∨ (0x15 ≤ op.toNat ∧ op.toNat ≤ 0x1F)
      ∨ op.toNat = 0x2F ∨ (0x30 ≤ op.toNat ∧ op.toNat ≤ 0x3F) ∨ op.toNat = 0x4F ∨ 0x50 ≤ op.toNat)
  ∧ ∀ (s : State) (op : Byte) (operands : List Byte) (rest : List Input), Op.ofByte op = none →
      step { s with port := .command op operands :: rest }
        = .next { s with port := rest, resp := some (failResponse .illegal) }

/-- R82: a command whose length is not the one its opcode asks for changes no state and gets `ILLEGAL`; one of the right
length is a command, whatever its operand values. The port and the response field are the model's form (assumptions 4
and 5). -/
def Obligations.WrongLengthsAreIllegal : Prop :=
  ∀ (s : State) (op : Byte) (operands : List Byte) (rest : List Input) (o : Op), Op.ofByte op = some o →
    ((op :: operands).length ≠ o.length (halfAt (op :: operands) 1).toNat →
      step { s with port := .command op operands :: rest }
        = .next { s with port := rest, resp := some (failResponse .illegal) })
    ∧ ((op :: operands).length = o.length (halfAt (op :: operands) 1).toNat →
      ∃ i : Instr, i.wf = true ∧ decode (op :: operands) = .ok i
        ∧ step { s with port := .command op operands :: rest } = exec i { s with port := rest })

/-- When the command presented next decodes to an instruction, the step takes it from the port (the model's form of the
command port, assumption 4) and is `exec` of it. -/
def Obligations.StepRunsTheDecodedCommand : Prop :=
  ∀ (s : State) (op : Byte) (operands : List Byte) (rest : List Input) (i : Instr),
    s.port = .command op operands :: rest → decode (op :: operands) = .ok i →
      step s = exec i { s with port := rest }

/-- R188: with no input presented (the model's port is empty, assumption 4) the block is idle and its state does not
change. -/
def Obligations.IdleBlockDoesNotChange : Prop :=
  ∀ s : State, s.port = [] → step s = .next s

/-- R78, R79, R80: every command produces exactly one response; with status `OK` it carries the number of result bytes its
row gives, with any other status none; the response's bytes are the status code and the result. -/
def Obligations.ResponsesHaveTheirFormat : Prop :=
  (∀ (i : Instr) (s : State), ∃ (t : State) (r : Response), exec i s = .next t ∧ t.resp = some r
      ∧ r.result.length = (if r.status = .ok then resultSize i else 0)
      ∧ r.bytes = r.status.code :: r.result)
  ∧ [Status.ok, .empty, .range, .noData, .incomplete, .endMismatch, .crcFail, .illegal].map Status.code
      = [0x00, 0x01, 0x02, 0x10, 0x11, 0x12, 0x13, 0xFF]

/-- R171: which commands answer which failure status, exactly when, and what the failure changes. `EMPTY`, `RANGE` and
`NO_DATA` leave the state alone. With consistent ring registers, `q` the contents step 2 of `EXTRACT` leaves and `p` the
`payload_size` read from them, the conditions of `INCOMPLETE` (steps 3 and 5), `END_MISMATCH` (step 6) and `CRC_FAIL`
(step 8) are the rule's, and so is what each leaves of the ring and of `PL`. No decoded command answers `ILLEGAL`. -/
def Obligations.FailureStatusesExactlyWhen : Prop :=
  ∀ (i : Instr) (s : State), ∃ (t : State) (r : Response), exec i s = .next t ∧ t.resp = some r
    ∧ (r.status = .empty ↔ (i = .pop ∨ i = .top) ∧ s.count = 0)
    ∧ (r.status = .range ↔ (∃ k, i = .index k ∧ s.count ≤ k.toNat) ∨ (∃ k, i = .pld k ∧ 255 ≤ k.toNat)
        ∨ ∃ k, i = .msgrd k ∧ s.msgLen ≤ k.toNat)
    ∧ (r.status = .noData ↔ i = .extract ∧ s.count = 0)
    ∧ (r.status = .incomplete ∨ r.status = .endMismatch ∨ r.status = .crcFail → i = .extract ∧ s.count ≠ 0)
    ∧ r.status ≠ .illegal
    ∧ (r.status = .empty ∨ r.status = .range ∨ r.status = .noData → t = { s with resp := some r })
    ∧ (RingInv s → ∀ (q : List Byte) (p : Nat), q = fromFirst s.sm (logical s) → p = (q.getD 1 0).toNat →
        (r.status = .incomplete ↔ i = .extract ∧ s.count ≠ 0 ∧ (q.length < 2 ∨ q.length < p + 4))
        ∧ (r.status = .endMismatch ↔ i = .extract ∧ p + 4 ≤ q.length ∧ q.getD (p + 2) 0 ≠ s.em)
        ∧ (r.status = .crcFail ↔ i = .extract ∧ p + 4 ≤ q.length ∧ q.getD (p + 2) 0 = s.em
            ∧ crc8 ((q.drop 2).take p) ≠ q.getD (p + 3) 0)
        ∧ (r.status = .incomplete → logical t = q ∧ t.pl = s.pl)
        ∧ (r.status = .endMismatch → logical t = (if s.emDrop then q.drop 1 else q) ∧ t.pl = s.pl)
        ∧ (r.status = .crcFail → logical t = q.drop 1 ∧ memReadN .pl 0 p t = (q.drop 2).take p
            ∧ ∀ a, p ≤ a → memRead .pl a t = memRead .pl a s))

/-- R34: the frame of every command: the state it may write, and that everything else is unchanged. `INSERT`, `FEED` and
`PUSH` write the slots from `tail` on, `PACK_*` the frame's bytes of `MSG`; `EXTRACT`'s bytes of `PL` have a statement of
their own (`StepSevenOverwritesThePayload`). -/
def Obligations.CommandsWriteOnlyTheirState : Prop :=
  (∀ (i : Instr) (s t : State), exec i s = .next t →
    (i = .isfull ∨ i = .isempty ∨ i = .size ∨ i = .top ∨ (∃ k, i = .index k) ∨ (∃ k, i = .pld k) ∨ i = .msglen
      ∨ (∃ k, i = .msgrd k) ∨ (unpackOf i).isSome = true) → t = { s with resp := t.resp })
  ∧ (∀ (i : Instr) (bytes : List Byte) (s t : State), exec i s = .next t →
      (i = .insert bytes ∨ i = .feed bytes ∨ ∃ b, i = .push b ∧ bytes = [b]) →
        t = { s with head := t.head, tail := t.tail, count := t.count, st := t.st, resp := t.resp }
        ∧ ∀ a, s.tail < s.cap → (∀ k < bytes.length, a ≠ (s.tail + k) % s.cap) →
            memRead .st a t = memRead .st a s)
  ∧ (∀ s t : State, exec .pop s = .next t → t = { s with head := t.head, count := t.count, resp := t.resp })
  ∧ (∀ s t : State, exec .extract s = .next t →
      t = { s with head := t.head, count := t.count, pl := t.pl, resp := t.resp })
  ∧ ∀ (i : Instr) (sh : Shape) (code : Byte) (fields : List FieldValue) (s t : State),
      packOf i = some (sh, code, fields) → exec i s = .next t →
        t = { s with msg := t.msg, msgLen := t.msgLen, resp := t.resp }
        ∧ ∀ a, sh.len + 4 ≤ a → memRead .msg a t = memRead .msg a s

/-! ## Ring Buffer commands -/

/-- R91, R92, R93: `ISFULL`, `ISEMPTY` and `SIZE`, from every state, with their encodings. -/
def Obligations.RingPredicatesReportTheCount : Prop :=
  encode .isfull = [0x01] ∧ encode .isempty = [0x02] ∧ encode .size = [0x03]
  ∧ ∀ s : State,
    exec .isfull s = .next { s with resp := some (okResponse [if s.count = s.cap then 1 else 0]) }
    ∧ exec .isempty s = .next { s with resp := some (okResponse [if s.count = 0 then 1 else 0]) }
    ∧ exec .size s
        = .next { s with resp := some (okResponse [BitVec.ofNat 8 s.count, BitVec.ofNat 8 (s.count / 256)]) }
    ∧ (logical s).length = s.count ∧ (RingInv s → s.count ≤ s.cap)

/-- R94: `PUSH` writes at `tail`, advances it, evicts the oldest byte of a full ring and counts one more otherwise; the
rest of the state is unchanged, and `Q` becomes the last `min(CAP, |Q| + 1)` elements of `Q ++ [b]`. -/
def Obligations.PushAppendsOrEvicts : Prop :=
  ∀ b : Byte, encode (.push b) = [0x04, b]
  ∧ ∀ s : State, ∃ t : State, exec (.push b) s = .next t
      ∧ memRead .st s.tail t = b ∧ (∀ a, a ≠ s.tail → memRead .st a t = memRead .st a s)
      ∧ t.tail = (s.tail + 1) % s.cap
      ∧ (s.count = s.cap → t.head = (s.head + 1) % s.cap ∧ t.count = s.count)
      ∧ (s.count ≠ s.cap → t.head = s.head ∧ t.count = s.count + 1)
      ∧ t = { s with st := t.st, tail := t.tail, head := t.head, count := t.count, resp := some (okResponse []) }
      ∧ (RingInv s →
          logical t = (if s.count < s.cap then logical s ++ [b] else (logical s).tail ++ [b])
          ∧ logical t = lastN (min s.cap ((logical s).length + 1)) (logical s ++ [b]))

/-- R95: `POP` answers `EMPTY` on an empty ring and changes nothing; else it returns the oldest byte and removes it. -/
def Obligations.PopReturnsTheOldestByte : Prop :=
  encode .pop = [0x05]
  ∧ (∀ s : State, s.count = 0 → exec .pop s = .next { s with resp := some (failResponse .empty) })
  ∧ (∀ s : State, s.count ≠ 0 →
      exec .pop s = .next { s with
        head := (s.head + 1) % s.cap, count := s.count - 1,
        resp := some (okResponse [memRead .st s.head s]) })
  ∧ ∀ s : State, s.count ≠ 0 → RingInv s → ∃ t : State, exec .pop s = .next t
      ∧ logical s = memRead .st s.head s :: logical t

/-- R96: `TOP` answers `EMPTY` on an empty ring, else the oldest byte, the first element of `Q`; it changes nothing. -/
def Obligations.TopReportsTheOldestByte : Prop :=
  encode .top = [0x06]
  ∧ (∀ s : State, s.count = 0 → exec .top s = .next { s with resp := some (failResponse .empty) })
  ∧ (∀ s : State, s.count ≠ 0 →
      exec .top s = .next { s with resp := some (okResponse [memRead .st s.head s]) })
  ∧ (∀ s : State, s.count ≠ 0 → RingInv s →
      (logical s).head? = some (memRead .st s.head s) ∧ exec .top s = exec (.index 0) s)
  ∧ ∀ s : State, s.count = 0 → exec (.index 0) s = .next { s with resp := some (failResponse .range) }

/-- R97: `INSERT` performs the body of `PUSH` for each byte in order and answers `OK`; `n = 0` changes nothing, one byte is
`PUSH`, and `Q` becomes the last `min(CAP, |Q| + n)` elements of `Q ++ bytes`. -/
def Obligations.InsertIsRepeatedPush : Prop :=
  (∀ bytes : List Byte, encode (.insert bytes)
      = 0x07 :: BitVec.ofNat 8 bytes.length :: BitVec.ofNat 8 (bytes.length / 256) :: bytes)
  ∧ (∀ s : State, exec (.insert []) s = .next { s with resp := some (okResponse []) })
  ∧ (∀ (b : Byte) (bytes : List Byte) (s : State), ∃ t : State, exec (.push b) s = .next t
      ∧ exec (.insert (b :: bytes)) s = exec (.insert bytes) t)
  ∧ (∀ (b : Byte) (s : State), exec (.insert [b]) s = exec (.push b) s)
  ∧ ∀ (bytes : List Byte) (s : State), ∃ t : State, exec (.insert bytes) s = .next t
      ∧ t.resp = some (okResponse [])
      ∧ (RingInv s →
          logical t = lastN (min s.cap ((logical s).length + bytes.length)) (logical s ++ bytes)
          ∧ (s.cap ≤ bytes.length → logical t = lastN s.cap bytes)
          ∧ ((logical s).length + bytes.length ≤ s.cap → logical t = logical s ++ bytes))

/-- R98: `INDEX i` answers `RANGE` when `i >= count`, else the byte at logical index `i`, the element of `Q` at position
`i`; it changes nothing. -/
def Obligations.IndexReadsTheLogicalByte : Prop :=
  (∀ lo hi : Byte, encode (.index (half lo hi)) = [0x08, lo, hi])
  ∧ (∀ (k : Half) (s : State), s.count ≤ k.toNat →
      exec (.index k) s = .next { s with resp := some (failResponse .range) })
  ∧ ∀ (k : Half) (s : State), k.toNat < s.count →
      exec (.index k) s
        = .next { s with resp := some (okResponse [memRead .st ((s.head + k.toNat) % s.cap) s]) }
      ∧ (logical s)[k.toNat]? = some (memRead .st ((s.head + k.toNat) % s.cap) s)

/-- R99: pushing at most `CAP` bytes into an empty ring, `SIZE` gives their number and as many `POP`s give them in push
order; a further `POP` answers `EMPTY`. -/
def Obligations.RingIsFifo : Prop :=
  ∀ (bytes : List Byte) (s : State), CapLegal s → RingInv s → logical s = [] → bytes.length ≤ s.cap →
    ∃ t : State,
      runAll (bytes.map .push ++ .size :: (List.replicate bytes.length .pop ++ [.pop])) s
        = some (bytes.map (fun _ => okResponse [])
            ++ okResponse [BitVec.ofNat 8 bytes.length, BitVec.ofNat 8 (bytes.length / 256)]
            :: (bytes.map (fun b => okResponse [b]) ++ [failResponse .empty]), t)

/-- R100: pushing more than `CAP` bytes into an empty ring, every push answers `OK`, `SIZE` gives `CAP`, and `INDEX 0 ..
CAP-1` give exactly the last `CAP` bytes in order. -/
def Obligations.OverflowKeepsTheLastBytes : Prop :=
  ∀ (bytes : List Byte) (s : State), CapLegal s → RingInv s → logical s = [] → s.cap < bytes.length →
    ∃ t : State,
      runAll (bytes.map .push ++ .size :: (List.range s.cap).map fun i => .index (BitVec.ofNat 16 i)) s
        = some (bytes.map (fun _ => okResponse [])
            ++ okResponse [BitVec.ofNat 8 s.cap, BitVec.ofNat 8 (s.cap / 256)]
            :: (bytes.drop (bytes.length - s.cap)).map fun b => okResponse [b], t)

/-- R101, R120, R16: the model built on `Q` alone is exact: from every legal state each command gives the response and the
logical contents, payload scratch and message that the model on `Q` gives. -/
def Obligations.LogicalModelIsExact : Prop :=
  ∀ (i : Instr) (s : State), StateLegal s → ∃ (t : State) (r : Response),
    exec i s = .next t ∧ t.resp = some r ∧ Block.exec i (toBlock s) = (r, toBlock t)

/-- R39: `head`, `tail` and every physical index are unobservable: two states with the same `Q`, `PL`, `MSG`, `msg_len`,
`SM` and `EM` answer every sequence of commands identically. -/
def Obligations.PhysicalIndexesAreUnobservable : Prop :=
  ∀ s t : State, RingInv s → RingInv t → ObsEq s t → ∀ is : List Instr,
    ∃ (rs : List Response) (s' t' : State), runAll is s = some (rs, s') ∧ runAll is t = some (rs, t') ∧ ObsEq s' t'

/-- R58, R54: a command sees the writes of the one before it: a byte just pushed is the last element of `Q` and `INDEX`
reads it; a message just packed is what `MSGRD` reads; a command that only reads, and a `PACK_*` with the same operands,
issued twice leaves the same state and response as issued once. -/
def Obligations.CommandsSeeEarlierWrites : Prop :=
  (∀ (b : Byte) (s : State), CapLegal s → RingInv s → ∃ t : State, exec (.push b) s = .next t
      ∧ exec (.index (BitVec.ofNat 16 (t.count - 1))) t = .next { t with resp := some (okResponse [b]) }
      ∧ t.count ≠ 0)
  ∧ (∀ (i : Instr) (sh : Shape) (code : Byte) (fields : List FieldValue) (s t : State) (k : Byte),
      packOf i = some (sh, code, fields) → exec i s = .next t → k.toNat < sh.len + 4 →
        exec (.msgrd k) t
          = .next { t with resp := some (okResponse
              [(wireFrame s.sm s.em (code :: dataBytes fields)).getD k.toNat 0]) })
  ∧ (∀ (i : Instr) (s t : State), exec i s = .next t →
      (i = .isfull ∨ i = .isempty ∨ i = .size ∨ i = .top ∨ (∃ k, i = .index k) ∨ (∃ k, i = .pld k) ∨ i = .msglen
        ∨ (∃ k, i = .msgrd k) ∨ (unpackOf i).isSome = true) → exec i t = .next t)
  ∧ ∀ (i : Instr) (x : Shape × Byte × List FieldValue) (s t : State), packOf i = some x → ArraysCanonical s →
      exec i s = .next t → exec i t = .next t

/-! ## The checksum -/

/-- R105: the checksum's procedure, iteration by iteration and byte by byte from the seed 0, and the worked trace of the
bytes `05 C8`. -/
def Obligations.ChecksumFollowsItsProcedure : Prop :=
  (∀ crc d : Byte, crcBit crc d
      = (if (crc.toNat + d.toNat) % 2 = 1 then BitVec.ofNat 8 (crc.toNat / 2) ^^^ 0x8C
          else BitVec.ofNat 8 (crc.toNat / 2)))
  ∧ (∀ crc d : Byte, crcByte crc d
      = (List.range 8).foldl (fun c j => crcBit c (BitVec.ofNat 8 (d.toNat / 2 ^ j))) crc)
  ∧ crc8 [] = 0x00 ∧ (∀ (m : List Byte) (d : Byte), crc8 (m ++ [d]) = crcByte (crc8 m) d)
  ∧ (List.range 8).map (fun n => crcIter (n + 1) 0x00 0x05) = [0x8C, 0x46, 0xAF, 0xDB, 0xE1, 0xFC, 0x7E, 0x3F]
  ∧ (List.range 8).map (fun n => crcIter (n + 1) 0x3F 0xC8) = [0x93, 0xC5, 0xEE, 0xFB, 0xF1, 0xF4, 0xF6, 0xF7]
  ∧ crc8 [0x05, 0xC8] = 0xF7

/-- R106: (a) the empty sequence gives 0; (b) leading zero bytes are not protected; (c) a sequence followed by its own
checksum gives 0; (d) the single-byte values; (e) linearity, the zero-bit iteration is a bijection that takes no non-zero
value to zero, and flipping any single bit changes the result; (f) the catalogued check value. -/
def Obligations.ChecksumFacts : Prop :=
  crc8 [] = 0x00
  ∧ (∀ (n : Nat) (m : List Byte), crc8 (List.replicate n 0x00) = 0x00 ∧ crc8 (List.replicate n 0x00 ++ m) = crc8 m)
  ∧ (∀ m : List Byte, crc8 (m ++ [crc8 m]) = 0x00)
  ∧ (crc8 [0x00] = 0x00 ∧ crc8 [0x01] = 0x5E ∧ crc8 [0x02] = 0xBC ∧ crc8 [0x80] = 0x8C ∧ crc8 [0xFF] = 0x35)
  ∧ (∀ a b : List Byte, a.length = b.length → crc8 (List.zipWith (· ^^^ ·) a b) = crc8 a ^^^ crc8 b)
  ∧ Function.Bijective (fun c : Byte => crcBit c 0x00)
  ∧ (∀ c : Byte, crcBit c 0x00 = (c >>> 1) ^^^ (if c.getLsbD 0 then 0x8C else 0x00))
  ∧ (∀ c : Byte, c ≠ 0x00 → crcBit c 0x00 ≠ 0x00)
  ∧ (∀ (m : List Byte) (k j : Nat) (h : k < m.length), j < 8 → crc8 (m.set k (flipBit m[k] j)) ≠ crc8 m)
  ∧ crc8 [0x31, 0x32, 0x33, 0x34, 0x35, 0x36, 0x37, 0x38, 0x39] = 0xA1

/-! ## Ingest path -/

/-- R107: `DROP(n)` with `n <= count` equals `n` successive `POP`s with the results thrown away; it removes the first `n`
elements of `Q` and leaves `tail` and `ST` unchanged. -/
def Obligations.DropIsRepeatedPop : Prop :=
  ∀ (n : Nat) (s : State), RingInv s → n ≤ s.count →
    (dropBytes n s).head = (s.head + n) % s.cap ∧ (dropBytes n s).count = s.count - n
    ∧ (∃ (rs : List Response) (t : State), runAll (List.replicate n .pop) s = some (rs, t)
        ∧ dropBytes n s = { t with resp := s.resp })
    ∧ logical (dropBytes n s) = (logical s).drop n
    ∧ (dropBytes n s).tail = s.tail ∧ (dropBytes n s).st = s.st

/-- R108: `FEED` has the effect of `INSERT` on every state: the same pushes, `OK` always, `PL` untouched. -/
def Obligations.FeedAppendsLikeInsert : Prop :=
  (∀ bytes : List Byte, encode (.feed bytes)
      = 0x10 :: BitVec.ofNat 8 bytes.length :: BitVec.ofNat 8 (bytes.length / 256) :: bytes)
  ∧ (∀ (bytes : List Byte) (s : State), exec (.feed bytes) s = exec (.insert bytes) s)
  ∧ (∀ s : State, exec (.feed []) s = .next { s with resp := some (okResponse []) })
  ∧ ∀ (bytes : List Byte) (s : State), ∃ t : State, exec (.feed bytes) s = .next t
      ∧ t.resp = some (okResponse []) ∧ t.pl = s.pl
      ∧ (RingInv s →
          logical t = lastN (min s.cap ((logical s).length + bytes.length)) (logical s ++ bytes))

/-- R120: `EXTRACT` from every state with consistent ring registers completes, and its status, the logical contents it
leaves and the payload it writes to `PL` are those of the algorithm on `Q`; it changes nothing else. -/
def Obligations.ExtractFollowsTheLogicalAlgorithm : Prop :=
  encode .extract = [0x11]
  ∧ ∀ s : State, RingInv s → ∃ (t : State) (e : Extraction), exec .extract s = .next t
    ∧ e = extractLogical s.emDrop s.sm s.em (logical s)
    ∧ t.resp = some { status := e.status, result := [] }
    ∧ logical t = e.rest
    ∧ (e.payload = none → t.pl = s.pl)
    ∧ (∀ p, e.payload = some p → memReadN .pl 0 p.length t = p
        ∧ ∀ a, p.length ≤ a → memRead .pl a t = memRead .pl a s)
    ∧ t = { s with head := t.head, count := t.count, pl := t.pl, resp := t.resp }

/-- R110: `EXTRACT` on an empty ring answers `NO_DATA` and changes nothing. -/
def Obligations.ExtractOnAnEmptyRing : Prop :=
  ∀ s : State, s.count = 0 → exec .extract s = .next { s with resp := some (failResponse .noData) }

/-- R112, R114: `EXTRACT` answers `INCOMPLETE` when fewer than 2 bytes remain after resynchronisation, or when the whole
frame has not arrived; what step 2 discarded stays discarded and the candidate frame stays in the ring. -/
def Obligations.ExtractWaitsForTheWholeFrame : Prop :=
  (∀ s : State, RingInv s → s.count ≠ 0 → (fromFirst s.sm (logical s)).length < 2 →
    ∃ t : State, exec .extract s = .next t ∧ t.resp = some (failResponse .incomplete)
      ∧ logical t = fromFirst s.sm (logical s) ∧ t.pl = s.pl)
  ∧ (∀ (s : State) (len : Byte) (body : List Byte), RingInv s →
      fromFirst s.sm (logical s) = s.sm :: len :: body → (s.sm :: len :: body).length < len.toNat + 4 →
      ∃ t : State, exec .extract s = .next t ∧ t.resp = some (failResponse .incomplete)
        ∧ logical t = s.sm :: len :: body ∧ t.pl = s.pl)
  ∧ ∀ (s : State) (len : Byte) (body : List Byte), RingInv s →
      fromFirst s.sm (logical s) = s.sm :: len :: body → s.cap < len.toNat + 4 →
      (s.sm :: len :: body).length < len.toNat + 4

/-- R115, R201: a candidate whose byte at offset `payload_size + 2` is not `EM` gives `END_MISMATCH` and leaves `PL` alone.
With `EM_DROP = 0` the ring keeps the candidate and a further `EXTRACT` gives the same state again (the stall), which a
`POP` ends; with `EM_DROP = 1` the marker byte is dropped. -/
def Obligations.WrongEndMarkerStallsOrDrops : Prop :=
  ∀ (s : State) (g payload r : List Byte) (len e c : Byte), RingInv s → s.sm ∉ g → payload.length = len.toNat →
    e ≠ s.em → logical s = g ++ s.sm :: len :: (payload ++ e :: c :: r) →
    ∃ t : State, exec .extract s = .next t ∧ t.resp = some (failResponse .endMismatch) ∧ t.pl = s.pl
      ∧ (s.emDrop = false → logical t = s.sm :: len :: (payload ++ e :: c :: r)
          ∧ exec .extract t = .next t
          ∧ ∃ u : State, exec .pop t = .next u ∧ logical u = len :: (payload ++ e :: c :: r))
      ∧ (s.emDrop = true → logical t = len :: (payload ++ e :: c :: r))

/-- R117: a candidate whose CRC byte is not `crc8` of its payload gives `CRC_FAIL`: exactly one byte, the marker, is
dropped, and `PL` holds the rejected payload. -/
def Obligations.WrongChecksumDropsTheMarker : Prop :=
  (∀ (s : State) (g payload r : List Byte) (len c : Byte), RingInv s → s.sm ∉ g → payload.length = len.toNat →
    c ≠ crc8 payload → logical s = g ++ s.sm :: len :: (payload ++ s.em :: c :: r) →
    ∃ t : State, exec .extract s = .next t ∧ t.resp = some (failResponse .crcFail)
      ∧ logical t = len :: (payload ++ s.em :: c :: r)
      ∧ memReadN .pl 0 payload.length t = payload
      ∧ ∀ a, payload.length ≤ a → memRead .pl a t = memRead .pl a s)
  ∧ crc8 [] = 0x00

/-- R118, R122: a valid frame behind any garbage free of `SM` is delivered by one `EXTRACT`: status `OK`, the payload in `PL`
from index 0 on, the garbage and the frame gone from the ring, what followed the frame kept. -/
def Obligations.ValidFrameIsDelivered : Prop :=
  ∀ (s : State) (g payload r : List Byte), RingInv s → s.sm ∉ g → payload.length ≤ 255 →
    logical s = g ++ wireFrame s.sm s.em payload ++ r →
    ∃ t : State, exec .extract s = .next t ∧ t.resp = some (okResponse [])
      ∧ logical t = r ∧ memReadN .pl 0 payload.length t = payload
      ∧ ∀ a, payload.length ≤ a → memRead .pl a t = memRead .pl a s

/-- R117, R172: `OK` is never returned without a matching checksum: an `EXTRACT` that answers `OK` found, behind garbage
free of `SM`, a frame with the right end marker and checksum, removed exactly that, and `PL` holds its payload. -/
def Obligations.OkMeansAValidFrame : Prop :=
  ∀ s t : State, RingInv s → exec .extract s = .next t → t.resp = some (okResponse []) →
    ∃ g payload : List Byte, s.sm ∉ g ∧ payload.length ≤ 255
      ∧ logical s = g ++ wireFrame s.sm s.em payload ++ logical t
      ∧ memReadN .pl 0 payload.length t = payload

/-- R36: every `EXTRACT` that reaches step 7 overwrites `PL:0 .. PL:payload_size-1` with the candidate payload, whether it
then answers `OK` or `CRC_FAIL`, and keeps the bytes from `payload_size` on; one that ends before does not touch `PL`. -/
def Obligations.StepSevenOverwritesThePayload : Prop :=
  ∀ s : State, RingInv s → ∃ (t : State) (st : Status), exec .extract s = .next t
    ∧ t.resp = some { status := st, result := [] }
    ∧ st ∈ [Status.ok, .noData, .incomplete, .endMismatch, .crcFail]
    ∧ (st = .noData ∨ st = .incomplete ∨ st = .endMismatch → t.pl = s.pl)
    ∧ (st = .ok ∨ st = .crcFail → ∃ (len : Byte) (payload r : List Byte),
        fromFirst s.sm (logical s) = s.sm :: len :: (payload ++ r) ∧ payload.length = len.toNat
        ∧ memReadN .pl 0 payload.length t = payload
        ∧ ∀ a, payload.length ≤ a → memRead .pl a t = memRead .pl a s)

/-- R201: with `EM_DROP = 0`, after an `END_MISMATCH`, feeding bytes that fit the ring does not help: the next `EXTRACT`
answers `END_MISMATCH` again and removes nothing. -/
def Obligations.FeedingDoesNotEndTheStall : Prop :=
  ∀ (s t : State) (bytes : List Byte), RingInv s → s.emDrop = false → exec .extract s = .next t →
    t.resp = some (failResponse .endMismatch) → t.count + bytes.length ≤ t.cap →
    ∃ u v : State, exec (.feed bytes) t = .next u ∧ exec .extract u = .next v
      ∧ v.resp = some (failResponse .endMismatch) ∧ logical v = logical t ++ bytes ∧ v.pl = s.pl

/-- R203: a candidate frame longer than the ring (`payload_size + 4 > CAP`) makes every `EXTRACT` answer `INCOMPLETE` and
change nothing but the response, even when the ring is full; with `CAP >= 259` there is no such candidate. -/
def Obligations.FramesLongerThanTheRingNeverEnd : Prop :=
  (∀ (s : State) (len : Byte) (body : List Byte), RingInv s → logical s = s.sm :: len :: body →
    s.cap < len.toNat + 4 → exec .extract s = .next { s with resp := some (failResponse .incomplete) })
  ∧ ∀ (s : State) (len : Byte), 259 ≤ s.cap → len.toNat + 4 ≤ s.cap

/-- R122: a valid frame fed into an empty ring one byte at a time, with an `EXTRACT` after each byte, is answered
`INCOMPLETE` until its last byte and then `OK` exactly once; a further `EXTRACT` answers `NO_DATA`. -/
def Obligations.PartialDeliveryWaitsForTheLastByte : Prop :=
  ∀ (s : State) (payload : List Byte), RingInv s → logical s = [] → payload.length ≤ 255 →
    payload.length + 4 ≤ s.cap → ∃ t : State,
      runAll ((wireFrame s.sm s.em payload).flatMap (fun b => [.feed [b], .extract]) ++ [.extract]) s
        = some ((List.replicate (payload.length + 3) [okResponse [], failResponse .incomplete]).flatten
            ++ [okResponse [], okResponse [], failResponse .noData], t)
      ∧ memReadN .pl 0 payload.length t = payload

/-- R123: a frame alone in the ring with one bit flipped. In `CODE` or `DATA`, and in `CRC`: `CRC_FAIL`. In `END`:
`END_MISMATCH`. In `START`, unless another byte of the frame is `SM`: all is discarded, `INCOMPLETE`. In `LEN`, upward:
`INCOMPLETE`; downward, unless the byte at the new end offset is `EM`: `END_MISMATCH`. The two forms left open here, which
the rule does not call rejected, have a statement of their own (`FlippedFrameNeverDeliversItsPayload`). -/
def Obligations.SingleBitFlipAnswers : Prop :=
  ∀ (s : State) (payload : List Byte) (j : Nat), RingInv s → payload.length ≤ 255 → j < 8 →
    (∀ (k : Nat) (h : k < payload.length),
      logical s = s.sm :: BitVec.ofNat 8 payload.length ::
        (payload.set k (flipBit payload[k] j) ++ [s.em, crc8 payload]) →
      ∃ t : State, exec .extract s = .next t ∧ t.resp = some (failResponse .crcFail))
    ∧ (logical s = s.sm :: BitVec.ofNat 8 payload.length :: (payload ++ [s.em, flipBit (crc8 payload) j]) →
      ∃ t : State, exec .extract s = .next t ∧ t.resp = some (failResponse .crcFail))
    ∧ (logical s = s.sm :: BitVec.ofNat 8 payload.length :: (payload ++ [flipBit s.em j, crc8 payload]) →
      ∃ t : State, exec .extract s = .next t ∧ t.resp = some (failResponse .endMismatch))
    ∧ (logical s = flipBit s.sm j :: BitVec.ofNat 8 payload.length :: (payload ++ [s.em, crc8 payload]) →
      s.sm ∉ BitVec.ofNat 8 payload.length :: (payload ++ [s.em, crc8 payload]) →
      ∃ t : State, exec .extract s = .next t ∧ t.resp = some (failResponse .incomplete) ∧ logical t = [])
    ∧ (logical s = s.sm :: flipBit (BitVec.ofNat 8 payload.length) j :: (payload ++ [s.em, crc8 payload]) →
      (payload.length < (flipBit (BitVec.ofNat 8 payload.length) j).toNat →
        ∃ t : State, exec .extract s = .next t ∧ t.resp = some (failResponse .incomplete)
          ∧ logical t = logical s)
      ∧ ((flipBit (BitVec.ofNat 8 payload.length) j).toNat < payload.length →
          payload.getD (flipBit (BitVec.ofNat 8 payload.length) j).toNat 0 ≠ s.em →
        ∃ t : State, exec .extract s = .next t ∧ t.resp = some (failResponse .endMismatch)))

/-- R123: a frame alone in the ring with one bit flipped, whichever bit: `EXTRACT` never delivers the original payload; if
it answers `OK` at all, it delivered a shorter one whose end marker and checksum are right. A `LEN` flip downward that meets
`EM` at the new end offset is decided by the checksum of the shortened payload; a `START` flip in a frame with another byte
`SM` is answered as the contents from that byte on are. -/
def Obligations.FlippedFrameNeverDeliversItsPayload : Prop :=
  ∀ (s : State) (payload : List Byte) (j : Nat), RingInv s → payload.length ≤ 255 → j < 8 →
    (∀ k < payload.length + 4,
      logical s = (wireFrame s.sm s.em payload).set k (flipBit ((wireFrame s.sm s.em payload).getD k 0) j) →
      ∃ (t : State) (st : Status), exec .extract s = .next t ∧ t.resp = some { status := st, result := [] }
        ∧ (st = .ok → ∃ g shorter : List Byte, shorter.length < payload.length ∧ s.sm ∉ g
            ∧ logical s = g ++ wireFrame s.sm s.em shorter ++ logical t
            ∧ memReadN .pl 0 shorter.length t = shorter))
    ∧ (∀ m : Nat, m = (flipBit (BitVec.ofNat 8 payload.length) j).toNat → m < payload.length →
      payload.getD m 0 = s.em →
      logical s = s.sm :: flipBit (BitVec.ofNat 8 payload.length) j :: (payload ++ [s.em, crc8 payload]) →
      ∃ t : State, exec .extract s = .next t ∧ memReadN .pl 0 m t = payload.take m
        ∧ t.resp = some (if crc8 (payload.take m) = (payload ++ [s.em]).getD (m + 1) 0 then okResponse []
            else failResponse .crcFail))
    ∧ ∀ body : List Byte, body = BitVec.ofNat 8 payload.length :: (payload ++ [s.em, crc8 payload]) → s.sm ∈ body →
      logical s = flipBit s.sm j :: body →
      ∃ t : State, exec .extract s = .next t
        ∧ t.resp = some { status := (extractCandidate s.emDrop s.em (fromFirst s.sm body)).status, result := [] }
        ∧ logical t = (extractCandidate s.emDrop s.em (fromFirst s.sm body)).rest

/-- R121: `PLD i` answers `RANGE` for `i = 255` only, else the byte `PL:i`, whatever has been extracted; after the
successful extraction of a frame with `LEN >= 1`, `PLD 0` returns its `CODE`. -/
def Obligations.PldReadsThePayloadScratch : Prop :=
  (∀ k : Byte, encode (.pld k) = [0x12, k])
  ∧ (∀ s : State, exec (.pld 255) s = .next { s with resp := some (failResponse .range) })
  ∧ (∀ (k : Byte) (s : State), k ≠ 255 →
      exec (.pld k) s = .next { s with resp := some (okResponse [memRead .pl k.toNat s]) })
  ∧ ∀ (s : State) (g data r : List Byte) (code : Byte), RingInv s → s.sm ∉ g → (code :: data).length ≤ 255 →
      logical s = g ++ wireFrame s.sm s.em (code :: data) ++ r →
      ∃ t : State, exec .extract s = .next t ∧ t.resp = some (okResponse [])
        ∧ exec (.pld 0) t = .next { t with resp := some (okResponse [code]) }

/-! ## Fields and shapes -/

/-- R45, R46: an Int16 field is two bytes, low byte first, of the two's complement pattern, and reads back as the integer;
a Float32 field is the four bytes of its pattern, least significant first, and reads back as the pattern. -/
def Obligations.FieldsAreLittleEndian : Prop :=
  (∀ v : Int, -32768 ≤ v → v ≤ 32767 →
    (FieldValue.int16 (BitVec.ofInt 16 v)).bytes
      = [BitVec.ofNat 8 (v % 65536).toNat, BitVec.ofNat 8 ((v % 65536).toNat / 256)]
    ∧ (half (BitVec.ofNat 8 (v % 65536).toNat) (BitVec.ofNat 8 ((v % 65536).toNat / 256))).toInt = v)
  ∧ (∀ (c : List Byte) (k : Nat), (halfAt c k).toNat = (byteAt c k).toNat + 256 * (byteAt c (k + 1)).toNat)
  ∧ (∀ w : Word, (FieldValue.float32 w).bytes
      = [BitVec.ofNat 8 w.toNat, BitVec.ofNat 8 (w.toNat / 256), BitVec.ofNat 8 (w.toNat / 65536),
          BitVec.ofNat 8 (w.toNat / 16777216)]
    ∧ wordAt (FieldValue.float32 w).bytes 0 = w)
  ∧ ∀ (c : List Byte) (k : Nat), (wordAt c k).toNat = (byteAt c k).toNat + 256 * (byteAt c (k + 1)).toNat
      + 65536 * (byteAt c (k + 2)).toNat + 16777216 * (byteAt c (k + 3)).toNat

/-- R86, R144: the fifteen shapes with their `D`, `LEN`, frame length and field offsets; `LEN` is `1 + D`, the sum of the
field sizes and one; the `DATA` of a `PACK_*` command has its shape's `D` bytes. -/
def Obligations.ShapeTableIsTheSpecs : Prop :=
  [Shape.b1, .b2, .b3, .i1, .i2, .i3, .i7, .f1, .f2, .f3, .f4, .f6, .f8, .b1f3, .b2f1].map
      (fun sh => (fieldOffsets sh.fields 1, sh.dataSize, sh.len, sh.frameSize))
    = [([1], 1, 2, 6), ([1, 2], 2, 3, 7), ([1, 2, 3], 3, 4, 8), ([1], 2, 3, 7), ([1, 3], 4, 5, 9),
       ([1, 3, 5], 6, 7, 11), ([1, 3, 5, 7, 9, 11, 13], 14, 15, 19), ([1], 4, 5, 9), ([1, 5], 8, 9, 13),
       ([1, 5, 9], 12, 13, 17), ([1, 5, 9, 13], 16, 17, 21), ([1, 5, 9, 13, 17, 21], 24, 25, 29),
       ([1, 5, 9, 13, 17, 21, 25, 29], 32, 33, 37), ([1, 2, 6, 10], 13, 14, 18), ([1, 2, 3], 6, 7, 11)]
  ∧ (∀ sh : Shape, sh.len = 1 + (sh.fields.map FieldType.size).sum ∧ sh.frameSize = sh.len + 4)
  ∧ ∀ (i : Instr) (sh : Shape) (code : Byte) (fields : List FieldValue), packOf i = some (sh, code, fields) →
      fields.map FieldValue.type = sh.fields ∧ (dataBytes fields).length = sh.dataSize

/-! ## Outbound path -/

/-- R125, R126: every `PACK_*` command completes from every state with `OK` and the new `msg_len`, builds the frame of its
code and data bytes in `MSG`, keeps the rest of `MSG`, and changes nothing else; `data` is the command's bytes from `C[2]`
on. -/
def Obligations.EveryPackBuildsItsFrame : Prop :=
  ∀ (i : Instr) (sh : Shape) (code : Byte) (fields : List FieldValue), packOf i = some (sh, code, fields) →
    BuildsFrame i code (dataBytes fields) ∧ (encode i).drop 2 = dataBytes fields ∧ byteAt (encode i) 1 = code

/-- R127, R128, R129: `PACK_B1`, `PACK_B2`, `PACK_B3`. -/
def Obligations.PackByteShapes : Prop :=
  ∀ code b0 b1 b2 : Byte,
    (encode (.packB1 code b0) = [0x20, code, b0] ∧ BuildsFrame (.packB1 code b0) code [b0])
    ∧ (encode (.packB2 code b0 b1) = [0x21, code, b0, b1] ∧ BuildsFrame (.packB2 code b0 b1) code [b0, b1])
    ∧ (encode (.packB3 code b0 b1 b2) = [0x22, code, b0, b1, b2]
        ∧ BuildsFrame (.packB3 code b0 b1 b2) code [b0, b1, b2])

/-- R130, R131, R132, R133: `PACK_I1`, `PACK_I2`, `PACK_I3`, `PACK_I7`: each field low byte first; an Int16 operand `v` gives
the bytes of `v mod 65536`. -/
def Obligations.PackIntegerShapes : Prop :=
  ∀ (code l0 h0 l1 h1 l2 h2 l3 h3 l4 h4 l5 h5 l6 h6 : Byte),
    (encode (.packI1 code (half l0 h0)) = [0x23, code, l0, h0]
      ∧ BuildsFrame (.packI1 code (half l0 h0)) code [l0, h0])
    ∧ (encode (.packI2 code (half l0 h0) (half l1 h1)) = [0x24, code, l0, h0, l1, h1]
      ∧ BuildsFrame (.packI2 code (half l0 h0) (half l1 h1)) code [l0, h0, l1, h1])
    ∧ (encode (.packI3 code (half l0 h0) (half l1 h1) (half l2 h2)) = [0x25, code, l0, h0, l1, h1, l2, h2]
      ∧ BuildsFrame (.packI3 code (half l0 h0) (half l1 h1) (half l2 h2)) code [l0, h0, l1, h1, l2, h2])
    ∧ (encode (.packI7 code (half l0 h0) (half l1 h1) (half l2 h2) (half l3 h3) (half l4 h4) (half l5 h5)
          (half l6 h6))
        = [0x26, code, l0, h0, l1, h1, l2, h2, l3, h3, l4, h4, l5, h5, l6, h6]
      ∧ BuildsFrame (.packI7 code (half l0 h0) (half l1 h1) (half l2 h2) (half l3 h3) (half l4 h4) (half l5 h5)
          (half l6 h6)) code [l0, h0, l1, h1, l2, h2, l3, h3, l4, h4, l5, h5, l6, h6])
    ∧ ∀ v : Int, -32768 ≤ v → v ≤ 32767 → BuildsFrame (.packI1 code (BitVec.ofInt 16 v)) code
        [BitVec.ofNat 8 (v % 65536).toNat, BitVec.ofNat 8 ((v % 65536).toNat / 256)]

/-- R134 to R139: `PACK_F1`, `PACK_F2`, `PACK_F3`, `PACK_F4`, `PACK_F6`, `PACK_F8`: each pattern least significant byte
first, every pattern copied bit for bit (R145). -/
def Obligations.PackFloatShapes : Prop :=
  ∀ (code : Byte) (f0 f1 f2 f3 f4 f5 f6 f7 : Word),
    (encode (.packF1 code f0) = 0x27 :: code :: wordBytes f0 ∧ BuildsFrame (.packF1 code f0) code (wordBytes f0))
    ∧ (encode (.packF2 code f0 f1) = 0x28 :: code :: (wordBytes f0 ++ wordBytes f1)
      ∧ BuildsFrame (.packF2 code f0 f1) code (wordBytes f0 ++ wordBytes f1))
    ∧ (encode (.packF3 code f0 f1 f2) = 0x29 :: code :: (wordBytes f0 ++ wordBytes f1 ++ wordBytes f2)
      ∧ BuildsFrame (.packF3 code f0 f1 f2) code (wordBytes f0 ++ wordBytes f1 ++ wordBytes f2))
    ∧ (encode (.packF4 code f0 f1 f2 f3)
        = 0x2A :: code :: (wordBytes f0 ++ wordBytes f1 ++ wordBytes f2 ++ wordBytes f3)
      ∧ BuildsFrame (.packF4 code f0 f1 f2 f3) code
          (wordBytes f0 ++ wordBytes f1 ++ wordBytes f2 ++ wordBytes f3))
    ∧ (encode (.packF6 code f0 f1 f2 f3 f4 f5)
        = 0x2B :: code :: (wordBytes f0 ++ wordBytes f1 ++ wordBytes f2 ++ wordBytes f3 ++ wordBytes f4
            ++ wordBytes f5)
      ∧ BuildsFrame (.packF6 code f0 f1 f2 f3 f4 f5) code
          (wordBytes f0 ++ wordBytes f1 ++ wordBytes f2 ++ wordBytes f3 ++ wordBytes f4 ++ wordBytes f5))
    ∧ (encode (.packF8 code f0 f1 f2 f3 f4 f5 f6 f7)
        = 0x2C :: code :: (wordBytes f0 ++ wordBytes f1 ++ wordBytes f2 ++ wordBytes f3 ++ wordBytes f4
            ++ wordBytes f5 ++ wordBytes f6 ++ wordBytes f7)
      ∧ BuildsFrame (.packF8 code f0 f1 f2 f3 f4 f5 f6 f7) code
          (wordBytes f0 ++ wordBytes f1 ++ wordBytes f2 ++ wordBytes f3 ++ wordBytes f4 ++ wordBytes f5
            ++ wordBytes f6 ++ wordBytes f7))
    ∧ wordBytes f0 = [BitVec.ofNat 8 f0.toNat, BitVec.ofNat 8 (f0.toNat / 256), BitVec.ofNat 8 (f0.toNat / 65536),
        BitVec.ofNat 8 (f0.toNat / 16777216)]

/-- R140, R141: `PACK_B1F3` and `PACK_B2F1`: the byte fields first, then the floats. -/
def Obligations.PackMixedShapes : Prop :=
  ∀ (code b0 b1 : Byte) (f0 f1 f2 : Word),
    (encode (.packB1F3 code b0 f0 f1 f2)
        = 0x2D :: code :: b0 :: (wordBytes f0 ++ wordBytes f1 ++ wordBytes f2)
      ∧ BuildsFrame (.packB1F3 code b0 f0 f1 f2) code (b0 :: (wordBytes f0 ++ wordBytes f1 ++ wordBytes f2)))
    ∧ (encode (.packB2F1 code b0 b1 f0) = 0x2E :: code :: b0 :: b1 :: wordBytes f0
      ∧ BuildsFrame (.packB2F1 code b0 b1 f0) code (b0 :: b1 :: wordBytes f0))
    ∧ wordBytes f0 = [BitVec.ofNat 8 f0.toNat, BitVec.ofNat 8 (f0.toNat / 256), BitVec.ofNat 8 (f0.toNat / 65536),
        BitVec.ofNat 8 (f0.toNat / 16777216)]

/-- R142, R143: `MSGLEN` returns `msg_len` as one byte; `MSGRD i` answers `RANGE` when `i >= msg_len`, else the byte
`MSG:i`; neither changes the state, with a legal `msg_len` an accepted index is inside `MSG`, and before any pack `MSGLEN`
returns 0. -/
def Obligations.MessageIsReadOut : Prop :=
  encode .msglen = [0x13] ∧ (∀ k : Byte, encode (.msgrd k) = [0x14, k])
  ∧ (∀ s : State, exec .msglen s = .next { s with resp := some (okResponse [BitVec.ofNat 8 s.msgLen]) })
  ∧ (∀ (k : Byte) (s : State), s.msgLen ≤ k.toNat →
      exec (.msgrd k) s = .next { s with resp := some (failResponse .range) })
  ∧ (∀ (k : Byte) (s : State), k.toNat < s.msgLen →
      exec (.msgrd k) s = .next { s with resp := some (okResponse [memRead .msg k.toNat s]) })
  ∧ (∀ (k : Byte) (s : State), MsgLenLegal s → k.toNat < s.msgLen → k.toNat < 37)
  ∧ ∀ (cap : Nat) (drop : Bool) (cs ce : Byte), exec .msglen (State.resetWith cap drop cs ce)
      = .next { State.resetWith cap drop cs ce with resp := some (okResponse [0]) }

/-! ## Inbound path -/

/-- R152, R153, R154: `UNPACK_B1`, `UNPACK_B2`, `UNPACK_B3`. -/
def Obligations.UnpackByteShapes : Prop :=
  encode .unpackB1 = [0x40] ∧ encode .unpackB2 = [0x41] ∧ encode .unpackB3 = [0x42]
  ∧ UnpacksTo .unpackB1 .b1 1 (fun pl => [.byte (pl 1)])
  ∧ UnpacksTo .unpackB2 .b2 2 (fun pl => [.byte (pl 1), .byte (pl 2)])
  ∧ UnpacksTo .unpackB3 .b3 3 (fun pl => [.byte (pl 1), .byte (pl 2), .byte (pl 3)])

/-- R155, R156, R157, R158: `UNPACK_I1`, `UNPACK_I2`, `UNPACK_I3`, `UNPACK_I7`, each field low byte first; the integer a
field stands for is its pattern sign-extended. -/
def Obligations.UnpackIntegerShapes : Prop :=
  encode .unpackI1 = [0x43] ∧ encode .unpackI2 = [0x44] ∧ encode .unpackI3 = [0x45] ∧ encode .unpackI7 = [0x46]
  ∧ UnpacksTo .unpackI1 .i1 2 (fun pl => [.int16 (half (pl 1) (pl 2))])
  ∧ UnpacksTo .unpackI2 .i2 4 (fun pl => [.int16 (half (pl 1) (pl 2)), .int16 (half (pl 3) (pl 4))])
  ∧ UnpacksTo .unpackI3 .i3 6
      (fun pl => [.int16 (half (pl 1) (pl 2)), .int16 (half (pl 3) (pl 4)), .int16 (half (pl 5) (pl 6))])
  ∧ UnpacksTo .unpackI7 .i7 14 (fun pl => (List.range 7).map fun j => .int16 (half (pl (1 + 2 * j)) (pl (2 + 2 * j))))
  ∧ ∀ lo hi : Byte, (half lo hi).toInt
      = if lo.toNat + 256 * hi.toNat < 32768 then (lo.toNat + 256 * hi.toNat : Int)
        else (lo.toNat + 256 * hi.toNat : Int) - 65536

/-- R159 to R164: `UNPACK_F1`, `UNPACK_F2`, `UNPACK_F3`, `UNPACK_F4`, `UNPACK_F6`, `UNPACK_F8`: `f_j` is the 32-bit pattern
of `PL:(1+4j) .. PL:(4+4j)`, least significant byte first. -/
def Obligations.UnpackFloatShapes : Prop :=
  encode .unpackF1 = [0x47] ∧ encode .unpackF2 = [0x48] ∧ encode .unpackF3 = [0x49] ∧ encode .unpackF4 = [0x4A]
  ∧ encode .unpackF6 = [0x4B] ∧ encode .unpackF8 = [0x4C]
  ∧ ∀ x ∈ [(Instr.unpackF1, Shape.f1, 1), (.unpackF2, .f2, 2), (.unpackF3, .f3, 3), (.unpackF4, .f4, 4),
      (.unpackF6, .f6, 6), (.unpackF8, .f8, 8)],
    UnpacksTo x.1 x.2.1 (4 * x.2.2) fun pl => (List.range x.2.2).map fun j =>
      .float32 (word (pl (1 + 4 * j)) (pl (2 + 4 * j)) (pl (3 + 4 * j)) (pl (4 + 4 * j)))

/-- R165, R166: `UNPACK_B1F3` and `UNPACK_B2F1`. -/
def Obligations.UnpackMixedShapes : Prop :=
  encode .unpackB1F3 = [0x4D] ∧ encode .unpackB2F1 = [0x4E]
  ∧ UnpacksTo .unpackB1F3 .b1f3 13 (fun pl =>
      [.byte (pl 1), .float32 (word (pl 2) (pl 3) (pl 4) (pl 5)), .float32 (word (pl 6) (pl 7) (pl 8) (pl 9)),
        .float32 (word (pl 10) (pl 11) (pl 12) (pl 13))])
  ∧ UnpacksTo .unpackB2F1 .b2f1 6 (fun pl =>
      [.byte (pl 1), .byte (pl 2), .float32 (word (pl 3) (pl 4) (pl 5) (pl 6))])

/-- R167: the round trip through the wire, for every shape, code and field values, every `SM` and `EM`: with an empty ring
that can hold the frame, pack, read the message with `MSGRD`, feed it, extract it and unpack it: the ring is empty again
and the result is the code and the fields, bit for bit. -/
def Obligations.PackedFieldsComeBackUnchanged : Prop :=
  ∀ (p u : Instr) (sh : Shape) (code : Byte) (fields : List FieldValue) (s : State),
    packOf p = some (sh, code, fields) → unpackOf u = some sh → RingInv s → logical s = [] → sh.len + 4 ≤ s.cap →
    ∃ (m : List Byte) (s1 s2 s3 s4 : State), exec p s = .next s1
      ∧ runAll ((List.range s1.msgLen).map fun k => .msgrd (BitVec.ofNat 8 k)) s1
          = some (m.map fun b => okResponse [b], s2)
      ∧ exec (.feed m) s2 = .next s3
      ∧ exec .extract s3 = .next s4 ∧ s4.resp = some (okResponse []) ∧ logical s4 = []
      ∧ exec u s4 = .next { s4 with resp := some (okResponse (code :: dataBytes fields)) }
      ∧ typedResult sh (code :: dataBytes fields) = (code, fields)
end

