-- ==== Sys2Proof/Laws/Decode.lean ====
section
/-! SUPPORT. Byte order and lengths: what the field encodings give back (20_memory.md R45, R46), how long a field and a
shape's data are (30_encoding.md R74, R86), and what an opcode byte selects. -/

namespace Sys2Proof

@[simp] theorem byteAt_cons_zero (b : Byte) (c : List Byte) : byteAt (b :: c) 0 = b := rfl

@[simp] theorem byteAt_cons_succ (b : Byte) (c : List Byte) (k : Nat) : byteAt (b :: c) (k + 1) = byteAt c k := rfl

/-- The low and high byte of a 16-bit pattern make it again. -/
theorem half_of_bytes (u : Half) :
    BitVec.ofNat 16 ((u.extractLsb' 0 8).toNat + 256 * (u.extractLsb' 8 8).toNat) = u := by
  apply BitVec.eq_of_toNat_eq
  have := u.isLt
  simp only [BitVec.extractLsb'_toNat, BitVec.toNat_ofNat, Nat.shiftRight_eq_div_pow]
  omega

/-- The four bytes of a 32-bit pattern make it again. -/
theorem word_of_bytes (w : Word) :
    BitVec.ofNat 32 ((w.extractLsb' 0 8).toNat + 256 * (w.extractLsb' 8 8).toNat
      + 65536 * (w.extractLsb' 16 8).toNat + 16777216 * (w.extractLsb' 24 8).toNat) = w := by
  apply BitVec.eq_of_toNat_eq
  have := w.isLt
  simp only [BitVec.extractLsb'_toNat, BitVec.toNat_ofNat, Nat.shiftRight_eq_div_pow]
  omega

/-- Two bytes are the low and high byte of the pattern they make. -/
theorem bytes_of_half (lo hi : Byte) : halfBytes (BitVec.ofNat 16 (lo.toNat + 256 * hi.toNat)) = [lo, hi] := by
  have h1 := lo.isLt
  have h2 := hi.isLt
  simp only [halfBytes, List.cons.injEq, and_true]
  constructor <;> apply BitVec.eq_of_toNat_eq <;>
    simp only [BitVec.extractLsb'_toNat, BitVec.toNat_ofNat, Nat.shiftRight_eq_div_pow] <;> omega

/-- Four bytes are the bytes of the pattern they make. -/
theorem bytes_of_word (a b c d : Byte) :
    wordBytes (BitVec.ofNat 32 (a.toNat + 256 * b.toNat + 65536 * c.toNat + 16777216 * d.toNat)) = [a, b, c, d] := by
  have h1 := a.isLt
  have h2 := b.isLt
  have h3 := c.isLt
  have h4 := d.isLt
  simp only [wordBytes, List.cons.injEq, and_true]
  refine ⟨?_, ?_, ?_, ?_⟩ <;> apply BitVec.eq_of_toNat_eq <;>
    simp only [BitVec.extractLsb'_toNat, BitVec.toNat_ofNat, Nat.shiftRight_eq_div_pow] <;> omega

@[simp] theorem halfBytes_length (u : Half) : (halfBytes u).length = 2 := rfl

@[simp] theorem wordBytes_length (w : Word) : (wordBytes w).length = 4 := rfl

/-- A field occupies the bytes of its type (R74). -/
@[simp] theorem FieldValue.bytes_length (v : FieldValue) : v.bytes.length = v.type.size := by cases v <;> rfl

/-- `DATA` is as long as the sum of its field sizes (R86). -/
theorem dataBytes_length (vs : List FieldValue) :
    (dataBytes vs).length = ((vs.map FieldValue.type).map FieldType.size).sum := by
  induction vs with
  | nil => rfl
  | cons v vs ih => simp [dataBytes] at ih ⊢; simp [ih]

/-- The shortest and the longest shape (R73, R86). -/
theorem Shape.dataSize_bounds (s : Shape) : 1 ≤ s.dataSize ∧ s.dataSize ≤ 32 := by cases s <;> decide

/-- A field read where its bytes stand is the field (R74). -/
theorem fieldAt_bytes (v : FieldValue) (a r : List Byte) :
    fieldAt v.type (a ++ v.bytes ++ r) a.length = v := by
  induction a with
  | nil =>
    cases v with
    | byte b => rfl
    | int16 u => exact congrArg FieldValue.int16 (half_of_bytes u)
    | float32 w => exact congrArg FieldValue.float32 (word_of_bytes w)
  | cons x a ih =>
    have : ∀ (t : FieldType) (c : List Byte) (k : Nat), fieldAt t (x :: c) (k + 1) = fieldAt t c k := by
      intro t c k
      cases t <;> rfl
    exact (this _ _ _).trans ih

/-- Fields read back from `DATA` (R74, R150). -/
theorem fieldsAt_dataBytes (vs : List FieldValue) (a r : List Byte) :
    fieldsAt (vs.map FieldValue.type) (a ++ dataBytes vs ++ r) a.length = vs := by
  induction vs generalizing a with
  | nil => rfl
  | cons v vs ih =>
    simp only [List.map_cons, fieldsAt, dataBytes, List.flatMap_cons]
    have e : a ++ (v.bytes ++ vs.flatMap FieldValue.bytes) ++ r
        = a ++ v.bytes ++ (dataBytes vs ++ r) := by simp [dataBytes]
    rw [e, fieldAt_bytes]
    congr 1
    have := ih (a ++ v.bytes)
    rw [List.length_append, FieldValue.bytes_length] at this
    simpa only [List.append_assoc] using this

/-- A byte string with a listed opcode and the right length decodes to the assembled operands (R87). -/
theorem decode_of_length {op : Byte} {c : List Byte} {o : Op} (ho : Op.ofByte op = some o)
    (hl : (op :: c).length = o.length (halfAt (op :: c) 1).toNat) : decode (op :: c) = .ok (assemble o (op :: c)) := by
  simp only [decode, ho]
  exact if_pos hl

/-- A byte string decodes only so (R87). -/
theorem decode_cases {c : List Byte} {i : Instr} (h : decode c = .ok i) :
    ∃ op r o, c = op :: r ∧ Op.ofByte op = some o ∧ c.length = o.length (halfAt c 1).toNat ∧ i = assemble o c := by
  cases c with
  | nil => cases h
  | cons op r =>
    cases ho : Op.ofByte op with
    | none => simp [decode, ho] at h
    | some o =>
      simp only [decode, ho] at h
      split at h
      · cases h
        exact ⟨op, r, o, rfl, ho, ‹_›, rfl⟩
      · cases h

/-- Only the bytes R80 lists select a row, and each selects its own: the opcode byte is determined by the row. -/
def Op.code : Op → Byte
  | .isfull => 0x01
  | .isempty => 0x02
  | .size => 0x03
  | .push => 0x04
  | .pop => 0x05
  | .top => 0x06
  | .insert => 0x07
  | .index => 0x08
  | .feed => 0x10
  | .extract => 0x11
  | .pld => 0x12
  | .msglen => 0x13
  | .msgrd => 0x14
  | .pack .b1 => 0x20
  | .pack .b2 => 0x21
  | .pack .b3 => 0x22
  | .pack .i1 => 0x23
  | .pack .i2 => 0x24
  | .pack .i3 => 0x25
  | .pack .i7 => 0x26
  | .pack .f1 => 0x27
  | .pack .f2 => 0x28
  | .pack .f3 => 0x29
  | .pack .f4 => 0x2A
  | .pack .f6 => 0x2B
  | .pack .f8 => 0x2C
  | .pack .b1f3 => 0x2D
  | .pack .b2f1 => 0x2E
  | .unpack .b1 => 0x40
  | .unpack .b2 => 0x41
  | .unpack .b3 => 0x42
  | .unpack .i1 => 0x43
  | .unpack .i2 => 0x44
  | .unpack .i3 => 0x45
  | .unpack .i7 => 0x46
  | .unpack .f1 => 0x47
  | .unpack .f2 => 0x48
  | .unpack .f3 => 0x49
  | .unpack .f4 => 0x4A
  | .unpack .f6 => 0x4B
  | .unpack .f8 => 0x4C
  | .unpack .b1f3 => 0x4D
  | .unpack .b2f1 => 0x4E

theorem Op.ofByte_code (o : Op) : Op.ofByte o.code = some o := by
  cases o with
  | pack s => cases s <;> rfl
  | unpack s => cases s <;> rfl
  | _ => rfl

theorem Op.code_of_ofByte {b : Byte} {o : Op} (h : Op.ofByte b = some o) : b = o.code := by
  revert h
  revert o
  revert b
  decide +kernel

end Sys2Proof
end

