-- ==== Sys2Proof/Laws/Memory.lean ====
section
/-! SUPPORT. Laws of a byte array held as written cells: a read after a write, and that a write keeps the canonical form. -/

namespace Sys2Proof.Machine

theorem Mem.lookup_write_same (m : List Host.Cell) (a : Nat) (v : Byte) :
    Mem.lookup (Mem.write m a v) a = some v := by
  induction m with
  | nil => simp [Mem.write, Mem.lookup]
  | cons c m ih =>
    obtain ⟨k, w⟩ := c
    simp only [Mem.write]
    split
    · simp [Mem.lookup]
    · split
      · simp [Mem.lookup]
      · rename_i h1 h2
        simp only [Mem.lookup, ih]
        rw [if_neg (fun h => h2 h.symm)]

theorem Mem.lookup_write_ne (m : List Host.Cell) {a b : Nat} (v : Byte) (h : b ≠ a) :
    Mem.lookup (Mem.write m a v) b = Mem.lookup m b := by
  induction m with
  | nil => simp [Mem.write, Mem.lookup, Ne.symm h]
  | cons c m ih =>
    obtain ⟨k, w⟩ := c
    simp only [Mem.write]
    split
    · simp [Mem.lookup, Ne.symm h]
    · split
      · rename_i h1 h2
        subst h2
        simp [Mem.lookup, Ne.symm h]
      · simp only [Mem.lookup, ih]

theorem Mem.lookup_write (m : List Host.Cell) (a b : Nat) (v : Byte) :
    Mem.lookup (Mem.write m a v) b = if b = a then some v else Mem.lookup m b := by
  split
  · rename_i h
    rw [h, Mem.lookup_write_same]
  · rename_i h
    exact Mem.lookup_write_ne m v h

/-- Every address listed after a write is the written one or was listed before. -/
theorem Mem.mem_write {m : List Host.Cell} {a : Nat} {v : Byte} {c : Host.Cell}
    (h : c ∈ Mem.write m a v) : c = (a, v) ∨ c ∈ m := by
  induction m with
  | nil => simpa [Mem.write] using h
  | cons d m ih =>
    obtain ⟨k, w⟩ := d
    simp only [Mem.write] at h
    split at h
    · simpa using h
    · split at h
      · rcases List.mem_cons.mp h with h | h
        · exact .inl h
        · exact .inr (List.mem_cons_of_mem _ h)
      · rcases List.mem_cons.mp h with h | h
        · exact .inr (h ▸ List.mem_cons_self ..)
        · exact (ih h).imp id (List.mem_cons_of_mem _)

theorem Mem.write_rising {m : List Host.Cell} (a : Nat) (v : Byte)
    (h : m.Pairwise fun c d => c.1 < d.1) : (Mem.write m a v).Pairwise fun c d => c.1 < d.1 := by
  induction m with
  | nil => simp [Mem.write]
  | cons d m ih =>
    obtain ⟨k, w⟩ := d
    obtain ⟨hk, hm⟩ := List.pairwise_cons.mp h
    simp only [Mem.write]
    split
    · rename_i hak
      refine List.pairwise_cons.mpr ⟨fun c hc => ?_, h⟩
      rcases List.mem_cons.mp hc with rfl | hc
      · exact hak
      · exact Nat.lt_trans hak (hk c hc)
    · split
      · rename_i hak
        exact List.pairwise_cons.mpr ⟨fun c hc => hak ▸ hk c hc, hm⟩
      · rename_i h1 h2
        refine List.pairwise_cons.mpr ⟨fun c hc => ?_, ih hm⟩
        rcases Mem.mem_write hc with rfl | hc
        · exact Nat.lt_of_le_of_ne (Nat.not_lt.mp h1) (Ne.symm h2)
        · exact hk c hc

/-- A write inside an array keeps its canonical form. -/
theorem Memory.wf_write {size : Nat} {m : List Host.Cell} {a : Nat} (v : Byte)
    (h : Memory.wf size m) (ha : a < size) : Memory.wf size (Mem.write m a v) :=
  ⟨Mem.write_rising a v h.1, fun c hc => (Mem.mem_write hc).elim (fun e => e ▸ ha) (h.2 c)⟩

/-- An array with nothing written is in canonical form. -/
theorem Memory.wf_nil (size : Nat) : Memory.wf size [] :=
  ⟨List.Pairwise.nil, fun _ h => nomatch h⟩

/-- Arrays in canonical form that hold the same byte at every address are the same list. -/
theorem Memory.ext_of_wf {n k : Nat} {m m' : List Host.Cell} (h : Memory.wf n m) (h' : Memory.wf k m')
    (he : ∀ a, Mem.lookup m a = Mem.lookup m' a) : m = m' := by
  obtain ⟨h, -⟩ := h
  obtain ⟨h', -⟩ := h'
  have none_of_gt : ∀ (l : List Host.Cell) (a : Nat), (∀ c ∈ l, a < c.1) → Mem.lookup l a = none := by
    intro l a hl
    induction l with
    | nil => rfl
    | cons c l ih =>
      obtain ⟨k, w⟩ := c
      have hk := hl _ (List.mem_cons_self ..)
      simp only [Mem.lookup, if_neg (Nat.ne_of_gt hk)]
      exact ih fun c hc => hl c (List.mem_cons_of_mem _ hc)
  induction m generalizing m' with
  | nil =>
    cases m' with
    | nil => rfl
    | cons c m' =>
      have := he c.1
      simp [Mem.lookup] at this
  | cons c m ih =>
    cases m' with
    | nil =>
      have := he c.1
      simp [Mem.lookup] at this
    | cons c' m' =>
      obtain ⟨k, w⟩ := c
      obtain ⟨k', w'⟩ := c'
      obtain ⟨hk, hm⟩ := List.pairwise_cons.mp h
      obtain ⟨hk', hm'⟩ := List.pairwise_cons.mp h'
      have hkk : k = k' := by
        rcases Nat.lt_trichotomy k k' with hlt | heq | hlt
        · have e := he k
          rw [none_of_gt ((k', w') :: m') k] at e
          · simp [Mem.lookup] at e
          · intro c hc
            rcases List.mem_cons.mp hc with rfl | hc
            · exact hlt
            · exact Nat.lt_trans hlt (hk' c hc)
        · exact heq
        · have e := he k'
          rw [none_of_gt ((k, w) :: m) k'] at e
          · simp [Mem.lookup] at e
          · intro c hc
            rcases List.mem_cons.mp hc with rfl | hc
            · exact hlt
            · exact Nat.lt_trans hlt (hk c hc)
      subst hkk
      have hw : w = w' := by simpa [Mem.lookup] using he k
      subst hw
      congr 1
      refine ih (fun a => ?_) hm hm'
      by_cases ha : k = a
      · subst ha
        rw [none_of_gt m k hk, none_of_gt m' k hk']
      · simpa [Mem.lookup, ha] using he a

end Sys2Proof.Machine
end

