-- ==== Sys2Proof/Laws/State.lean ====
section
/-! SUPPORT. One lemma per field and update of the state, each true by unfolding, so that no later proof unfolds a record
update; and the same for writing several bytes, by induction. -/

namespace Sys2Proof.Machine

/-! ### `respond` -/

@[simp] theorem respond_cap (st : Status) (r : List Byte) (s : State) :
    (respond st r s).cap = s.cap := rfl

@[simp] theorem respond_emDrop (st : Status) (r : List Byte) (s : State) :
    (respond st r s).emDrop = s.emDrop := rfl

@[simp] theorem respond_head (st : Status) (r : List Byte) (s : State) :
    (respond st r s).head = s.head := rfl

@[simp] theorem respond_tail (st : Status) (r : List Byte) (s : State) :
    (respond st r s).tail = s.tail := rfl

@[simp] theorem respond_count (st : Status) (r : List Byte) (s : State) :
    (respond st r s).count = s.count := rfl

@[simp] theorem respond_msgLen (st : Status) (r : List Byte) (s : State) :
    (respond st r s).msgLen = s.msgLen := rfl

@[simp] theorem respond_sm (st : Status) (r : List Byte) (s : State) :
    (respond st r s).sm = s.sm := rfl

@[simp] theorem respond_em (st : Status) (r : List Byte) (s : State) :
    (respond st r s).em = s.em := rfl

@[simp] theorem respond_st (st : Status) (r : List Byte) (s : State) :
    (respond st r s).st = s.st := rfl

@[simp] theorem respond_pl (st : Status) (r : List Byte) (s : State) :
    (respond st r s).pl = s.pl := rfl

@[simp] theorem respond_msg (st : Status) (r : List Byte) (s : State) :
    (respond st r s).msg = s.msg := rfl

@[simp] theorem respond_draw (st : Status) (r : List Byte) (s : State) :
    (respond st r s).draw = s.draw := rfl

@[simp] theorem respond_port (st : Status) (r : List Byte) (s : State) :
    (respond st r s).port = s.port := rfl

@[simp] theorem respond_resp (st : Status) (r : List Byte) (s : State) :
    (respond st r s).resp = some { status := st, result := r } := rfl

/-! ### `takeInput` -/

@[simp] theorem takeInput_cap (rest : List Input) (s : State) :
    (takeInput rest s).cap = s.cap := rfl

@[simp] theorem takeInput_emDrop (rest : List Input) (s : State) :
    (takeInput rest s).emDrop = s.emDrop := rfl

@[simp] theorem takeInput_head (rest : List Input) (s : State) :
    (takeInput rest s).head = s.head := rfl

@[simp] theorem takeInput_tail (rest : List Input) (s : State) :
    (takeInput rest s).tail = s.tail := rfl

@[simp] theorem takeInput_count (rest : List Input) (s : State) :
    (takeInput rest s).count = s.count := rfl

@[simp] theorem takeInput_msgLen (rest : List Input) (s : State) :
    (takeInput rest s).msgLen = s.msgLen := rfl

@[simp] theorem takeInput_sm (rest : List Input) (s : State) :
    (takeInput rest s).sm = s.sm := rfl

@[simp] theorem takeInput_em (rest : List Input) (s : State) :
    (takeInput rest s).em = s.em := rfl

@[simp] theorem takeInput_st (rest : List Input) (s : State) :
    (takeInput rest s).st = s.st := rfl

@[simp] theorem takeInput_pl (rest : List Input) (s : State) :
    (takeInput rest s).pl = s.pl := rfl

@[simp] theorem takeInput_msg (rest : List Input) (s : State) :
    (takeInput rest s).msg = s.msg := rfl

@[simp] theorem takeInput_draw (rest : List Input) (s : State) :
    (takeInput rest s).draw = s.draw := rfl

@[simp] theorem takeInput_port (rest : List Input) (s : State) :
    (takeInput rest s).port = rest := rfl

@[simp] theorem takeInput_resp (rest : List Input) (s : State) :
    (takeInput rest s).resp = s.resp := rfl

/-! ### `applyReset` -/

@[simp] theorem applyReset_cap (c d : Byte) (s : State) :
    (applyReset c d s).cap = s.cap := rfl

@[simp] theorem applyReset_emDrop (c d : Byte) (s : State) :
    (applyReset c d s).emDrop = s.emDrop := rfl

@[simp] theorem applyReset_head (c d : Byte) (s : State) :
    (applyReset c d s).head = 0 := rfl

@[simp] theorem applyReset_tail (c d : Byte) (s : State) :
    (applyReset c d s).tail = 0 := rfl

@[simp] theorem applyReset_count (c d : Byte) (s : State) :
    (applyReset c d s).count = 0 := rfl

@[simp] theorem applyReset_msgLen (c d : Byte) (s : State) :
    (applyReset c d s).msgLen = 0 := rfl

@[simp] theorem applyReset_sm (c d : Byte) (s : State) :
    (applyReset c d s).sm = c := rfl

@[simp] theorem applyReset_em (c d : Byte) (s : State) :
    (applyReset c d s).em = d := rfl

@[simp] theorem applyReset_st (c d : Byte) (s : State) :
    (applyReset c d s).st = [] := rfl

@[simp] theorem applyReset_pl (c d : Byte) (s : State) :
    (applyReset c d s).pl = [] := rfl

@[simp] theorem applyReset_msg (c d : Byte) (s : State) :
    (applyReset c d s).msg = [] := rfl

@[simp] theorem applyReset_draw (c d : Byte) (s : State) :
    (applyReset c d s).draw = s.draw + 1 := rfl

@[simp] theorem applyReset_port (c d : Byte) (s : State) :
    (applyReset c d s).port = s.port := rfl

@[simp] theorem applyReset_resp (c d : Byte) (s : State) :
    (applyReset c d s).resp = none := rfl

/-! ### `dropBytes` -/

@[simp] theorem dropBytes_cap (n : Nat) (s : State) :
    (dropBytes n s).cap = s.cap := rfl

@[simp] theorem dropBytes_emDrop (n : Nat) (s : State) :
    (dropBytes n s).emDrop = s.emDrop := rfl

@[simp] theorem dropBytes_head (n : Nat) (s : State) :
    (dropBytes n s).head = (s.head + n) % s.cap := rfl

@[simp] theorem dropBytes_tail (n : Nat) (s : State) :
    (dropBytes n s).tail = s.tail := rfl

@[simp] theorem dropBytes_count (n : Nat) (s : State) :
    (dropBytes n s).count = s.count - n := rfl

@[simp] theorem dropBytes_msgLen (n : Nat) (s : State) :
    (dropBytes n s).msgLen = s.msgLen := rfl

@[simp] theorem dropBytes_sm (n : Nat) (s : State) :
    (dropBytes n s).sm = s.sm := rfl

@[simp] theorem dropBytes_em (n : Nat) (s : State) :
    (dropBytes n s).em = s.em := rfl

@[simp] theorem dropBytes_st (n : Nat) (s : State) :
    (dropBytes n s).st = s.st := rfl

@[simp] theorem dropBytes_pl (n : Nat) (s : State) :
    (dropBytes n s).pl = s.pl := rfl

@[simp] theorem dropBytes_msg (n : Nat) (s : State) :
    (dropBytes n s).msg = s.msg := rfl

@[simp] theorem dropBytes_draw (n : Nat) (s : State) :
    (dropBytes n s).draw = s.draw := rfl

@[simp] theorem dropBytes_port (n : Nat) (s : State) :
    (dropBytes n s).port = s.port := rfl

@[simp] theorem dropBytes_resp (n : Nat) (s : State) :
    (dropBytes n s).resp = s.resp := rfl

/-! ### `pushByte` -/

@[simp] theorem pushByte_cap (b : Byte) (s : State) :
    (pushByte b s).cap = s.cap := rfl

@[simp] theorem pushByte_emDrop (b : Byte) (s : State) :
    (pushByte b s).emDrop = s.emDrop := rfl

@[simp] theorem pushByte_head (b : Byte) (s : State) :
    (pushByte b s).head = if s.count = s.cap then (s.head + 1) % s.cap else s.head := rfl

@[simp] theorem pushByte_tail (b : Byte) (s : State) :
    (pushByte b s).tail = (s.tail + 1) % s.cap := rfl

@[simp] theorem pushByte_count (b : Byte) (s : State) :
    (pushByte b s).count = if s.count = s.cap then s.count else s.count + 1 := rfl

@[simp] theorem pushByte_msgLen (b : Byte) (s : State) :
    (pushByte b s).msgLen = s.msgLen := rfl

@[simp] theorem pushByte_sm (b : Byte) (s : State) :
    (pushByte b s).sm = s.sm := rfl

@[simp] theorem pushByte_em (b : Byte) (s : State) :
    (pushByte b s).em = s.em := rfl

@[simp] theorem pushByte_st (b : Byte) (s : State) :
    (pushByte b s).st = Mem.write s.st s.tail b := rfl

@[simp] theorem pushByte_pl (b : Byte) (s : State) :
    (pushByte b s).pl = s.pl := rfl

@[simp] theorem pushByte_msg (b : Byte) (s : State) :
    (pushByte b s).msg = s.msg := rfl

@[simp] theorem pushByte_draw (b : Byte) (s : State) :
    (pushByte b s).draw = s.draw := rfl

@[simp] theorem pushByte_port (b : Byte) (s : State) :
    (pushByte b s).port = s.port := rfl

@[simp] theorem pushByte_resp (b : Byte) (s : State) :
    (pushByte b s).resp = s.resp := rfl

/-! ### `memWrite_st` -/

@[simp] theorem memWrite_st_cap (a : Nat) (v : Byte) (s : State) :
    (memWrite .st a v s).cap = s.cap := rfl

@[simp] theorem memWrite_st_emDrop (a : Nat) (v : Byte) (s : State) :
    (memWrite .st a v s).emDrop = s.emDrop := rfl

@[simp] theorem memWrite_st_head (a : Nat) (v : Byte) (s : State) :
    (memWrite .st a v s).head = s.head := rfl

@[simp] theorem memWrite_st_tail (a : Nat) (v : Byte) (s : State) :
    (memWrite .st a v s).tail = s.tail := rfl

@[simp] theorem memWrite_st_count (a : Nat) (v : Byte) (s : State) :
    (memWrite .st a v s).count = s.count := rfl

@[simp] theorem memWrite_st_msgLen (a : Nat) (v : Byte) (s : State) :
    (memWrite .st a v s).msgLen = s.msgLen := rfl

@[simp] theorem memWrite_st_sm (a : Nat) (v : Byte) (s : State) :
    (memWrite .st a v s).sm = s.sm := rfl

@[simp] theorem memWrite_st_em (a : Nat) (v : Byte) (s : State) :
    (memWrite .st a v s).em = s.em := rfl

@[simp] theorem memWrite_st_st (a : Nat) (v : Byte) (s : State) :
    (memWrite .st a v s).st = Mem.write s.st a v := rfl

@[simp] theorem memWrite_st_pl (a : Nat) (v : Byte) (s : State) :
    (memWrite .st a v s).pl = s.pl := rfl

@[simp] theorem memWrite_st_msg (a : Nat) (v : Byte) (s : State) :
    (memWrite .st a v s).msg = s.msg := rfl

@[simp] theorem memWrite_st_draw (a : Nat) (v : Byte) (s : State) :
    (memWrite .st a v s).draw = s.draw := rfl

@[simp] theorem memWrite_st_port (a : Nat) (v : Byte) (s : State) :
    (memWrite .st a v s).port = s.port := rfl

@[simp] theorem memWrite_st_resp (a : Nat) (v : Byte) (s : State) :
    (memWrite .st a v s).resp = s.resp := rfl

/-! ### `memWrite_pl` -/

@[simp] theorem memWrite_pl_cap (a : Nat) (v : Byte) (s : State) :
    (memWrite .pl a v s).cap = s.cap := rfl

@[simp] theorem memWrite_pl_emDrop (a : Nat) (v : Byte) (s : State) :
    (memWrite .pl a v s).emDrop = s.emDrop := rfl

@[simp] theorem memWrite_pl_head (a : Nat) (v : Byte) (s : State) :
    (memWrite .pl a v s).head = s.head := rfl

@[simp] theorem memWrite_pl_tail (a : Nat) (v : Byte) (s : State) :
    (memWrite .pl a v s).tail = s.tail := rfl

@[simp] theorem memWrite_pl_count (a : Nat) (v : Byte) (s : State) :
    (memWrite .pl a v s).count = s.count := rfl

@[simp] theorem memWrite_pl_msgLen (a : Nat) (v : Byte) (s : State) :
    (memWrite .pl a v s).msgLen = s.msgLen := rfl

@[simp] theorem memWrite_pl_sm (a : Nat) (v : Byte) (s : State) :
    (memWrite .pl a v s).sm = s.sm := rfl

@[simp] theorem memWrite_pl_em (a : Nat) (v : Byte) (s : State) :
    (memWrite .pl a v s).em = s.em := rfl

@[simp] theorem memWrite_pl_st (a : Nat) (v : Byte) (s : State) :
    (memWrite .pl a v s).st = s.st := rfl

@[simp] theorem memWrite_pl_pl (a : Nat) (v : Byte) (s : State) :
    (memWrite .pl a v s).pl = Mem.write s.pl a v := rfl

@[simp] theorem memWrite_pl_msg (a : Nat) (v : Byte) (s : State) :
    (memWrite .pl a v s).msg = s.msg := rfl

@[simp] theorem memWrite_pl_draw (a : Nat) (v : Byte) (s : State) :
    (memWrite .pl a v s).draw = s.draw := rfl

@[simp] theorem memWrite_pl_port (a : Nat) (v : Byte) (s : State) :
    (memWrite .pl a v s).port = s.port := rfl

@[simp] theorem memWrite_pl_resp (a : Nat) (v : Byte) (s : State) :
    (memWrite .pl a v s).resp = s.resp := rfl

/-! ### `memWrite_msg` -/

@[simp] theorem memWrite_msg_cap (a : Nat) (v : Byte) (s : State) :
    (memWrite .msg a v s).cap = s.cap := rfl

@[simp] theorem memWrite_msg_emDrop (a : Nat) (v : Byte) (s : State) :
    (memWrite .msg a v s).emDrop = s.emDrop := rfl

@[simp] theorem memWrite_msg_head (a : Nat) (v : Byte) (s : State) :
    (memWrite .msg a v s).head = s.head := rfl

@[simp] theorem memWrite_msg_tail (a : Nat) (v : Byte) (s : State) :
    (memWrite .msg a v s).tail = s.tail := rfl

@[simp] theorem memWrite_msg_count (a : Nat) (v : Byte) (s : State) :
    (memWrite .msg a v s).count = s.count := rfl

@[simp] theorem memWrite_msg_msgLen (a : Nat) (v : Byte) (s : State) :
    (memWrite .msg a v s).msgLen = s.msgLen := rfl

@[simp] theorem memWrite_msg_sm (a : Nat) (v : Byte) (s : State) :
    (memWrite .msg a v s).sm = s.sm := rfl

@[simp] theorem memWrite_msg_em (a : Nat) (v : Byte) (s : State) :
    (memWrite .msg a v s).em = s.em := rfl

@[simp] theorem memWrite_msg_st (a : Nat) (v : Byte) (s : State) :
    (memWrite .msg a v s).st = s.st := rfl

@[simp] theorem memWrite_msg_pl (a : Nat) (v : Byte) (s : State) :
    (memWrite .msg a v s).pl = s.pl := rfl

@[simp] theorem memWrite_msg_msg (a : Nat) (v : Byte) (s : State) :
    (memWrite .msg a v s).msg = Mem.write s.msg a v := rfl

@[simp] theorem memWrite_msg_draw (a : Nat) (v : Byte) (s : State) :
    (memWrite .msg a v s).draw = s.draw := rfl

@[simp] theorem memWrite_msg_port (a : Nat) (v : Byte) (s : State) :
    (memWrite .msg a v s).port = s.port := rfl

@[simp] theorem memWrite_msg_resp (a : Nat) (v : Byte) (s : State) :
    (memWrite .msg a v s).resp = s.resp := rfl

/-! ### Writing several bytes -/

@[simp] theorem memWriteN_pl_cap (a : Nat) (vs : List Byte) (s : State) :
    (memWriteN .pl a vs s).cap = s.cap := by
  induction vs generalizing a s with
  | nil => rfl
  | cons v vs ih => exact (ih (a + 1) (memWrite .pl a v s)).trans rfl

@[simp] theorem memWriteN_pl_emDrop (a : Nat) (vs : List Byte) (s : State) :
    (memWriteN .pl a vs s).emDrop = s.emDrop := by
  induction vs generalizing a s with
  | nil => rfl
  | cons v vs ih => exact (ih (a + 1) (memWrite .pl a v s)).trans rfl

@[simp] theorem memWriteN_pl_head (a : Nat) (vs : List Byte) (s : State) :
    (memWriteN .pl a vs s).head = s.head := by
  induction vs generalizing a s with
  | nil => rfl
  | cons v vs ih => exact (ih (a + 1) (memWrite .pl a v s)).trans rfl

@[simp] theorem memWriteN_pl_tail (a : Nat) (vs : List Byte) (s : State) :
    (memWriteN .pl a vs s).tail = s.tail := by
  induction vs generalizing a s with
  | nil => rfl
  | cons v vs ih => exact (ih (a + 1) (memWrite .pl a v s)).trans rfl

@[simp] theorem memWriteN_pl_count (a : Nat) (vs : List Byte) (s : State) :
    (memWriteN .pl a vs s).count = s.count := by
  induction vs generalizing a s with
  | nil => rfl
  | cons v vs ih => exact (ih (a + 1) (memWrite .pl a v s)).trans rfl

@[simp] theorem memWriteN_pl_msgLen (a : Nat) (vs : List Byte) (s : State) :
    (memWriteN .pl a vs s).msgLen = s.msgLen := by
  induction vs generalizing a s with
  | nil => rfl
  | cons v vs ih => exact (ih (a + 1) (memWrite .pl a v s)).trans rfl

@[simp] theorem memWriteN_pl_sm (a : Nat) (vs : List Byte) (s : State) :
    (memWriteN .pl a vs s).sm = s.sm := by
  induction vs generalizing a s with
  | nil => rfl
  | cons v vs ih => exact (ih (a + 1) (memWrite .pl a v s)).trans rfl

@[simp] theorem memWriteN_pl_em (a : Nat) (vs : List Byte) (s : State) :
    (memWriteN .pl a vs s).em = s.em := by
  induction vs generalizing a s with
  | nil => rfl
  | cons v vs ih => exact (ih (a + 1) (memWrite .pl a v s)).trans rfl

@[simp] theorem memWriteN_pl_st (a : Nat) (vs : List Byte) (s : State) :
    (memWriteN .pl a vs s).st = s.st := by
  induction vs generalizing a s with
  | nil => rfl
  | cons v vs ih => exact (ih (a + 1) (memWrite .pl a v s)).trans rfl

@[simp] theorem memWriteN_pl_msg (a : Nat) (vs : List Byte) (s : State) :
    (memWriteN .pl a vs s).msg = s.msg := by
  induction vs generalizing a s with
  | nil => rfl
  | cons v vs ih => exact (ih (a + 1) (memWrite .pl a v s)).trans rfl

@[simp] theorem memWriteN_pl_draw (a : Nat) (vs : List Byte) (s : State) :
    (memWriteN .pl a vs s).draw = s.draw := by
  induction vs generalizing a s with
  | nil => rfl
  | cons v vs ih => exact (ih (a + 1) (memWrite .pl a v s)).trans rfl

@[simp] theorem memWriteN_pl_port (a : Nat) (vs : List Byte) (s : State) :
    (memWriteN .pl a vs s).port = s.port := by
  induction vs generalizing a s with
  | nil => rfl
  | cons v vs ih => exact (ih (a + 1) (memWrite .pl a v s)).trans rfl

@[simp] theorem memWriteN_pl_resp (a : Nat) (vs : List Byte) (s : State) :
    (memWriteN .pl a vs s).resp = s.resp := by
  induction vs generalizing a s with
  | nil => rfl
  | cons v vs ih => exact (ih (a + 1) (memWrite .pl a v s)).trans rfl

@[simp] theorem memWriteN_msg_cap (a : Nat) (vs : List Byte) (s : State) :
    (memWriteN .msg a vs s).cap = s.cap := by
  induction vs generalizing a s with
  | nil => rfl
  | cons v vs ih => exact (ih (a + 1) (memWrite .msg a v s)).trans rfl

@[simp] theorem memWriteN_msg_emDrop (a : Nat) (vs : List Byte) (s : State) :
    (memWriteN .msg a vs s).emDrop = s.emDrop := by
  induction vs generalizing a s with
  | nil => rfl
  | cons v vs ih => exact (ih (a + 1) (memWrite .msg a v s)).trans rfl

@[simp] theorem memWriteN_msg_head (a : Nat) (vs : List Byte) (s : State) :
    (memWriteN .msg a vs s).head = s.head := by
  induction vs generalizing a s with
  | nil => rfl
  | cons v vs ih => exact (ih (a + 1) (memWrite .msg a v s)).trans rfl

@[simp] theorem memWriteN_msg_tail (a : Nat) (vs : List Byte) (s : State) :
    (memWriteN .msg a vs s).tail = s.tail := by
  induction vs generalizing a s with
  | nil => rfl
  | cons v vs ih => exact (ih (a + 1) (memWrite .msg a v s)).trans rfl

@[simp] theorem memWriteN_msg_count (a : Nat) (vs : List Byte) (s : State) :
    (memWriteN .msg a vs s).count = s.count := by
  induction vs generalizing a s with
  | nil => rfl
  | cons v vs ih => exact (ih (a + 1) (memWrite .msg a v s)).trans rfl

@[simp] theorem memWriteN_msg_msgLen (a : Nat) (vs : List Byte) (s : State) :
    (memWriteN .msg a vs s).msgLen = s.msgLen := by
  induction vs generalizing a s with
  | nil => rfl
  | cons v vs ih => exact (ih (a + 1) (memWrite .msg a v s)).trans rfl

@[simp] theorem memWriteN_msg_sm (a : Nat) (vs : List Byte) (s : State) :
    (memWriteN .msg a vs s).sm = s.sm := by
  induction vs generalizing a s with
  | nil => rfl
  | cons v vs ih => exact (ih (a + 1) (memWrite .msg a v s)).trans rfl

@[simp] theorem memWriteN_msg_em (a : Nat) (vs : List Byte) (s : State) :
    (memWriteN .msg a vs s).em = s.em := by
  induction vs generalizing a s with
  | nil => rfl
  | cons v vs ih => exact (ih (a + 1) (memWrite .msg a v s)).trans rfl

@[simp] theorem memWriteN_msg_st (a : Nat) (vs : List Byte) (s : State) :
    (memWriteN .msg a vs s).st = s.st := by
  induction vs generalizing a s with
  | nil => rfl
  | cons v vs ih => exact (ih (a + 1) (memWrite .msg a v s)).trans rfl

@[simp] theorem memWriteN_msg_pl (a : Nat) (vs : List Byte) (s : State) :
    (memWriteN .msg a vs s).pl = s.pl := by
  induction vs generalizing a s with
  | nil => rfl
  | cons v vs ih => exact (ih (a + 1) (memWrite .msg a v s)).trans rfl

@[simp] theorem memWriteN_msg_draw (a : Nat) (vs : List Byte) (s : State) :
    (memWriteN .msg a vs s).draw = s.draw := by
  induction vs generalizing a s with
  | nil => rfl
  | cons v vs ih => exact (ih (a + 1) (memWrite .msg a v s)).trans rfl

@[simp] theorem memWriteN_msg_port (a : Nat) (vs : List Byte) (s : State) :
    (memWriteN .msg a vs s).port = s.port := by
  induction vs generalizing a s with
  | nil => rfl
  | cons v vs ih => exact (ih (a + 1) (memWrite .msg a v s)).trans rfl

@[simp] theorem memWriteN_msg_resp (a : Nat) (vs : List Byte) (s : State) :
    (memWriteN .msg a vs s).resp = s.resp := by
  induction vs generalizing a s with
  | nil => rfl
  | cons v vs ih => exact (ih (a + 1) (memWrite .msg a v s)).trans rfl

/-! ### Building a frame -/

@[simp] theorem buildFrame_cap (code : Byte) (data : List Byte) (s : State) :
    (buildFrame code data s).cap = s.cap := memWriteN_msg_cap ..

@[simp] theorem buildFrame_emDrop (code : Byte) (data : List Byte) (s : State) :
    (buildFrame code data s).emDrop = s.emDrop := memWriteN_msg_emDrop ..

@[simp] theorem buildFrame_head (code : Byte) (data : List Byte) (s : State) :
    (buildFrame code data s).head = s.head := memWriteN_msg_head ..

@[simp] theorem buildFrame_tail (code : Byte) (data : List Byte) (s : State) :
    (buildFrame code data s).tail = s.tail := memWriteN_msg_tail ..

@[simp] theorem buildFrame_count (code : Byte) (data : List Byte) (s : State) :
    (buildFrame code data s).count = s.count := memWriteN_msg_count ..

@[simp] theorem buildFrame_msgLen (code : Byte) (data : List Byte) (s : State) :
    (buildFrame code data s).msgLen = 1 + data.length + 4 := rfl

@[simp] theorem buildFrame_sm (code : Byte) (data : List Byte) (s : State) :
    (buildFrame code data s).sm = s.sm := memWriteN_msg_sm ..

@[simp] theorem buildFrame_em (code : Byte) (data : List Byte) (s : State) :
    (buildFrame code data s).em = s.em := memWriteN_msg_em ..

@[simp] theorem buildFrame_st (code : Byte) (data : List Byte) (s : State) :
    (buildFrame code data s).st = s.st := memWriteN_msg_st ..

@[simp] theorem buildFrame_pl (code : Byte) (data : List Byte) (s : State) :
    (buildFrame code data s).pl = s.pl := memWriteN_msg_pl ..

@[simp] theorem buildFrame_draw (code : Byte) (data : List Byte) (s : State) :
    (buildFrame code data s).draw = s.draw := memWriteN_msg_draw ..

@[simp] theorem buildFrame_port (code : Byte) (data : List Byte) (s : State) :
    (buildFrame code data s).port = s.port := memWriteN_msg_port ..

@[simp] theorem buildFrame_resp (code : Byte) (data : List Byte) (s : State) :
    (buildFrame code data s).resp = s.resp := memWriteN_msg_resp ..

/-! ### Copying a payload -/

@[simp] theorem copyPayload_cap (s : State) : (copyPayload s).cap = s.cap := memWriteN_pl_cap ..

@[simp] theorem copyPayload_emDrop (s : State) : (copyPayload s).emDrop = s.emDrop := memWriteN_pl_emDrop ..

@[simp] theorem copyPayload_head (s : State) : (copyPayload s).head = s.head := memWriteN_pl_head ..

@[simp] theorem copyPayload_tail (s : State) : (copyPayload s).tail = s.tail := memWriteN_pl_tail ..

@[simp] theorem copyPayload_count (s : State) : (copyPayload s).count = s.count := memWriteN_pl_count ..

@[simp] theorem copyPayload_msgLen (s : State) : (copyPayload s).msgLen = s.msgLen := memWriteN_pl_msgLen ..

@[simp] theorem copyPayload_sm (s : State) : (copyPayload s).sm = s.sm := memWriteN_pl_sm ..

@[simp] theorem copyPayload_em (s : State) : (copyPayload s).em = s.em := memWriteN_pl_em ..

@[simp] theorem copyPayload_st (s : State) : (copyPayload s).st = s.st := memWriteN_pl_st ..

@[simp] theorem copyPayload_msg (s : State) : (copyPayload s).msg = s.msg := memWriteN_pl_msg ..

@[simp] theorem copyPayload_draw (s : State) : (copyPayload s).draw = s.draw := memWriteN_pl_draw ..

@[simp] theorem copyPayload_port (s : State) : (copyPayload s).port = s.port := memWriteN_pl_port ..

@[simp] theorem copyPayload_resp (s : State) : (copyPayload s).resp = s.resp := memWriteN_pl_resp ..

/-! ### Pushing several bytes, and resynchronising -/

@[simp] theorem pushBytes_cap (bytes : List Byte) (s : State) : (pushBytes bytes s).cap = s.cap := by
  induction bytes generalizing s with
  | nil => rfl
  | cons b bs ih => exact (ih (pushByte b s)).trans rfl

@[simp] theorem pushBytes_emDrop (bytes : List Byte) (s : State) : (pushBytes bytes s).emDrop = s.emDrop := by
  induction bytes generalizing s with
  | nil => rfl
  | cons b bs ih => exact (ih (pushByte b s)).trans rfl

@[simp] theorem pushBytes_msgLen (bytes : List Byte) (s : State) : (pushBytes bytes s).msgLen = s.msgLen := by
  induction bytes generalizing s with
  | nil => rfl
  | cons b bs ih => exact (ih (pushByte b s)).trans rfl

@[simp] theorem pushBytes_sm (bytes : List Byte) (s : State) : (pushBytes bytes s).sm = s.sm := by
  induction bytes generalizing s with
  | nil => rfl
  | cons b bs ih => exact (ih (pushByte b s)).trans rfl

@[simp] theorem pushBytes_em (bytes : List Byte) (s : State) : (pushBytes bytes s).em = s.em := by
  induction bytes generalizing s with
  | nil => rfl
  | cons b bs ih => exact (ih (pushByte b s)).trans rfl

@[simp] theorem pushBytes_pl (bytes : List Byte) (s : State) : (pushBytes bytes s).pl = s.pl := by
  induction bytes generalizing s with
  | nil => rfl
  | cons b bs ih => exact (ih (pushByte b s)).trans rfl

@[simp] theorem pushBytes_msg (bytes : List Byte) (s : State) : (pushBytes bytes s).msg = s.msg := by
  induction bytes generalizing s with
  | nil => rfl
  | cons b bs ih => exact (ih (pushByte b s)).trans rfl

@[simp] theorem pushBytes_draw (bytes : List Byte) (s : State) : (pushBytes bytes s).draw = s.draw := by
  induction bytes generalizing s with
  | nil => rfl
  | cons b bs ih => exact (ih (pushByte b s)).trans rfl

@[simp] theorem pushBytes_port (bytes : List Byte) (s : State) : (pushBytes bytes s).port = s.port := by
  induction bytes generalizing s with
  | nil => rfl
  | cons b bs ih => exact (ih (pushByte b s)).trans rfl

@[simp] theorem pushBytes_resp (bytes : List Byte) (s : State) : (pushBytes bytes s).resp = s.resp := by
  induction bytes generalizing s with
  | nil => rfl
  | cons b bs ih => exact (ih (pushByte b s)).trans rfl

@[simp] theorem resync_cap (n : Nat) (s : State) : (resync n s).cap = s.cap := by
  induction n generalizing s with
  | zero => rfl
  | succ n ih =>
    simp only [resync]
    split
    · exact (ih (dropBytes 1 s)).trans rfl
    · rfl

@[simp] theorem resync_emDrop (n : Nat) (s : State) : (resync n s).emDrop = s.emDrop := by
  induction n generalizing s with
  | zero => rfl
  | succ n ih =>
    simp only [resync]
    split
    · exact (ih (dropBytes 1 s)).trans rfl
    · rfl

@[simp] theorem resync_tail (n : Nat) (s : State) : (resync n s).tail = s.tail := by
  induction n generalizing s with
  | zero => rfl
  | succ n ih =>
    simp only [resync]
    split
    · exact (ih (dropBytes 1 s)).trans rfl
    · rfl

@[simp] theorem resync_msgLen (n : Nat) (s : State) : (resync n s).msgLen = s.msgLen := by
  induction n generalizing s with
  | zero => rfl
  | succ n ih =>
    simp only [resync]
    split
    · exact (ih (dropBytes 1 s)).trans rfl
    · rfl

@[simp] theorem resync_sm (n : Nat) (s : State) : (resync n s).sm = s.sm := by
  induction n generalizing s with
  | zero => rfl
  | succ n ih =>
    simp only [resync]
    split
    · exact (ih (dropBytes 1 s)).trans rfl
    · rfl

@[simp] theorem resync_em (n : Nat) (s : State) : (resync n s).em = s.em := by
  induction n generalizing s with
  | zero => rfl
  | succ n ih =>
    simp only [resync]
    split
    · exact (ih (dropBytes 1 s)).trans rfl
    · rfl

@[simp] theorem resync_st (n : Nat) (s : State) : (resync n s).st = s.st := by
  induction n generalizing s with
  | zero => rfl
  | succ n ih =>
    simp only [resync]
    split
    · exact (ih (dropBytes 1 s)).trans rfl
    · rfl

@[simp] theorem resync_pl (n : Nat) (s : State) : (resync n s).pl = s.pl := by
  induction n generalizing s with
  | zero => rfl
  | succ n ih =>
    simp only [resync]
    split
    · exact (ih (dropBytes 1 s)).trans rfl
    · rfl

@[simp] theorem resync_msg (n : Nat) (s : State) : (resync n s).msg = s.msg := by
  induction n generalizing s with
  | zero => rfl
  | succ n ih =>
    simp only [resync]
    split
    · exact (ih (dropBytes 1 s)).trans rfl
    · rfl

@[simp] theorem resync_draw (n : Nat) (s : State) : (resync n s).draw = s.draw := by
  induction n generalizing s with
  | zero => rfl
  | succ n ih =>
    simp only [resync]
    split
    · exact (ih (dropBytes 1 s)).trans rfl
    · rfl

@[simp] theorem resync_port (n : Nat) (s : State) : (resync n s).port = s.port := by
  induction n generalizing s with
  | zero => rfl
  | succ n ih =>
    simp only [resync]
    split
    · exact (ih (dropBytes 1 s)).trans rfl
    · rfl

@[simp] theorem resync_resp (n : Nat) (s : State) : (resync n s).resp = s.resp := by
  induction n generalizing s with
  | zero => rfl
  | succ n ih =>
    simp only [resync]
    split
    · exact (ih (dropBytes 1 s)).trans rfl
    · rfl

end Sys2Proof.Machine
end

