-- ==== Sys2Proof/Laws/Ops.lean ====
section
/-! SUPPORT. What reading and writing the byte arrays does: a read depends on the array's cells and the draw only; a read
after a write gives the byte written and leaves every other address alone. -/

namespace Sys2Proof.Machine

@[simp] theorem cells_st (s : State) : cells .st s = s.st := rfl

@[simp] theorem cells_pl (s : State) : cells .pl s = s.pl := rfl

@[simp] theorem cells_msg (s : State) : cells .msg s = s.msg := rfl

/-- A read is a function of the array's cells and the draw. -/
theorem memRead_congr {x : Space} {s t : State} (hc : cells x s = cells x t) (hd : s.draw = t.draw) (a : Nat) :
    memRead x a s = memRead x a t := by simp only [memRead, hc, hd]

theorem memReadN_congr {x : Space} {s t : State} (hc : cells x s = cells x t) (hd : s.draw = t.draw) (a n : Nat) :
    memReadN x a n s = memReadN x a n t := by simp only [memReadN, memRead_congr hc hd]

@[simp] theorem memRead_respond (x : Space) (a : Nat) (st : Status) (r : List Byte) (s : State) :
    memRead x a (respond st r s) = memRead x a s := by cases x <;> rfl

@[simp] theorem memReadN_respond (x : Space) (a n : Nat) (st : Status) (r : List Byte) (s : State) :
    memReadN x a n (respond st r s) = memReadN x a n s := by simp [memReadN]

@[simp] theorem memReadN_length (x : Space) (a n : Nat) (s : State) : (memReadN x a n s).length = n := by
  simp [memReadN]

@[simp] theorem memReadN_zero (x : Space) (a : Nat) (s : State) : memReadN x a 0 s = [] := rfl

theorem memReadN_getElem {x : Space} {a n : Nat} {s : State} {k : Nat} (h : k < (memReadN x a n s).length) :
    (memReadN x a n s)[k] = memRead x (a + k) s := by simp [memReadN]

/-- Reading one more byte in front. -/
theorem memReadN_succ (x : Space) (a n : Nat) (s : State) :
    memReadN x a (n + 1) s = memRead x a s :: memReadN x (a + 1) n s := by
  simp only [memReadN, List.range_succ_eq_map, List.map_cons, List.map_map, Nat.add_zero]
  congr 1
  exact List.map_congr_left fun k _ => by simp [Nat.add_comm k 1, Nat.add_assoc]

theorem memReadN_ext {x y : Space} {a b n : Nat} {s t : State}
    (h : ∀ k < n, memRead x (a + k) s = memRead y (b + k) t) : memReadN x a n s = memReadN y b n t :=
  List.map_congr_left fun k hk => h k (List.mem_range.mp hk)

theorem memReadN_take (x : Space) (a n k : Nat) (s : State) :
    (memReadN x a n s).take k = memReadN x a (min k n) s := by
  simp [memReadN, ← List.map_take, List.take_range]

theorem cells_memWrite_same (x : Space) (a : Nat) (v : Byte) (s : State) :
    cells x (memWrite x a v s) = Mem.write (cells x s) a v := by cases x <;> rfl

theorem cells_memWrite_ne {x y : Space} (h : y ≠ x) (a : Nat) (v : Byte) (s : State) :
    cells y (memWrite x a v s) = cells y s := by cases x <;> cases y <;> first | rfl | exact absurd rfl h

@[simp] theorem draw_memWrite (x : Space) (a : Nat) (v : Byte) (s : State) : (memWrite x a v s).draw = s.draw := by
  cases x <;> rfl

/-- A read after a write of one byte. -/
theorem memRead_memWrite (x : Space) (a b : Nat) (v : Byte) (s : State) :
    memRead x b (memWrite x a v s) = if b = a then v else memRead x b s := by
  simp only [memRead, cells_memWrite_same, draw_memWrite, Mem.lookup_write]
  split <;> rfl

theorem cells_memWriteN_ne {x y : Space} (h : y ≠ x) (a : Nat) (vs : List Byte) (s : State) :
    cells y (memWriteN x a vs s) = cells y s := by
  induction vs generalizing a s with
  | nil => rfl
  | cons v vs ih => rw [memWriteN, ih, cells_memWrite_ne h]

@[simp] theorem draw_memWriteN (x : Space) (a : Nat) (vs : List Byte) (s : State) :
    (memWriteN x a vs s).draw = s.draw := by
  induction vs generalizing a s with
  | nil => rfl
  | cons v vs ih => rw [memWriteN, ih, draw_memWrite]

/-- The byte listed at an address after writing several. -/
theorem lookup_memWriteN (x : Space) (a b : Nat) (vs : List Byte) (s : State) :
    Mem.lookup (cells x (memWriteN x a vs s)) b
      = if a ≤ b ∧ b < a + vs.length then some (vs.getD (b - a) 0) else Mem.lookup (cells x s) b := by
  induction vs generalizing a s with
  | nil =>
    rw [if_neg (by simp)]
    rfl
  | cons v vs ih =>
    rw [memWriteN, ih, cells_memWrite_same, Mem.lookup_write]
    by_cases h : b = a
    · subst h
      rw [if_neg (by omega), if_pos rfl, if_pos (by simp)]
      simp
    · by_cases h2 : a + 1 ≤ b ∧ b < a + 1 + vs.length
      · rw [if_pos h2, if_pos (by simp; omega)]
        have : b - a = (b - (a + 1)) + 1 := by omega
        rw [this, List.getD_cons_succ]
      · rw [if_neg h2, if_neg h, if_neg (by simp; omega)]

/-- A read after writing several bytes: inside, the byte written; outside, the byte as before. -/
theorem memRead_memWriteN (x : Space) (a b : Nat) (vs : List Byte) (s : State) :
    memRead x b (memWriteN x a vs s)
      = if a ≤ b ∧ b < a + vs.length then vs.getD (b - a) 0 else memRead x b s := by
  simp only [memRead, lookup_memWriteN, draw_memWriteN]
  split <;> rfl

theorem memRead_memWriteN_ne {x y : Space} (h : y ≠ x) (a b : Nat) (vs : List Byte) (s : State) :
    memRead y b (memWriteN x a vs s) = memRead y b s :=
  memRead_congr (cells_memWriteN_ne h a vs s) (draw_memWriteN ..) b

/-- Reading back what has just been written. -/
theorem memReadN_memWriteN (x : Space) (a : Nat) (vs : List Byte) (s : State) :
    memReadN x a vs.length (memWriteN x a vs s) = vs := by
  apply List.ext_getElem
  · simp
  · intro k h1 h2
    rw [memReadN_getElem, memRead_memWriteN, if_pos (by omega)]
    simp [h2]

/-- Writing inside an array keeps its canonical form. -/
theorem wf_memWriteN {size : Nat} (x : Space) (a : Nat) (vs : List Byte) (s : State)
    (h : Memory.wf size (cells x s)) (ha : a + vs.length ≤ size) :
    Memory.wf size (cells x (memWriteN x a vs s)) := by
  induction vs generalizing a s with
  | nil => exact h
  | cons v vs ih =>
    simp only [List.length_cons] at ha
    refine ih (a + 1) _ ?_ (by omega)
    rw [cells_memWrite_same]
    exact Memory.wf_write v h (by omega)

end Sys2Proof.Machine
end

