-- ==== Sys2Proof/Laws/Ring.lean ====
section
/-! SUPPORT. The ring on its logical contents (40_ring_buffer.md R101): what a push, several pushes, `DROP` and the
resynchronisation do to `Q`, and that each keeps the invariants R27. -/

namespace Sys2Proof.Machine

/-! ## The logical contents -/

@[simp] theorem ringBytes_length (s : State) (i n : Nat) : (ringBytes s i n).length = n := by simp [ringBytes]

@[simp] theorem logical_length (s : State) : (logical s).length = s.count := ringBytes_length ..

theorem ringBytes_getElem {s : State} {i n k : Nat} (h : k < (ringBytes s i n).length) :
    (ringBytes s i n)[k] = ringByte s (i + k) := by simp [ringBytes]

theorem logical_getElem {s : State} {k : Nat} (h : k < (logical s).length) : (logical s)[k] = ringByte s k := by
  simp only [logical, ringBytes_getElem, Nat.zero_add]

theorem logical_getD {s : State} {k : Nat} (h : k < s.count) (d : Byte) : (logical s).getD k d = ringByte s k := by
  rw [List.getD_eq_getElem _ _ (by simpa using h), logical_getElem]

/-- The ring bytes from a logical index on are a piece of `Q`. -/
theorem ringBytes_eq {s : State} {i n : Nat} (h : i + n ≤ s.count) :
    ringBytes s i n = ((logical s).drop i).take n := by
  apply List.ext_getElem
  · simp
    omega
  · intro k h1 h2
    simp [ringBytes_getElem, logical_getElem]

/-- The ring's bytes are a function of `head`, `CAP`, the cells of `ST` and the draw. -/
theorem ringByte_congr {s t : State} (hh : s.head = t.head) (hc : s.cap = t.cap) (hst : s.st = t.st)
    (hd : s.draw = t.draw) (i : Nat) : ringByte s i = ringByte t i := by
  simp only [ringByte, ringSlot, memRead, cells_st, hh, hc, hst, hd]

theorem logical_congr {s t : State} (hh : s.head = t.head) (hc : s.cap = t.cap) (hst : s.st = t.st)
    (hd : s.draw = t.draw) (hn : s.count = t.count) : logical s = logical t := by
  simp only [logical, ringBytes, hn, ringByte_congr hh hc hst hd]

@[simp] theorem logical_respond (st : Status) (r : List Byte) (s : State) :
    logical (respond st r s) = logical s := logical_congr rfl rfl rfl rfl rfl

theorem logical_ext {s : State} {q : List Byte} (hn : s.count = q.length)
    (h : ∀ k (hk : k < q.length), ringByte s k = q[k]) : logical s = q := by
  apply List.ext_getElem
  · simpa using hn
  · intro k h1 h2
    rw [logical_getElem]
    exact h k h2

theorem logical_eq_nil {s : State} : logical s = [] ↔ s.count = 0 := by
  rw [← List.length_eq_zero_iff, logical_length]

theorem lastN_length (k : Nat) (q : List Byte) : (lastN k q).length = min k q.length := by
  simp only [lastN, List.length_drop]
  omega

theorem lastN_all {k : Nat} {q : List Byte} (h : q.length ≤ k) : lastN k q = q := by
  simp [lastN, Nat.sub_eq_zero_of_le h]

/-! ## Slots -/

/-- Two logical indexes less than `CAP` apart have the same slot only if they are equal. -/
theorem slot_inj {c h i j : Nat} (hi : i ≤ j) (hj : j < i + c) (e : (h + i) % c = (h + j) % c) : i = j := by
  obtain ⟨d, rfl⟩ := Nat.exists_eq_add_of_le hi
  have hd : d < c := by omega
  have e' : (h + i) % c = (h + i + d) % c := by rw [e, Nat.add_assoc]
  have := Nat.ModEq.add_left_cancel' (h + i) (show (h + i) + 0 ≡ (h + i) + d [MOD c] from e')
  have hz : 0 % c = d % c := this
  rw [Nat.zero_mod, Nat.mod_eq_of_lt hd] at hz
  omega

/-! ## A push -/

theorem ringInv_pushByte {s : State} (h : RingInv s) (b : Byte) : RingInv (pushByte b s) := by
  obtain ⟨h1, h2, h3, h4⟩ := h
  have hc : 0 < s.cap := by omega
  simp only [RingInv, pushByte_cap, pushByte_head, pushByte_tail, pushByte_count]
  refine ⟨by split <;> omega, by split <;> [exact Nat.mod_lt _ hc; exact h2], Nat.mod_lt _ hc, ?_⟩
  rw [h4, Nat.mod_add_mod]
  split
  · rename_i e
    rw [Nat.mod_add_mod]
    congr 1
    omega
  · rw [Nat.add_assoc]

theorem ringByte_pushByte {s : State} (h : RingInv s) (b : Byte) (i : Nat) (hi : i < (pushByte b s).count) :
    ringByte (pushByte b s) i
      = if i + 1 = (pushByte b s).count then b
        else ringByte s (if s.count = s.cap then i + 1 else i) := by
  obtain ⟨h1, h2, h3, h4⟩ := h
  have hc : 0 < s.cap := by omega
  simp only [ringByte, ringSlot, memRead, cells_st, pushByte_st, pushByte_head, pushByte_cap, pushByte_draw,
    Mem.lookup_write, pushByte_count] at hi ⊢
  by_cases hf : s.count = s.cap
  · simp only [hf, if_true] at hi ⊢
    rw [Nat.mod_add_mod, show s.head + 1 + i = s.head + (i + 1) by omega]
    have ht : s.tail = (s.head + s.cap) % s.cap := by rw [h4, hf]
    by_cases hl : i + 1 = s.cap
    · rw [if_pos (by rw [hl, ht]), if_pos hl]
      rfl
    · rw [if_neg, if_neg hl]
      intro e
      rw [ht] at e
      exact hl (slot_inj (by omega) (by omega) e)
  · simp only [hf, if_false] at hi ⊢
    by_cases hl : i + 1 = s.count + 1
    · rw [if_pos (by rw [h4, show i = s.count by omega]), if_pos hl]
      rfl
    · rw [if_neg, if_neg hl]
      intro e
      rw [h4] at e
      have := slot_inj (by omega) (by omega) e
      omega

/-- A push leaves the last `min(CAP, |Q| + 1)` elements of `Q ++ [b]` (R94, R101). -/
theorem logical_pushByte {s : State} (h : RingInv s) (b : Byte) :
    logical (pushByte b s) = lastN (min s.cap (s.count + 1)) (logical s ++ [b]) := by
  have hlen : (lastN (min s.cap (s.count + 1)) (logical s ++ [b])).length = (pushByte b s).count := by
    have := h.1
    simp only [lastN_length, List.length_append, logical_length, List.length_singleton, pushByte_count]
    split <;> omega
  refine logical_ext hlen.symm fun k hk => ?_
  rw [hlen] at hk
  rw [ringByte_pushByte h b k hk]
  have h1 := h.1
  simp only [pushByte_count] at hk ⊢
  simp only [lastN, List.getElem_drop, List.length_append, logical_length, List.length_singleton]
  by_cases hf : s.count = s.cap
  · simp only [hf, if_true] at hk ⊢
    have e : s.cap + 1 - min s.cap (s.cap + 1) + k = k + 1 := by omega
    simp only [e]
    split
    · rw [List.getElem_append_right (by simp; omega)]
      simp
    · rw [List.getElem_append_left (by simp; omega), logical_getElem]
  · simp only [hf, if_false] at hk ⊢
    have e : s.count + 1 - min s.cap (s.count + 1) + k = k := by omega
    simp only [e]
    split
    · rw [List.getElem_append_right (by simp; omega)]
      simp
    · rw [List.getElem_append_left (by simp; omega), logical_getElem]

/-! ## Several pushes -/

theorem ringInv_pushBytes {s : State} (h : RingInv s) (bytes : List Byte) : RingInv (pushBytes bytes s) := by
  induction bytes generalizing s with
  | nil => exact h
  | cons b bs ih => exact ih (ringInv_pushByte h b)

theorem pushBytes_cons (b : Byte) (bs : List Byte) (s : State) :
    pushBytes (b :: bs) s = pushBytes bs (pushByte b s) := rfl

theorem pushBytes_append (as bs : List Byte) (s : State) :
    pushBytes (as ++ bs) s = pushBytes bs (pushBytes as s) := List.foldl_append ..

theorem lastN_append {c : Nat} (q a r : List Byte) (n : Nat) (hn : n = q.length) (hq : n ≤ c) :
    lastN (min c ((lastN (min c (n + a.length)) (q ++ a)).length + r.length))
        (lastN (min c (n + a.length)) (q ++ a) ++ r)
      = lastN (min c (n + (a ++ r).length)) (q ++ (a ++ r)) := by
  subst hn
  rw [← List.append_assoc]
  simp only [lastN_length, List.length_append]
  unfold lastN
  simp only [List.length_append, List.length_drop]
  have h1 : q.length + a.length - min c (q.length + a.length) ≤ (q ++ a).length := by simp
  rw [← List.drop_append_of_le_length h1, List.drop_drop]
  congr 1
  omega

/-- Pushing a sequence leaves the last `min(CAP, |Q| + n)` elements of `Q ++ bytes` (R97, R101, R108). -/
theorem logical_pushBytes {s : State} (h : RingInv s) (bytes : List Byte) :
    logical (pushBytes bytes s) = lastN (min s.cap (s.count + bytes.length)) (logical s ++ bytes) := by
  induction bytes generalizing s with
  | nil =>
    have := h.1
    simp only [pushBytes, List.foldl_nil, List.append_nil, List.length_nil, Nat.add_zero]
    rw [lastN_all (by simp; omega)]
  | cons b bs ih =>
    rw [pushBytes_cons, ih (ringInv_pushByte h b), pushByte_cap]
    have hlen : (pushByte b s).count = (logical (pushByte b s)).length := (logical_length _).symm
    rw [hlen, logical_pushByte h b]
    exact lastN_append (logical s) [b] bs s.count (logical_length s).symm h.1

/-- A sequence that fits is appended whole (R97: nothing is lost). -/
theorem logical_pushBytes_fits {s : State} (h : RingInv s) {bytes : List Byte} (hf : s.count + bytes.length ≤ s.cap) :
    logical (pushBytes bytes s) = logical s ++ bytes := by
  rw [logical_pushBytes h, lastN_all (by simp; omega)]

/-- Pushing keeps `ST` in canonical form. -/
theorem wf_pushBytes {s : State} (hr : RingInv s) (bytes : List Byte) (h : Memory.wf s.cap s.st) :
    Memory.wf s.cap (pushBytes bytes s).st := by
  induction bytes generalizing s with
  | nil => exact h
  | cons b bs ih => exact ih (ringInv_pushByte hr b) (Memory.wf_write b h hr.2.2.1)

/-! ## `DROP` -/

theorem ringInv_dropBytes {s : State} (h : RingInv s) {n : Nat} (hn : n ≤ s.count) : RingInv (dropBytes n s) := by
  obtain ⟨h1, h2, h3, h4⟩ := h
  have hc : 0 < s.cap := by omega
  refine ⟨?_, Nat.mod_lt _ hc, h3, ?_⟩
  · simp only [dropBytes_count, dropBytes_cap]
    omega
  · simp only [dropBytes_count, dropBytes_cap, dropBytes_head, dropBytes_tail]
    rw [h4, Nat.mod_add_mod]
    congr 1
    omega

theorem ringByte_dropBytes (n : Nat) (s : State) (i : Nat) :
    ringByte (dropBytes n s) i = ringByte s (n + i) := by
  simp only [ringByte, ringSlot, memRead, cells_st, dropBytes_st, dropBytes_head, dropBytes_cap, dropBytes_draw,
    Nat.mod_add_mod, Nat.add_assoc]

/-- `DROP(n)` removes the first `n` elements of `Q` (R107). -/
theorem logical_dropBytes (n : Nat) (s : State) : logical (dropBytes n s) = (logical s).drop n := by
  apply logical_ext
  · simp
  · intro k hk
    rw [ringByte_dropBytes, List.getElem_drop, logical_getElem]

/-! ## Resynchronisation -/

/-- Step 2 of `EXTRACT` keeps the invariants and removes from `Q` its longest prefix free of `SM` (R111). -/
theorem resync_spec {s : State} (h : RingInv s) {n : Nat} (hn : s.count ≤ n) :
    RingInv (resync n s) ∧ logical (resync n s) = fromFirst s.sm (logical s) := by
  induction n generalizing s with
  | zero =>
    have e : logical s = [] := logical_eq_nil.mpr (by omega)
    exact ⟨h, by simp [resync, e, fromFirst]⟩
  | succ n ih =>
    simp only [resync]
    split
    · rename_i hc
      have hd := ih (ringInv_dropBytes h hc.1) (by simp only [dropBytes_count]; omega)
      refine ⟨hd.1, ?_⟩
      rw [hd.2, logical_dropBytes, dropBytes_sm]
      obtain ⟨x, q, hq⟩ : ∃ x q, logical s = x :: q := by
        cases hl : logical s with
        | nil => exact absurd (logical_eq_nil.mp hl) (by omega)
        | cons x q => exact ⟨x, q, rfl⟩
      have hx : x = ringByte s 0 := by
        rw [← logical_getD hc.1 0, hq]
        rfl
      simp only [fromFirst, hq, List.drop_succ_cons, List.drop_zero]
      rw [List.dropWhile_cons_of_pos (by simpa [hx] using hc.2)]
    · rename_i hc
      refine ⟨h, ?_⟩
      cases hl : logical s with
      | nil => simp [fromFirst]
      | cons x q =>
        have hpos : 0 < s.count := by
          have := logical_length s
          rw [hl] at this
          simp at this
          omega
        have hx : x = ringByte s 0 := by
          rw [← logical_getD hpos 0, hl]
          rfl
        have : x = s.sm := by
          by_contra hne
          exact hc ⟨hpos, hx ▸ hne⟩
        simp [fromFirst, this]

/-- Resynchronisation drops some number of bytes, at most `count`. -/
theorem resync_eq_drop (n : Nat) {s : State} (hh : s.head < s.cap) :
    ∃ k ≤ s.count, resync n s = dropBytes k s := by
  induction n generalizing s with
  | zero =>
    refine ⟨0, by omega, ?_⟩
    simp [resync, dropBytes, Nat.mod_eq_of_lt hh]
  | succ n ih =>
    simp only [resync]
    split
    · rename_i hc
      obtain ⟨k, hk, e⟩ := ih (s := dropBytes 1 s) (Nat.mod_lt _ (by omega))
      simp only [dropBytes_count] at hk
      refine ⟨1 + k, by omega, ?_⟩
      rw [e]
      simp only [dropBytes, Nat.mod_add_mod, Nat.add_assoc]
      congr 1
      omega
    · refine ⟨0, by omega, ?_⟩
      simp [dropBytes, Nat.mod_eq_of_lt hh]

end Sys2Proof.Machine
end

