-- ==== Sys2Proof/Laws/Ingest.lean ====
section
/-! SUPPORT. The deframer (41_deframer.md): what copying a payload leaves alone, and once and for all what `EXTRACT` can do
(R109, R119). -/

namespace Sys2Proof.Machine

@[simp] theorem ringByte_copyPayload (s : State) (i : Nat) : ringByte (copyPayload s) i = ringByte s i :=
  ringByte_congr (copyPayload_head s) (copyPayload_cap s) (copyPayload_st s) (copyPayload_draw s) i

@[simp] theorem logical_copyPayload (s : State) : logical (copyPayload s) = logical s :=
  logical_congr (copyPayload_head s) (copyPayload_cap s) (copyPayload_st s) (copyPayload_draw s) (copyPayload_count s)

theorem payloadSize_lt (s : State) : payloadSize s < 256 := (ringByte s 1).isLt

/-- After step 7 the payload scratch holds the candidate payload from index 0 on (R116). -/
theorem memReadN_copyPayload (s : State) :
    memReadN .pl 0 (payloadSize s) (copyPayload s) = ringBytes s 2 (payloadSize s) := by
  have := memReadN_memWriteN .pl 0 (ringBytes s 2 (payloadSize s)) s
  rwa [ringBytes_length] at this

/-- Step 7 leaves `PL` from `payload_size` on as it was (R37, R116). -/
theorem memRead_copyPayload_ge (s : State) {a : Nat} (h : payloadSize s ≤ a) :
    memRead .pl a (copyPayload s) = memRead .pl a s := by
  rw [copyPayload, memRead_memWriteN, if_neg (by rw [ringBytes_length]; omega)]

/-- Step 7 keeps `PL` in canonical form: a payload has at most `PMAX` bytes (R10). -/
theorem wf_copyPayload {s : State} (h : Memory.wf Config.pmax s.pl) : Memory.wf Config.pmax (copyPayload s).pl := by
  have := payloadSize_lt s
  exact wf_memWriteN .pl 0 _ s h (by rw [ringBytes_length]; simp only [Config.pmax]; omega)

/-- Everything steps 3 to 9 can do (R112 to R118). -/
theorem extractFrame_cases (s : State) :
    (s.count < payloadSize s + 4 ∨ s.count < 2) ∧ extractFrame s = .next (respond .incomplete [] s)
    ∨ payloadSize s + 4 ≤ s.count ∧ ringByte s (payloadSize s + 2) ≠ s.em
        ∧ extractFrame s = .next (respond .endMismatch [] (if s.emDrop then dropBytes 1 s else s))
    ∨ payloadSize s + 4 ≤ s.count ∧ ringByte s (payloadSize s + 2) = s.em
        ∧ crc8 (ringBytes s 2 (payloadSize s)) ≠ ringByte s (payloadSize s + 3)
        ∧ extractFrame s = .next (respond .crcFail [] (dropBytes 1 (copyPayload s)))
    ∨ payloadSize s + 4 ≤ s.count ∧ ringByte s (payloadSize s + 2) = s.em
        ∧ crc8 (ringBytes s 2 (payloadSize s)) = ringByte s (payloadSize s + 3)
        ∧ extractFrame s = .next (respond .ok [] (dropBytes (payloadSize s + 4) (copyPayload s))) := by
  simp only [extractFrame, memReadN_copyPayload, ringByte_copyPayload, raise, answer]
  by_cases h1 : s.count < 2
  · exact .inl ⟨.inr h1, by rw [if_pos h1]⟩
  rw [if_neg h1]
  by_cases h2 : s.count < payloadSize s + 4
  · exact .inl ⟨.inl h2, by rw [if_pos h2]⟩
  rw [if_neg h2]
  by_cases h3 : ringByte s (payloadSize s + 2) = s.em
  · rw [if_neg (not_not.mpr h3)]
    by_cases h4 : crc8 (ringBytes s 2 (payloadSize s)) = ringByte s (payloadSize s + 3)
    · rw [if_neg (not_not.mpr h4)]
      exact .inr (.inr (.inr ⟨by omega, h3, h4, rfl⟩))
    · rw [if_pos h4]
      exact .inr (.inr (.inl ⟨by omega, h3, h4, rfl⟩))
  · rw [if_pos h3]
    exact .inr (.inl ⟨by omega, h3, rfl⟩)

/-- `EXTRACT` on an empty ring (R110). -/
theorem execExtract_empty {s : State} (h : s.count = 0) : execExtract s = .next (respond .noData [] s) := by
  simp [execExtract, isEmpty, h, raise]

/-- `EXTRACT` on a ring that holds a byte: step 2, then the candidate frame (R109). -/
theorem execExtract_nonempty {s : State} (h : s.count ≠ 0) : execExtract s = extractFrame (resync s.count s) := by
  simp [execExtract, isEmpty, h]

/-- One more byte in front of the checksum's seed. -/
theorem crc8_append (as bs : List Byte) : crc8 (as ++ bs) = bs.foldl crcByte (crc8 as) := List.foldl_append ..

end Sys2Proof.Machine
end

