-- ==== Sys2Proof/Laws/Pack.lean ====
section
/-! SUPPORT. What `build_frame` leaves in `MSG` (42_pack.md R125), and reading a payload for `UNPACK_*` (43_unpack.md R150). -/

namespace Sys2Proof.Machine

@[simp] theorem frameBytes_length (sm em code : Byte) (data : List Byte) :
    (frameBytes sm em code data).length = data.length + 5 := by simp [frameBytes]

/-- A frame built by the block is a wire frame with the payload `CODE + DATA` (R65, R125). -/
theorem frameBytes_eq_wireFrame (sm em code : Byte) (data : List Byte) :
    frameBytes sm em code data = wireFrame sm em (code :: data) := by
  simp [frameBytes, wireFrame, Nat.add_comm]

/-- `MSG` from index 0 on holds the frame (R125). -/
theorem memReadN_buildFrame (code : Byte) (data : List Byte) (s : State) :
    memReadN .msg 0 (data.length + 5) (buildFrame code data s) = frameBytes s.sm s.em code data := by
  have := memReadN_memWriteN .msg 0 (frameBytes s.sm s.em code data) s
  rwa [frameBytes_length] at this

/-- `MSG` from the new `msg_len` on keeps its contents (R126). -/
theorem memRead_buildFrame_ge (code : Byte) (data : List Byte) (s : State) {a : Nat} (h : data.length + 5 ≤ a) :
    memRead .msg a (buildFrame code data s) = memRead .msg a s := by
  have : memRead .msg a (buildFrame code data s)
      = memRead .msg a (memWriteN .msg 0 (frameBytes s.sm s.em code data) s) := rfl
  rw [this, memRead_memWriteN, if_neg (by rw [frameBytes_length]; omega)]

/-- Building a frame that fits keeps `MSG` in canonical form (R11). -/
theorem wf_buildFrame {s : State} {code : Byte} {data : List Byte} (h : Memory.wf Config.mmax s.msg)
    (hd : data.length + 5 ≤ Config.mmax) : Memory.wf Config.mmax (buildFrame code data s).msg :=
  wf_memWriteN .msg 0 _ s h (by rw [frameBytes_length]; omega)

/-- Every byte of the new message has been written. -/
theorem lookup_buildFrame {s : State} {code : Byte} {data : List Byte} {a : Nat} (h : a < data.length + 5) :
    (Mem.lookup (buildFrame code data s).msg a).isSome = true := by
  have : Mem.lookup (buildFrame code data s).msg a
      = Mem.lookup (cells .msg (memWriteN .msg 0 (frameBytes s.sm s.em code data) s)) a := rfl
  rw [this, lookup_memWriteN, if_pos (by rw [frameBytes_length]; omega)]
  rfl

/-- Building a frame does not touch the ring (R126). -/
@[simp] theorem logical_buildFrame (code : Byte) (data : List Byte) (s : State) :
    logical (buildFrame code data s) = logical s :=
  logical_congr (buildFrame_head ..) (buildFrame_cap ..) (buildFrame_st ..) (buildFrame_draw ..) (buildFrame_count ..)

/-- Everything a `PACK_*` command does (R126). -/
theorem pack_eq (code : Byte) (fields : List FieldValue) (s : State) :
    pack code fields s = .next (respond .ok [BitVec.ofNat 8 ((dataBytes fields).length + 5)]
      (buildFrame code (dataBytes fields) s)) := by
  have : 1 + (dataBytes fields).length + 4 = (dataBytes fields).length + 5 := by omega
  simp only [pack, answer, buildFrame_msgLen, this]

/-- Everything an `UNPACK_*` command does: the result is `PL:0 .. PL:D` (R150, R151). -/
theorem unpack_eq (sh : Shape) (s : State) :
    unpack sh s = .next (respond .ok (memReadN .pl 0 (1 + sh.dataSize) s) s) := by
  simp only [unpack, answer, Nat.add_comm 1, memReadN_succ]

/-- Every `PACK_*` command is `pack` of its code and fields. -/
theorem exec_of_packOf {i : Instr} {sh : Shape} {code : Byte} {fields : List FieldValue}
    (h : packOf i = some (sh, code, fields)) (s : State) : exec i s = pack code fields s := by
  cases i <;> simp only [packOf, reduceCtorEq, Option.some.injEq, Prod.mk.injEq] at h <;>
    (obtain ⟨-, rfl, rfl⟩ := h; rfl)

/-- The fields of a `PACK_*` command have its shape's types. -/
theorem types_of_packOf {i : Instr} {sh : Shape} {code : Byte} {fields : List FieldValue}
    (h : packOf i = some (sh, code, fields)) : fields.map FieldValue.type = sh.fields := by
  cases i <;> simp only [packOf, reduceCtorEq, Option.some.injEq, Prod.mk.injEq] at h <;>
    (obtain ⟨rfl, -, rfl⟩ := h; rfl)

/-- Every `UNPACK_*` command is `unpack` of its shape. -/
theorem exec_of_unpackOf {i : Instr} {sh : Shape} (h : unpackOf i = some sh) (s : State) :
    exec i s = unpack sh s := by
  cases i <;> simp only [unpackOf, reduceCtorEq, Option.some.injEq] at h <;> (subst h; rfl)

end Sys2Proof.Machine
end

