-- ==== Sys2Proof/Laws/Exec.lean ====
section
/-! SUPPORT. Said once: everything a command can do (10_state.md R34), and everything a step can do. -/

namespace Sys2Proof.Machine

/-- What `EXTRACT` on a ring that holds a byte can do, from the state `u` that step 2 leaves (R112 to R118). -/
def ExtractOutcome (u t : State) : Prop :=
  (u.count < payloadSize u + 4 ∨ u.count < 2) ∧ t = respond .incomplete [] u
  ∨ payloadSize u + 4 ≤ u.count ∧ ringByte u (payloadSize u + 2) ≠ u.em
      ∧ t = respond .endMismatch [] (if u.emDrop then dropBytes 1 u else u)
  ∨ payloadSize u + 4 ≤ u.count ∧ ringByte u (payloadSize u + 2) = u.em
      ∧ crc8 (ringBytes u 2 (payloadSize u)) ≠ ringByte u (payloadSize u + 3)
      ∧ t = respond .crcFail [] (dropBytes 1 (copyPayload u))
  ∨ payloadSize u + 4 ≤ u.count ∧ ringByte u (payloadSize u + 2) = u.em
      ∧ crc8 (ringBytes u 2 (payloadSize u)) = ringByte u (payloadSize u + 3)
      ∧ t = respond .ok [] (dropBytes (payloadSize u + 4) (copyPayload u))

theorem extractFrame_outcome {u t : State} (h : extractFrame u = .next t) : ExtractOutcome u t := by
  obtain ⟨a, e⟩ | ⟨a, b, e⟩ | ⟨a, b, c, e⟩ | ⟨a, b, c, e⟩ := extractFrame_cases u <;> rw [e] at h <;> cases h
  · exact .inl ⟨a, rfl⟩
  · exact .inr (.inl ⟨a, b, rfl⟩)
  · exact .inr (.inr (.inl ⟨a, b, c, rfl⟩))
  · exact .inr (.inr (.inr ⟨a, b, c, rfl⟩))

/-- A command that only reads, or fails without an effect, changes nothing but the response. -/
def ReadsOnly (s t : State) : Prop := ∃ (st : Status) (r : List Byte), t = respond st r s

/-- Everything a command can do. -/
theorem exec_cases {i : Instr} {s t : State} (h : exec i s = .next t) :
    ReadsOnly s t
    ∨ (∃ bytes, (i = .insert bytes ∨ i = .feed bytes ∨ ∃ b, i = .push b ∧ bytes = [b])
        ∧ t = respond .ok [] (pushBytes bytes s))
    ∨ (i = .pop ∧ s.count ≠ 0 ∧ t = respond .ok [memRead .st s.head s] (dropBytes 1 s))
    ∨ (i = .extract ∧ s.count ≠ 0 ∧ ExtractOutcome (resync s.count s) t)
    ∨ ∃ sh code fields, packOf i = some (sh, code, fields)
        ∧ t = respond .ok [BitVec.ofNat 8 ((dataBytes fields).length + 5)]
            (buildFrame code (dataBytes fields) s) := by
  cases hp : packOf i with
  | some x =>
    obtain ⟨sh, code, fields⟩ := x
    rw [exec_of_packOf hp, pack_eq] at h
    cases h
    exact .inr (.inr (.inr (.inr ⟨sh, code, fields, rfl, rfl⟩)))
  | none =>
    cases hu : unpackOf i with
    | some sh =>
      rw [exec_of_unpackOf hu, unpack_eq] at h
      cases h
      exact .inl ⟨_, _, rfl⟩
    | none =>
      cases i <;> simp only [packOf, unpackOf, reduceCtorEq] at hp hu
      case push b =>
        cases h
        exact .inr (.inl ⟨[b], .inr (.inr ⟨b, rfl, rfl⟩), rfl⟩)
      case insert bytes =>
        cases h
        exact .inr (.inl ⟨bytes, .inl rfl, rfl⟩)
      case feed bytes =>
        cases h
        exact .inr (.inl ⟨bytes, .inr (.inl rfl), rfl⟩)
      case pop =>
        simp only [exec, execPop, raise, answer, isEmpty, beq_iff_eq] at h
        split at h <;> cases h
        · exact .inl ⟨_, _, rfl⟩
        · exact .inr (.inr (.inl ⟨rfl, ‹_›, rfl⟩))
      case extract =>
        by_cases h0 : s.count = 0
        · rw [exec, execExtract_empty h0] at h
          cases h
          exact .inl ⟨_, _, rfl⟩
        · rw [exec, execExtract_nonempty h0] at h
          exact .inr (.inr (.inr (.inl ⟨rfl, h0, extractFrame_outcome h⟩)))
      all_goals
        simp only [exec, execIsfull, execIsempty, execSize, execTop, execIndex, execPld, execMsglen, execMsgrd,
          answer, raise] at h
        first
          | (cases h; exact .inl ⟨_, _, rfl⟩)
          | (split at h <;> (cases h; exact .inl ⟨_, _, rfl⟩))

/-- Every command completes (R170). -/
theorem exec_next (i : Instr) (s : State) : ∃ t, exec i s = .next t := by
  cases hp : packOf i with
  | some x => exact ⟨_, (exec_of_packOf hp s).trans (pack_eq ..)⟩
  | none =>
    cases hu : unpackOf i with
    | some sh => exact ⟨_, (exec_of_unpackOf hu s).trans (unpack_eq ..)⟩
    | none =>
      cases i <;> simp only [packOf, unpackOf, reduceCtorEq] at hp hu
      case extract =>
        by_cases h0 : s.count = 0
        · exact ⟨_, execExtract_empty h0⟩
        · obtain ⟨-, e⟩ | ⟨-, -, e⟩ | ⟨-, -, -, e⟩ | ⟨-, -, -, e⟩ := extractFrame_cases (resync s.count s)
          all_goals exact ⟨_, (execExtract_nonempty h0).trans e⟩
      all_goals
        simp only [exec, execIsfull, execIsempty, execSize, execPush, execPop, execTop, execInsert, execIndex,
          execFeed, execPld, execMsglen, execMsgrd, answer, raise]
        first
          | exact ⟨_, rfl⟩
          | (split <;> exact ⟨_, rfl⟩)

/-- Everything a step can do: nothing, a reset, an answer `ILLEGAL`, or a decoded command. -/
theorem step_cases {s t : State} (h : step s = .next t) :
    (s.port = [] ∧ t = s)
    ∨ (∃ cs ce rest, s.port = .reset cs ce :: rest ∧ t = applyReset cs ce (takeInput rest s))
    ∨ (∃ op operands rest, s.port = .command op operands :: rest
        ∧ (∃ e, decode (op :: operands) = .error e) ∧ t = respond .illegal [] (takeInput rest s))
    ∨ ∃ op operands rest i, s.port = .command op operands :: rest ∧ decode (op :: operands) = .ok i
        ∧ exec i (takeInput rest s) = .next t := by
  unfold step at h
  split at h
  · cases h
    exact .inl ⟨‹_›, rfl⟩
  · rename_i op operands rest hport
    simp only [runCommand, commandBytes] at h
    split at h
    · exact .inr (.inr (.inr ⟨op, operands, rest, _, hport, ‹_›, h⟩))
    · cases h
      exact .inr (.inr (.inl ⟨op, operands, rest, hport, ⟨_, ‹_›⟩, rfl⟩))
  · rename_i cs ce rest hport
    cases h
    exact .inr (.inl ⟨cs, ce, rest, hport, rfl⟩)

end Sys2Proof.Machine
end

