-- ==== Sys2Proof/Laws/Extract.lean ====
section
/-! SUPPORT. The candidate frame of `EXTRACT` seen through `Q` (41_deframer.md R112 to R120): small facts about
resynchronisation, and what steps 3 to 9 do, read off the logical contents they start from. -/

namespace Sys2Proof.Machine

/-! ## Resynchronisation on a sequence -/

/-- What is left by resynchronisation starts with the marker. -/
theorem fromFirst_head {b x : Byte} {q r : List Byte} (h : fromFirst b q = x :: r) : x = b := by
  induction q with
  | nil => cases h
  | cons y q ih =>
    by_cases e : y = b
    · subst e
      simp only [fromFirst, List.dropWhile_cons, bne_self_eq_false, Bool.false_eq_true, if_false] at h
      exact (List.cons.inj h).1.symm
    · exact ih (by simpa [fromFirst, List.dropWhile_cons, e] using h)

/-- Garbage free of the marker is skipped. -/
theorem fromFirst_append {b : Byte} {g : List Byte} (h : b ∉ g) (r : List Byte) :
    fromFirst b (g ++ b :: r) = b :: r := by
  induction g with
  | nil => simp [fromFirst]
  | cons x g ih =>
    have hx : x ≠ b := fun e => h (by simp [e])
    have := ih fun e => h (by simp [e])
    simpa [fromFirst, List.dropWhile_cons, hx] using this

theorem fromFirst_cons (b : Byte) (r : List Byte) : fromFirst b (b :: r) = b :: r :=
  fromFirst_append (g := []) (by simp) r

/-- A sequence is garbage free of the marker and what resynchronisation leaves. -/
theorem fromFirst_split (b : Byte) (q : List Byte) : ∃ g : List Byte, b ∉ g ∧ q = g ++ fromFirst b q := by
  refine ⟨q.takeWhile fun x => x != b, fun hm => ?_, List.takeWhile_append_dropWhile.symm⟩
  simpa using List.mem_takeWhile_imp hm

/-- On contents that are not empty `EXTRACT` resynchronises and examines the candidate. -/
theorem extractLogical_of_ne {drop : Bool} {sm em : Byte} {q : List Byte} (h : q ≠ []) :
    extractLogical drop sm em q = extractCandidate drop em (fromFirst sm q) := by
  cases q with
  | nil => exact absurd rfl h
  | cons => rfl

/-! ## Steps 3 to 9 -/

/-- What a state says of the candidate frame at the front of `Q` (R113). -/
theorem candidate_reads {u : State} {m len : Byte} {body : List Byte} (hq : logical u = m :: len :: body) :
    u.count = body.length + 2 ∧ payloadSize u = len.toNat
      ∧ (∀ k < body.length, ringByte u (k + 2) = body.getD k 0)
      ∧ ∀ n ≤ body.length, ringBytes u 2 n = body.take n := by
  have hn : u.count = body.length + 2 := by rw [← logical_length, hq]; rfl
  refine ⟨hn, ?_, fun k hk => ?_, fun n h => ?_⟩
  · have := logical_getD (s := u) (k := 1) (by omega) 0
    rw [hq] at this
    simp only [payloadSize, ← this]
    rfl
  · have := logical_getD (s := u) (k := k + 2) (by omega) 0
    rw [hq] at this
    exact this.symm
  · rw [ringBytes_eq (by omega), hq]
    rfl

/-- Step 7 writes the candidate payload to `PL` from index 0 on; what follows it in the step keeps `PL`. -/
theorem payload_stored {u t : State} {m len : Byte} {body : List Byte} (hq : logical u = m :: len :: body)
    (hl : len.toNat ≤ body.length) (hp : t.pl = (copyPayload u).pl) (hd : t.draw = (copyPayload u).draw) :
    (body.take len.toNat).length = len.toNat ∧ memReadN .pl 0 len.toNat t = body.take len.toNat
      ∧ ∀ a, len.toNat ≤ a → memRead .pl a t = memRead .pl a u := by
  obtain ⟨-, hps, -, htk⟩ := candidate_reads hq
  refine ⟨by simp only [List.length_take]; omega, ?_, fun a ha => ?_⟩
  · rw [memReadN_congr (x := .pl) hp hd, ← htk _ hl, ← hps]
    exact memReadN_copyPayload u
  · rw [memRead_congr (x := .pl) hp hd]
    exact memRead_copyPayload_ge u (by omega)

/-- Steps 3 to 9 do to `Q`, to `PL` and to the response what the algorithm on `Q` says (R120). -/
theorem extractFrame_logical {u : State} (hr : RingInv u) : ∃ (t : State) (e : Extraction),
    extractFrame u = .next t ∧ e = extractCandidate u.emDrop u.em (logical u)
      ∧ t.resp = some { status := e.status, result := [] } ∧ logical t = e.rest
      ∧ (e.payload = none → t.pl = u.pl)
      ∧ (∀ p, e.payload = some p → p.length = payloadSize u ∧ memReadN .pl 0 p.length t = p
          ∧ ∀ a, p.length ≤ a → memRead .pl a t = memRead .pl a u)
      ∧ RingInv t := by
  have short : ∀ q, logical u = q → q.length < 2 → extractFrame u = .next (respond .incomplete [] u) := by
    intro q hq hl
    have : u.count < 2 := by rw [← logical_length, hq]; exact hl
    simp [extractFrame, this, raise]
  match hq : logical u with
  | [] =>
    exact ⟨_, ⟨.incomplete, [], none⟩, short _ hq (by decide), rfl, rfl, hq, fun _ => rfl, nofun, hr⟩
  | [m] =>
    exact ⟨_, ⟨.incomplete, [m], none⟩, short _ hq (by simp), rfl, rfl, hq, fun _ => rfl, nofun, hr⟩
  | m :: len :: body =>
    obtain ⟨hn, hps, hb, htk⟩ := candidate_reads hq
    have hc : RingInv (copyPayload u) := by
      simpa only [RingInv, copyPayload_cap, copyPayload_count, copyPayload_head, copyPayload_tail] using hr
    have hcn : (copyPayload u).count = u.count := copyPayload_count u
    obtain ⟨a, e⟩ | ⟨a, b, e⟩ | ⟨a, b, c, e⟩ | ⟨a, b, c, e⟩ := extractFrame_cases u
    · refine ⟨_, ⟨.incomplete, m :: len :: body, none⟩, e, ?_, rfl, hq, fun _ => rfl, nofun, hr⟩
      rw [extractCandidate, if_pos (by omega)]
    · rw [hps, hb _ (by omega)] at b
      refine ⟨_, ⟨.endMismatch, if u.emDrop then len :: body else m :: len :: body, none⟩, e, ?_, rfl, ?_, fun _ => ?_,
        nofun, ?_⟩
      · rw [extractCandidate, if_neg (c := body.length < len.toNat + 2) (by omega), if_pos b]
      · rw [logical_respond]
        split
        · rw [logical_dropBytes, hq]
          rfl
        · exact hq
      · rw [respond_pl]
        split <;> rfl
      · show RingInv (if u.emDrop then dropBytes 1 u else u)
        split
        · exact ringInv_dropBytes hr (by omega)
        · exact hr
    · rw [hps, hb _ (by omega)] at b
      rw [hps, htk _ (by omega), hb (len.toNat + 1) (by omega)] at c
      obtain ⟨p1, p2, p3⟩ :=
        payload_stored (t := respond .crcFail [] (dropBytes 1 (copyPayload u))) hq (by omega) rfl rfl
      refine ⟨_, ⟨.crcFail, len :: body, some (body.take len.toNat)⟩, e, ?_, rfl, ?_, nofun, ?_,
        ringInv_dropBytes hc (by omega)⟩
      · rw [extractCandidate, if_neg (by omega), if_neg (not_not.mpr b), if_pos c]
      · rw [logical_respond, logical_dropBytes, logical_copyPayload, hq]
        rfl
      · rintro p ⟨⟩
        rw [p1]
        exact ⟨hps.symm, p2, p3⟩
    · rw [hps, hb _ (by omega)] at b
      rw [hps, htk _ (by omega), hb (len.toNat + 1) (by omega)] at c
      obtain ⟨p1, p2, p3⟩ :=
        payload_stored (t := respond .ok [] (dropBytes (payloadSize u + 4) (copyPayload u))) hq (by omega) rfl rfl
      refine ⟨_, ⟨.ok, body.drop (len.toNat + 2), some (body.take len.toNat)⟩, e, ?_, rfl, ?_, nofun, ?_,
        ringInv_dropBytes hc (by omega)⟩
      · rw [extractCandidate, if_neg (by omega), if_neg (not_not.mpr b), if_neg (not_not.mpr c)]
      · rw [logical_respond, logical_dropBytes, logical_copyPayload, hq, hps]
        rfl
      · rintro p ⟨⟩
        rw [p1]
        exact ⟨hps.symm, p2, p3⟩

end Sys2Proof.Machine
end

