-- ==== Sys2Proof/Laws/Frame.lean ====
section
/-! SUPPORT. The frame of each shared operation as one equation: the state it leaves is the state it started from with the
named fields replaced (10_state.md R34). -/

namespace Sys2Proof.Machine

/-- Pushes touch the ring only (R94, R97, R108). -/
theorem pushBytes_frame (bytes : List Byte) (s : State) : pushBytes bytes s =
    { s with head := (pushBytes bytes s).head, tail := (pushBytes bytes s).tail, count := (pushBytes bytes s).count,
             st := (pushBytes bytes s).st } := by
  induction bytes generalizing s with
  | nil => rfl
  | cons b bs ih => rw [pushBytes_cons, ih (pushByte b s)]; rfl

/-- Resynchronisation moves `head` and `count` only (R111). -/
theorem resync_frame (n : Nat) (s : State) :
    resync n s = { s with head := (resync n s).head, count := (resync n s).count } := by
  induction n generalizing s with
  | zero => rfl
  | succ n ih =>
    simp only [resync]
    split
    · rw [ih]; rfl
    · rfl

theorem memWriteN_pl_frame (a : Nat) (vs : List Byte) (s : State) :
    memWriteN .pl a vs s = { s with pl := (memWriteN .pl a vs s).pl } := by
  induction vs generalizing a s with
  | nil => rfl
  | cons v vs ih => simp only [memWriteN]; rw [ih]; rfl

theorem memWriteN_msg_frame (a : Nat) (vs : List Byte) (s : State) :
    memWriteN .msg a vs s = { s with msg := (memWriteN .msg a vs s).msg } := by
  induction vs generalizing a s with
  | nil => rfl
  | cons v vs ih => simp only [memWriteN]; rw [ih]; rfl

/-- Step 7 writes `PL` only (R116). -/
theorem copyPayload_frame (s : State) : copyPayload s = { s with pl := (copyPayload s).pl } :=
  memWriteN_pl_frame ..

/-- `build_frame` writes `MSG` and `msg_len` only (R125). -/
theorem buildFrame_frame (code : Byte) (data : List Byte) (s : State) :
    buildFrame code data s
      = { s with msg := (buildFrame code data s).msg, msgLen := (buildFrame code data s).msgLen } := by
  simp only [buildFrame]
  rw [memWriteN_msg_frame]

end Sys2Proof.Machine
end

