-- ==== Sys2Proof/Laws/PerInstr.lean ====
section
/-! SUPPORT. Statements made per instruction: the encoder's words have the shape the opcode map asks for (30_encoding.md
R77, R80). -/

namespace Sys2Proof.Laws

/-- The first byte of an instruction's encoding selects a row of the opcode map, and a well-formed instruction's encoding
has exactly the length that row asks for. -/
def EncodeShape.Statement (i : Instr) : Prop :=
  ∃ o, Op.ofByte (byteAt (encode i) 0) = some o
    ∧ (i.wf = true → (encode i).length = o.length (halfAt (encode i) 1).toNat)

/-- A counted command is as long as its count operand says. -/
theorem counted_length (b : Byte) (bytes : List Byte) (h : bytes.length < 65536) :
    (b :: (countBytes bytes ++ bytes)).length = 3 + (halfAt (b :: (countBytes bytes ++ bytes)) 1).toNat := by
  have e : halfAt (b :: (countBytes bytes ++ bytes)) 1 = BitVec.ofNat 16 bytes.length :=
    half_of_bytes (BitVec.ofNat 16 bytes.length)
  rw [e, BitVec.toNat_ofNat, Nat.mod_eq_of_lt (by omega)]
  simp [countBytes]
  omega

theorem EncodeShape.isfull : EncodeShape.Statement (.isfull) :=
  ⟨.isfull, rfl, fun _ => rfl⟩

theorem EncodeShape.isempty : EncodeShape.Statement (.isempty) :=
  ⟨.isempty, rfl, fun _ => rfl⟩

theorem EncodeShape.size : EncodeShape.Statement (.size) :=
  ⟨.size, rfl, fun _ => rfl⟩

theorem EncodeShape.push (b : Byte) : EncodeShape.Statement (.push b) :=
  ⟨.push, rfl, fun _ => rfl⟩

theorem EncodeShape.pop : EncodeShape.Statement (.pop) :=
  ⟨.pop, rfl, fun _ => rfl⟩

theorem EncodeShape.top : EncodeShape.Statement (.top) :=
  ⟨.top, rfl, fun _ => rfl⟩

theorem EncodeShape.insert (bytes : List Byte) : EncodeShape.Statement (.insert bytes) :=
  ⟨.insert, rfl, fun h => counted_length _ bytes (of_decide_eq_true h)⟩

theorem EncodeShape.index (k : Half) : EncodeShape.Statement (.index k) :=
  ⟨.index, rfl, fun _ => rfl⟩

theorem EncodeShape.feed (bytes : List Byte) : EncodeShape.Statement (.feed bytes) :=
  ⟨.feed, rfl, fun h => counted_length _ bytes (of_decide_eq_true h)⟩

theorem EncodeShape.extract : EncodeShape.Statement (.extract) :=
  ⟨.extract, rfl, fun _ => rfl⟩

theorem EncodeShape.pld (k : Byte) : EncodeShape.Statement (.pld k) :=
  ⟨.pld, rfl, fun _ => rfl⟩

theorem EncodeShape.msglen : EncodeShape.Statement (.msglen) :=
  ⟨.msglen, rfl, fun _ => rfl⟩

theorem EncodeShape.msgrd (k : Byte) : EncodeShape.Statement (.msgrd k) :=
  ⟨.msgrd, rfl, fun _ => rfl⟩

theorem EncodeShape.packB1 (code : Byte) (b0 : Byte) : EncodeShape.Statement (.packB1 code b0) :=
  ⟨.pack .b1, rfl, fun _ => rfl⟩

theorem EncodeShape.packB2 (code : Byte) (b0 b1 : Byte) : EncodeShape.Statement (.packB2 code b0 b1) :=
  ⟨.pack .b2, rfl, fun _ => rfl⟩

theorem EncodeShape.packB3 (code : Byte) (b0 b1 b2 : Byte) : EncodeShape.Statement (.packB3 code b0 b1 b2) :=
  ⟨.pack .b3, rfl, fun _ => rfl⟩

theorem EncodeShape.packI1 (code : Byte) (v0 : Half) : EncodeShape.Statement (.packI1 code v0) :=
  ⟨.pack .i1, rfl, fun _ => rfl⟩

theorem EncodeShape.packI2 (code : Byte) (v0 v1 : Half) : EncodeShape.Statement (.packI2 code v0 v1) :=
  ⟨.pack .i2, rfl, fun _ => rfl⟩

theorem EncodeShape.packI3 (code : Byte) (v0 v1 v2 : Half) : EncodeShape.Statement (.packI3 code v0 v1 v2) :=
  ⟨.pack .i3, rfl, fun _ => rfl⟩

theorem EncodeShape.packI7 (code : Byte) (v0 v1 v2 v3 v4 v5 v6 : Half) : EncodeShape.Statement (.packI7 code v0 v1 v2 v3 v4 v5 v6) :=
  ⟨.pack .i7, rfl, fun _ => rfl⟩

theorem EncodeShape.packF1 (code : Byte) (f0 : Word) : EncodeShape.Statement (.packF1 code f0) :=
  ⟨.pack .f1, rfl, fun _ => rfl⟩

theorem EncodeShape.packF2 (code : Byte) (f0 f1 : Word) : EncodeShape.Statement (.packF2 code f0 f1) :=
  ⟨.pack .f2, rfl, fun _ => rfl⟩

theorem EncodeShape.packF3 (code : Byte) (f0 f1 f2 : Word) : EncodeShape.Statement (.packF3 code f0 f1 f2) :=
  ⟨.pack .f3, rfl, fun _ => rfl⟩

theorem EncodeShape.packF4 (code : Byte) (f0 f1 f2 f3 : Word) : EncodeShape.Statement (.packF4 code f0 f1 f2 f3) :=
  ⟨.pack .f4, rfl, fun _ => rfl⟩

theorem EncodeShape.packF6 (code : Byte) (f0 f1 f2 f3 f4 f5 : Word) : EncodeShape.Statement (.packF6 code f0 f1 f2 f3 f4 f5) :=
  ⟨.pack .f6, rfl, fun _ => rfl⟩

theorem EncodeShape.packF8 (code : Byte) (f0 f1 f2 f3 f4 f5 f6 f7 : Word) : EncodeShape.Statement (.packF8 code f0 f1 f2 f3 f4 f5 f6 f7) :=
  ⟨.pack .f8, rfl, fun _ => rfl⟩

theorem EncodeShape.packB1F3 (code : Byte) (b0 : Byte) (f0 f1 f2 : Word) : EncodeShape.Statement (.packB1F3 code b0 f0 f1 f2) :=
  ⟨.pack .b1f3, rfl, fun _ => rfl⟩

theorem EncodeShape.packB2F1 (code : Byte) (b0 b1 : Byte) (f0 : Word) : EncodeShape.Statement (.packB2F1 code b0 b1 f0) :=
  ⟨.pack .b2f1, rfl, fun _ => rfl⟩

theorem EncodeShape.unpackB1 : EncodeShape.Statement (.unpackB1) :=
  ⟨.unpack .b1, rfl, fun _ => rfl⟩

theorem EncodeShape.unpackB2 : EncodeShape.Statement (.unpackB2) :=
  ⟨.unpack .b2, rfl, fun _ => rfl⟩

theorem EncodeShape.unpackB3 : EncodeShape.Statement (.unpackB3) :=
  ⟨.unpack .b3, rfl, fun _ => rfl⟩

theorem EncodeShape.unpackI1 : EncodeShape.Statement (.unpackI1) :=
  ⟨.unpack .i1, rfl, fun _ => rfl⟩

theorem EncodeShape.unpackI2 : EncodeShape.Statement (.unpackI2) :=
  ⟨.unpack .i2, rfl, fun _ => rfl⟩

theorem EncodeShape.unpackI3 : EncodeShape.Statement (.unpackI3) :=
  ⟨.unpack .i3, rfl, fun _ => rfl⟩

theorem EncodeShape.unpackI7 : EncodeShape.Statement (.unpackI7) :=
  ⟨.unpack .i7, rfl, fun _ => rfl⟩

theorem EncodeShape.unpackF1 : EncodeShape.Statement (.unpackF1) :=
  ⟨.unpack .f1, rfl, fun _ => rfl⟩

theorem EncodeShape.unpackF2 : EncodeShape.Statement (.unpackF2) :=
  ⟨.unpack .f2, rfl, fun _ => rfl⟩

theorem EncodeShape.unpackF3 : EncodeShape.Statement (.unpackF3) :=
  ⟨.unpack .f3, rfl, fun _ => rfl⟩

theorem EncodeShape.unpackF4 : EncodeShape.Statement (.unpackF4) :=
  ⟨.unpack .f4, rfl, fun _ => rfl⟩

theorem EncodeShape.unpackF6 : EncodeShape.Statement (.unpackF6) :=
  ⟨.unpack .f6, rfl, fun _ => rfl⟩

theorem EncodeShape.unpackF8 : EncodeShape.Statement (.unpackF8) :=
  ⟨.unpack .f8, rfl, fun _ => rfl⟩

theorem EncodeShape.unpackB1F3 : EncodeShape.Statement (.unpackB1F3) :=
  ⟨.unpack .b1f3, rfl, fun _ => rfl⟩

theorem EncodeShape.unpackB2F1 : EncodeShape.Statement (.unpackB2F1) :=
  ⟨.unpack .b2f1, rfl, fun _ => rfl⟩

end Sys2Proof.Laws
end

