-- ==== Sys2Proof/Laws/Runs.lean ====
section
/-! SUPPORT. Runs of commands taken apart: one command in front, two runs one after the other (00_scope.md R19). -/

namespace Sys2Proof.Machine

theorem runAll_cons {i : Instr} {is : List Instr} {s t : State} {r : Response} (h : exec i s = .next t)
    (hr : t.resp = some r) : runAll (i :: is) s = (runAll is t).map fun x => (r :: x.1, x.2) := by
  simp only [runAll, h, hr]

theorem runAll_append (is js : List Instr) (s : State) : runAll (is ++ js) s
    = (runAll is s).bind fun x => (runAll js x.2).map fun y => (x.1 ++ y.1, y.2) := by
  induction is generalizing s with
  | nil => simp [runAll]
  | cons i is ih =>
    simp only [List.cons_append, runAll]
    cases exec i s with
    | next t =>
      cases h : t.resp with
      | none => simp [h]
      | some r =>
        simp only [h, ih]
        cases runAll is t with
        | none => rfl
        | some x => simp only [Option.bind_some, Option.map_some, Option.map_map]; rfl
    | fault f => rfl
    | refused r => rfl

end Sys2Proof.Machine
end

