-- ==== Sys2Proof/Tests/Slice0.lean ====
section
/-! SUPPORT. Tests of the model against the spec's own vectors (95_test_vectors.md), a word of every command's encoding,
ill-formed terms, and one witness for the hypotheses of every statement. Each runs one step on a small state. -/

open Sys2Proof Sys2Proof.Machine

-- One theorem after another: elaborated side by side, the closed evaluations below would each hold a thread of their own.
set_option Elab.async false

namespace Sys2Proof.Tests

/-- A fresh block with the default markers whose ring has taken the given bytes. -/
def ring (cap : Nat) (q : List Byte) : State := pushBytes q (State.resetWith cap false 0x41 0x23)

/-- A fresh block whose payload scratch starts with the given bytes. -/
def loaded (payload : List Byte) : State := memWriteN .pl 0 payload State.reset

/-- The state a command leads to. -/
def after (i : Instr) (s : State) : State :=
  match exec i s with
  | .next t => t
  | .fault _ => s
  | .refused _ => s

theorem exec_after (i : Instr) (s : State) : exec i s = .next (after i s) := by
  obtain ⟨t, h⟩ := exec_next i s
  simp only [after, h]

/-- The response a command gets. -/
def answerOf (i : Instr) (s : State) : Option Response := (after i s).resp

/-- A command packs the given frame, from the default instance. -/
abbrev packs (i : Instr) (frame : List Byte) : Prop :=
  answerOf i State.reset = some (okResponse [BitVec.ofNat 8 frame.length])
    ∧ memReadN .msg 0 frame.length (after i State.reset) = frame

/-- A command unpacks the given payload to the given typed values. -/
abbrev unpacks (i : Instr) (sh : Shape) (payload : List Byte) (code : Byte) (fields : List FieldValue) : Prop :=
  answerOf i (loaded payload) = some (okResponse payload) ∧ typedResult sh payload = (code, fields)

/-- A block whose ring holds the given bytes answers `EXTRACT` with a status and keeps the given contents. -/
abbrev extracts (cap : Nat) (q : List Byte) (st : Status) (left : List Byte) : Prop :=
  answerOf .extract (ring cap q) = some { status := st, result := [] } ∧ logical (after .extract (ring cap q)) = left

/-! ### Well-formedness -/

/-- The byte count of `INSERT` is a `u16` (R76): 65536 bytes are refused, 65535 are not. -/
theorem test_wf_refuses_long_insert : Instr.wf (.insert (List.replicate 65536 0)) = false
    ∧ Instr.wf (.insert (List.replicate 65535 0)) = true := by
  simp only [Instr.wf, countFits, List.length_replicate]
  decide

/-- The byte count of `FEED` is a `u16` (R76). -/
theorem test_wf_refuses_long_feed : Instr.wf (.feed (List.replicate 65536 0)) = false
    ∧ Instr.wf (.feed (List.replicate 65535 0)) = true := by
  simp only [Instr.wf, countFits, List.length_replicate]
  decide

/-! ### Decoding -/

/-- R80 with the vectors V-RB1, V-RB2, V-RB4 and P2. -/
theorem test_decode_ring :
    decode [0x01] = .ok .isfull ∧ decode [0x02] = .ok .isempty ∧ decode [0x03] = .ok .size
    ∧ decode [0x04, 0x41] = .ok (.push 0x41) ∧ decode [0x05] = .ok .pop ∧ decode [0x06] = .ok .top
    ∧ decode [0x07, 0x03, 0x00, 0x0A, 0x0B, 0x0C] = .ok (.insert [0x0A, 0x0B, 0x0C])
    ∧ decode [0x07, 0x00, 0x00] = .ok (.insert []) ∧ decode [0x08, 0x04, 0x00] = .ok (.index 4)
    ∧ decode [0x08, 0xFF, 0xFF] = .ok (.index 65535) :=
  ⟨rfl, rfl, rfl, rfl, rfl, rfl, rfl, rfl, rfl, rfl⟩

/-- R80 with the vectors P1 and V-EX1. -/
theorem test_decode_ingest :
    decode [0x10, 0x06, 0x00, 0x41, 0x02, 0x05, 0xC8, 0x23, 0xF7] = .ok (.feed [0x41, 2, 5, 200, 0x23, 0xF7])
    ∧ decode [0x11] = .ok .extract ∧ decode [0x12, 0xFF] = .ok (.pld 255) ∧ decode [0x13] = .ok .msglen
    ∧ decode [0x14, 0x24] = .ok (.msgrd 36) :=
  ⟨rfl, rfl, rfl, rfl, rfl⟩

/-- V-DEC: the strings the block answers with `ILLEGAL`, the opcode checked before the length. -/
theorem test_decode_rejects :
    decode [0x00] = .error (.illegalOpcode 0x00) ∧ decode [0x2F, 0x01, 0x02] = .error (.illegalOpcode 0x2F)
    ∧ decode [0x04] = .error (.wrongLength .push 1) ∧ decode [0x04, 0x01, 0x02] = .error (.wrongLength .push 3)
    ∧ decode [0x07, 0x00] = .error (.wrongLength .insert 2)
    ∧ decode [0x07, 0x02, 0x00, 0x09] = .error (.wrongLength .insert 4)
    ∧ decode [0x07, 0x01, 0x00, 0x09, 0x0A] = .error (.wrongLength .insert 5)
    ∧ decode [0x25, 0x12, 0x01, 0x00, 0xFE, 0xFF] = .error (.wrongLength (.pack .i3) 6)
    ∧ decode [0x40, 0x00] = .error (.wrongLength (.unpack .b1) 2)
    ∧ decode [0x11, 0x00] = .error (.wrongLength .extract 2) :=
  ⟨rfl, rfl, rfl, rfl, rfl, rfl, rfl, rfl, rfl, rfl⟩

/-- The opcode table's numbering: the first byte is the least significant; `INSERT` with a zero count. -/
theorem test_table_word : decodeTableWord 24 0xC80520 = some (.packB1 5 200)
    ∧ decodeTableWord 24 0x000007 = some (.insert []) ∧ decodeTableWord 8 0x00 = none := by
  decide

/-! ### The ring (95_test_vectors.md V-RB) -/

/-- V-RB1, after `PUSH 3`: `PUSH 4` wraps `tail` and fills the ring. -/
theorem test_push_wraps : (after (.push 4) (ring 4 [1, 2, 3])).tail = 0 ∧ (after (.push 4) (ring 4 [1, 2, 3])).count = 4
    ∧ (after (.push 4) (ring 4 [1, 2, 3])).head = 0 := by
  decide

/-- V-RB1, `PUSH 5`: the oldest byte is evicted. -/
theorem test_push_evicts : (after (.push 5) (ring 4 [1, 2, 3, 4])).head = 1
    ∧ (after (.push 5) (ring 4 [1, 2, 3, 4])).tail = 1
    ∧ (after (.push 5) (ring 4 [1, 2, 3, 4])).st = [(0, 5), (1, 2), (2, 3), (3, 4)]
    ∧ logical (after (.push 5) (ring 4 [1, 2, 3, 4])) = [2, 3, 4, 5] := by
  decide

/-- V-RB1: `ISFULL`. -/
theorem test_isfull : answerOf .isfull (ring 4 [1, 2, 3, 4]) = some (okResponse [1])
    ∧ answerOf .isfull (ring 4 [1, 2, 3]) = some (okResponse [0]) := by
  decide

/-- P2 steps 0 and 24, V-RB3: `ISEMPTY`. -/
theorem test_isempty : answerOf .isempty (ring 4 []) = some (okResponse [1])
    ∧ answerOf .isempty (ring 1 [7]) = some (okResponse [0]) := by
  decide

/-- V-RB8: `SIZE` above 255, low byte first. -/
theorem test_size : answerOf .size { ring 1000 [] with count := 300 } = some (okResponse [0x2C, 0x01]) := by
  decide

/-- V-RB2: `POP` gives the oldest byte and moves `head`. -/
theorem test_pop : answerOf .pop (ring 4 [0xAA, 0xBB, 0xCC]) = some (okResponse [0xAA])
    ∧ logical (after .pop (ring 4 [0xAA, 0xBB, 0xCC])) = [0xBB, 0xCC]
    ∧ (after .pop (ring 4 [0xAA, 0xBB, 0xCC])).head = 1 := by
  decide

/-- V-RB2: `POP` on an empty ring. -/
theorem test_pop_empty : answerOf .pop (ring 4 []) = some (failResponse .empty) := by decide

/-- V-RB9: `TOP` does not consume. -/
theorem test_top : answerOf .top (ring 8 [0x41, 0x02]) = some (okResponse [0x41])
    ∧ logical (after .top (ring 8 [0x41, 0x02])) = [0x41, 0x02] := by
  decide

/-- P6 step 13: `TOP` on an empty ring. -/
theorem test_top_empty : answerOf .top (ring 8 []) = some (failResponse .empty) := by decide

/-- V-RB4: `INSERT` longer than the ring. -/
theorem test_insert_long :
    (after (.insert [0x10, 0x11, 0x12, 0x13, 0x14, 0x15, 0x16, 0x17, 0x18, 0x19]) (ring 4 [])).st
      = [(0, 0x18), (1, 0x19), (2, 0x16), (3, 0x17)]
    ∧ (after (.insert [0x10, 0x11, 0x12, 0x13, 0x14, 0x15, 0x16, 0x17, 0x18, 0x19]) (ring 4 [])).head = 2 := by
  decide

/-- V-RB5: `INSERT` into a partly filled ring evicts one old byte. -/
theorem test_insert_partial :
    logical (after (.insert [0x0A, 0x0B, 0x0C]) (after .pop (ring 4 [1, 2, 3]))) = [3, 0x0A, 0x0B, 0x0C] := by
  decide

/-- V-RB1: `INDEX 3` on a ring whose head is not 0. -/
theorem test_index : answerOf (.index 3) (ring 4 [1, 2, 3, 4, 5, 6]) = some (okResponse [6])
    ∧ answerOf (.index 0) (ring 4 [1, 2, 3, 4, 5, 6]) = some (okResponse [3]) := by
  decide

/-- V-RB1: `INDEX 4` and `INDEX 65535` are out of range. -/
theorem test_index_range : answerOf (.index 4) (ring 4 [1, 2, 3, 4, 5, 6]) = some (failResponse .range)
    ∧ answerOf (.index 65535) (ring 4 [1, 2, 3, 4, 5, 6]) = some (failResponse .range) := by
  decide

/-! ### The deframer (95_test_vectors.md V-CRC, V-EX) -/

/-- V-CRC. -/
theorem test_crc : crc8 [] = 0x00 ∧ crc8 [0x05] = 0x3F ∧ crc8 [0x41] = 0x18 ∧ crc8 [0x05, 0xC9] = 0xA9
    ∧ crc8 [0x01, 0x02, 0x03, 0x04] = 0xF4 ∧ crc8 [0xFF, 0xFF, 0xFF, 0xFF] = 0x8D
    ∧ crc8 [0x12, 0x01, 0x00, 0xFE, 0xFF, 0x2C, 0x01] = 0xD2 := by
  decide +kernel

/-- P1 step 9: `FEED`. -/
theorem test_feed : answerOf (.feed [0x41, 2, 5, 200, 0x23, 0xF7]) (ring 64 []) = some (okResponse [])
    ∧ logical (after (.feed [0x41, 2, 5, 200, 0x23, 0xF7]) (ring 64 [])) = [0x41, 2, 5, 200, 0x23, 0xF7]
    ∧ (after (.feed [0x41, 2, 5, 200, 0x23, 0xF7]) (ring 64 [])).tail = 6 := by
  decide

/-- V-EX2: garbage, then a good frame. -/
theorem test_extract_good :
    extracts 64 [0x00, 0x23, 0xF7, 0x99, 0x41, 0x02, 0x05, 0xC8, 0x23, 0xF7] .ok []
    ∧ (after .extract (ring 64 [0x00, 0x23, 0xF7, 0x99, 0x41, 0x02, 0x05, 0xC8, 0x23, 0xF7])).pl = [(0, 0x05), (1, 0xC8)]
    ∧ (after .extract (ring 64 [0x00, 0x23, 0xF7, 0x99, 0x41, 0x02, 0x05, 0xC8, 0x23, 0xF7])).head = 10 := by
  decide +kernel

/-- V-EX1 (second call), V-EX4, V-EX5, V-EX6, V-EX7, V-EX9, V-EX10, V-EX12, V-EX13: the other ways `EXTRACT` ends. -/
theorem test_extract_fails :
    extracts 64 [] .noData [] ∧ extracts 64 [0x41] .incomplete [0x41] ∧ extracts 64 [0x01, 0x02, 0x03] .incomplete []
    ∧ extracts 64 [0x41, 0x02, 0x05, 0xC9, 0x23, 0xF7, 0x41] .crcFail [0x02, 0x05, 0xC9, 0x23, 0xF7, 0x41]
    ∧ extracts 64 [0x41, 0x02, 0x05, 0xC8, 0x24, 0xF7, 0x41] .endMismatch [0x41, 0x02, 0x05, 0xC8, 0x24, 0xF7, 0x41]
    ∧ extracts 64 [0x41, 0x00, 0x23, 0x00] .ok [] ∧ extracts 64 [0x41, 0x00, 0x23, 0x01] .crcFail [0x00, 0x23, 0x01]
    ∧ extracts 64 [0x41, 0x03, 0x05, 0xC8, 0x23, 0xF7] .incomplete [0x41, 0x03, 0x05, 0xC8, 0x23, 0xF7]
    ∧ extracts 64 [0x41, 0x01, 0x07, 0x23, 0x83, 0x23, 0x80] .ok [0x23, 0x80]
    ∧ extracts 8 [0x41, 0x10, 0x01, 0x02, 0x03] .incomplete [0x41, 0x10, 0x01, 0x02, 0x03] := by
  decide +kernel

/-- V-EX8: with `EM_DROP = 1` a wrong end marker drops the start marker. -/
theorem test_extract_em_drop :
    logical (after .extract { ring 64 [0x41, 0x02, 0x05, 0xC8, 0x24, 0xF7] with emDrop := true })
      = [0x02, 0x05, 0xC8, 0x24, 0xF7] := by
  decide +kernel

/-- V-EX1: `PLD`. -/
theorem test_pld : answerOf (.pld 1) (loaded [0x05, 0xC8]) = some (okResponse [0xC8])
    ∧ answerOf (.pld 255) (loaded [0x05, 0xC8]) = some (failResponse .range) := by
  decide

/-- V-PK, corner cases: `MSGLEN` and `MSGRD` before any pack. -/
theorem test_message_before_pack : answerOf .msglen State.reset = some (okResponse [0])
    ∧ answerOf (.msgrd 0) State.reset = some (failResponse .range) := by
  decide

/-- P1 steps 1, 7 and 8: `MSGLEN` and `MSGRD` after `PACK_B1 5, 200`. -/
theorem test_message_after_pack : answerOf .msglen (after (.packB1 5 200) State.reset) = some (okResponse [6])
    ∧ answerOf (.msgrd 5) (after (.packB1 5 200) State.reset) = some (okResponse [0xF7])
    ∧ answerOf (.msgrd 6) (after (.packB1 5 200) State.reset) = some (failResponse .range) := by
  decide +kernel

/-- P6 step 3: a command of the wrong length is answered `ILLEGAL`; P6 end state: nothing else changed. -/
theorem test_step_illegal : step { State.reset with port := [.command 0x04 [0x01, 0x02]] }
    = .next { State.reset with resp := some (failResponse .illegal) } := rfl

/-- R192, R196: the environment resets with other markers, then packs `PACK_B1 5, 200`: V-PK, corner cases. -/
theorem test_step_reset : step { State.reset with port := [.reset 0x7E 0x7F], count := 3, msgLen := 6 }
    = .next { State.reset with sm := 0x7E, em := 0x7F, draw := 1 } := rfl

/-- The instruction the host places is the one the next step runs: `PUSH 0x41`. -/
theorem test_fetch_word : step (State.reset.withFetchWord 16 0x4104)
    = .next { State.reset with tail := 1, count := 1, st := [(0, 0x41)], resp := some (okResponse []) } := rfl

/-! ### Packing (95_test_vectors.md V-PK) -/

/-- V-PK, column "command bytes" (R80, R76). -/
theorem test_decode_pack_bytes :
    decode [0x20, 0x05, 0xC8] = .ok (.packB1 5 200)
    ∧ decode [0x21, 0x06, 0x00, 0xFF] = .ok (.packB2 6 0 255)
    ∧ decode [0x22, 0x07, 0x01, 0x02, 0x03] = .ok (.packB3 7 1 2 3) :=
  ⟨rfl, rfl, rfl⟩

/-- V-PK, column "command bytes" (R80, R76). -/
theorem test_decode_pack_integers :
    decode [0x23, 0x10, 0x00, 0x80] = .ok (.packI1 16 (-32768))
    ∧ decode [0x24, 0x11, 0xFF, 0x7F, 0xFF, 0xFF] = .ok (.packI2 17 32767 (-1))
    ∧ decode [0x25, 0x12, 0x01, 0x00, 0xFE, 0xFF, 0x2C, 0x01] = .ok (.packI3 18 1 (-2) 300)
    ∧ decode [0x26, 0x13, 0x00, 0x00, 0x01, 0x00, 0xFF, 0xFF, 0x00, 0x01, 0x00, 0xFF, 0xFF, 0x7F, 0x00, 0x80] = .ok
        (.packI7 19 0 1 (-1) 256 (-256) 32767 (-32768)) :=
  ⟨rfl, rfl, rfl, rfl⟩

/-- V-PK, column "command bytes" (R80, R76). -/
theorem test_decode_pack_floats :
    decode [0x27, 0x20, 0x00, 0x00, 0x80, 0x3F] = .ok (.packF1 32 0x3F800000)
    ∧ decode [0x28, 0x21, 0x00, 0x00, 0x00, 0xC0, 0x00, 0x00, 0x00, 0x3F] = .ok (.packF2 33 0xC0000000 0x3F000000)
    ∧ decode [0x29, 0x22, 0x00, 0x00, 0x00, 0x00, 0x00, 0x00, 0x00, 0x80, 0x00, 0x00, 0xC0, 0x3F] = .ok (.packF3 34
        0x00000000 0x80000000 0x3FC00000)
    ∧ decode [0x2A, 0x23, 0x00, 0x00, 0x80, 0x3F, 0x00, 0x00, 0x00, 0x40, 0x00, 0x00, 0x40, 0x40, 0x00, 0x00, 0x80,
        0x40] = .ok (.packF4 35 0x3F800000 0x40000000 0x40400000 0x40800000)
    ∧ decode [0x2B, 0x24, 0x00, 0x00, 0x80, 0x3E, 0x00, 0x00, 0x80, 0xBE, 0x00, 0x00, 0xC8, 0x42, 0x00, 0x00, 0xC8,
        0xC2, 0x00, 0x00, 0x40, 0x40, 0x00, 0x00, 0x80, 0x47] = .ok (.packF6 36 0x3E800000 0xBE800000 0x42C80000
        0xC2C80000 0x40400000 0x47800000)
    ∧ decode [0x2C, 0x25, 0x00, 0x00, 0x80, 0x3F, 0x00, 0x00, 0x00, 0x40, 0x00, 0x00, 0x80, 0x40, 0x00, 0x00, 0x00,
        0x41, 0x00, 0x00, 0x80, 0x41, 0x00, 0x00, 0x00, 0x42, 0x00, 0x00, 0x80, 0x42, 0x00, 0x00, 0x00, 0x43] = .ok
        (.packF8 37 0x3F800000 0x40000000 0x40800000 0x41000000 0x41800000 0x42000000 0x42800000 0x43000000) :=
  ⟨rfl, rfl, rfl, rfl, rfl, rfl⟩

/-- V-PK, column "command bytes" (R80, R76). -/
theorem test_decode_pack_mixed :
    decode [0x2D, 0x30, 0x09, 0x00, 0x00, 0x80, 0x3F, 0x00, 0x00, 0x80, 0xBF, 0x00, 0x00, 0x00, 0x3F] = .ok
        (.packB1F3 48 9 0x3F800000 0xBF800000 0x3F000000)
    ∧ decode [0x2E, 0x31, 0x41, 0x23, 0x00, 0x00, 0x20, 0x40] = .ok (.packB2F1 49 0x41 0x23 0x40200000) :=
  ⟨rfl, rfl⟩

/-- V-PK `PACK_B1`: the response and the message. -/
theorem test_pack_b1 : packs (.packB1 5 200)
    [0x41, 0x02, 0x05, 0xC8, 0x23, 0xF7] := by
  decide +kernel

/-- V-PK `PACK_B2`: the response and the message. -/
theorem test_pack_b2 : packs (.packB2 6 0 255)
    [0x41, 0x03, 0x06, 0x00, 0xFF, 0x23, 0xE4] := by
  decide +kernel

/-- V-PK `PACK_B3`: the response and the message. -/
theorem test_pack_b3 : packs (.packB3 7 1 2 3)
    [0x41, 0x04, 0x07, 0x01, 0x02, 0x03, 0x23, 0x5E] := by
  decide +kernel

/-- V-PK `PACK_I1`: the response and the message. -/
theorem test_pack_i1 : packs (.packI1 16 (-32768))
    [0x41, 0x03, 0x10, 0x00, 0x80, 0x23, 0xC6] := by
  decide +kernel

/-- V-PK `PACK_I2`: the response and the message. -/
theorem test_pack_i2 : packs (.packI2 17 32767 (-1))
    [0x41, 0x05, 0x11, 0xFF, 0x7F, 0xFF, 0xFF, 0x23, 0x5E] := by
  decide +kernel

/-- V-PK `PACK_I3`: the response and the message. -/
theorem test_pack_i3 : packs (.packI3 18 1 (-2) 300)
    [0x41, 0x07, 0x12, 0x01, 0x00, 0xFE, 0xFF, 0x2C, 0x01, 0x23, 0xD2] := by
  decide +kernel

/-- V-PK `PACK_I7`: the response and the message. -/
theorem test_pack_i7 : packs (.packI7 19 0 1 (-1) 256 (-256) 32767 (-32768))
    [0x41, 0x0F, 0x13, 0x00, 0x00, 0x01, 0x00, 0xFF, 0xFF, 0x00, 0x01, 0x00, 0xFF, 0xFF, 0x7F, 0x00, 0x80, 0x23,
      0x61] := by
  decide +kernel

/-- V-PK `PACK_F1`: the response and the message. -/
theorem test_pack_f1 : packs (.packF1 32 0x3F800000)
    [0x41, 0x05, 0x20, 0x00, 0x00, 0x80, 0x3F, 0x23, 0x28] := by
  decide +kernel

/-- V-PK `PACK_F2`: the response and the message. -/
theorem test_pack_f2 : packs (.packF2 33 0xC0000000 0x3F000000)
    [0x41, 0x09, 0x21, 0x00, 0x00, 0x00, 0xC0, 0x00, 0x00, 0x00, 0x3F, 0x23, 0x14] := by
  decide +kernel

/-- V-PK `PACK_F3`: the response and the message. -/
theorem test_pack_f3 : packs (.packF3 34 0x00000000 0x80000000 0x3FC00000)
    [0x41, 0x0D, 0x22, 0x00, 0x00, 0x00, 0x00, 0x00, 0x00, 0x00, 0x80, 0x00, 0x00, 0xC0, 0x3F, 0x23, 0xDA] := by
  decide +kernel

/-- V-PK `PACK_F4`: the response and the message. -/
theorem test_pack_f4 : packs (.packF4 35 0x3F800000 0x40000000 0x40400000 0x40800000)
    [0x41, 0x11, 0x23, 0x00, 0x00, 0x80, 0x3F, 0x00, 0x00, 0x00, 0x40, 0x00, 0x00, 0x40, 0x40, 0x00, 0x00, 0x80,
      0x40, 0x23, 0x80] := by
  decide +kernel

/-- V-PK `PACK_F6`: the response and the message. -/
theorem test_pack_f6 : packs (.packF6 36 0x3E800000 0xBE800000 0x42C80000 0xC2C80000 0x40400000 0x47800000)
    [0x41, 0x19, 0x24, 0x00, 0x00, 0x80, 0x3E, 0x00, 0x00, 0x80, 0xBE, 0x00, 0x00, 0xC8, 0x42, 0x00, 0x00, 0xC8,
      0xC2, 0x00, 0x00, 0x40, 0x40, 0x00, 0x00, 0x80, 0x47, 0x23, 0x89] := by
  decide +kernel

/-- V-PK `PACK_F8`: the response and the message. -/
theorem test_pack_f8 : packs (.packF8 37 0x3F800000 0x40000000 0x40800000 0x41000000 0x41800000 0x42000000 0x42800000
      0x43000000)
    [0x41, 0x21, 0x25, 0x00, 0x00, 0x80, 0x3F, 0x00, 0x00, 0x00, 0x40, 0x00, 0x00, 0x80, 0x40, 0x00, 0x00, 0x00,
      0x41, 0x00, 0x00, 0x80, 0x41, 0x00, 0x00, 0x00, 0x42, 0x00, 0x00, 0x80, 0x42, 0x00, 0x00, 0x00, 0x43, 0x23,
      0x8B] := by
  decide +kernel

/-- V-PK `PACK_B1F3`: the response and the message. -/
theorem test_pack_b1f3 : packs (.packB1F3 48 9 0x3F800000 0xBF800000 0x3F000000)
    [0x41, 0x0E, 0x30, 0x09, 0x00, 0x00, 0x80, 0x3F, 0x00, 0x00, 0x80, 0xBF, 0x00, 0x00, 0x00, 0x3F, 0x23, 0x57] := by
  decide +kernel

/-- V-PK `PACK_B2F1`: the response and the message. -/
theorem test_pack_b2f1 : packs (.packB2F1 49 0x41 0x23 0x40200000)
    [0x41, 0x07, 0x31, 0x41, 0x23, 0x00, 0x00, 0x20, 0x40, 0x23, 0x5A] := by
  decide +kernel

/-! ### Unpacking (95_test_vectors.md V-UN) -/

/-- V-UN, column "bytes" (R80). -/
theorem test_decode_unpack :
    decode [0x40] = .ok .unpackB1
    ∧ decode [0x41] = .ok .unpackB2
    ∧ decode [0x42] = .ok .unpackB3
    ∧ decode [0x43] = .ok .unpackI1
    ∧ decode [0x44] = .ok .unpackI2
    ∧ decode [0x45] = .ok .unpackI3
    ∧ decode [0x46] = .ok .unpackI7
    ∧ decode [0x47] = .ok .unpackF1
    ∧ decode [0x48] = .ok .unpackF2
    ∧ decode [0x49] = .ok .unpackF3
    ∧ decode [0x4A] = .ok .unpackF4
    ∧ decode [0x4B] = .ok .unpackF6
    ∧ decode [0x4C] = .ok .unpackF8
    ∧ decode [0x4D] = .ok .unpackB1F3
    ∧ decode [0x4E] = .ok .unpackB2F1 :=
  ⟨rfl, rfl, rfl, rfl, rfl, rfl, rfl, rfl, rfl, rfl, rfl, rfl, rfl, rfl, rfl⟩

/-- V-UN `UNPACK_B1`: the response and the typed result. -/
theorem test_unpack_b1 : unpacks .unpackB1 .b1
    [0x05, 0xC8]
    5 [.byte 200] := by
  decide +kernel

/-- V-UN `UNPACK_B2`: the response and the typed result. -/
theorem test_unpack_b2 : unpacks .unpackB2 .b2
    [0x06, 0x00, 0xFF]
    6 [.byte 0, .byte 255] := by
  decide +kernel

/-- V-UN `UNPACK_B3`: the response and the typed result. -/
theorem test_unpack_b3 : unpacks .unpackB3 .b3
    [0x07, 0x01, 0x02, 0x03]
    7 [.byte 1, .byte 2, .byte 3] := by
  decide +kernel

/-- V-UN `UNPACK_I1`: the response and the typed result. -/
theorem test_unpack_i1 : unpacks .unpackI1 .i1
    [0x10, 0x00, 0x80]
    16 [.int16 (-32768)] := by
  decide +kernel

/-- V-UN `UNPACK_I2`: the response and the typed result. -/
theorem test_unpack_i2 : unpacks .unpackI2 .i2
    [0x11, 0xFF, 0x7F, 0xFF, 0xFF]
    17 [.int16 32767, .int16 (-1)] := by
  decide +kernel

/-- V-UN `UNPACK_I3`: the response and the typed result. -/
theorem test_unpack_i3 : unpacks .unpackI3 .i3
    [0x12, 0x01, 0x00, 0xFE, 0xFF, 0x2C, 0x01]
    18 [.int16 1, .int16 (-2), .int16 300] := by
  decide +kernel

/-- V-UN `UNPACK_I7`: the response and the typed result. -/
theorem test_unpack_i7 : unpacks .unpackI7 .i7
    [0x13, 0x00, 0x00, 0x01, 0x00, 0xFF, 0xFF, 0x00, 0x01, 0x00, 0xFF, 0xFF, 0x7F, 0x00, 0x80]
    19 [.int16 0, .int16 1, .int16 (-1), .int16 256, .int16 (-256), .int16 32767, .int16 (-32768)] := by
  decide +kernel

/-- V-UN `UNPACK_F1`: the response and the typed result. -/
theorem test_unpack_f1 : unpacks .unpackF1 .f1
    [0x20, 0x00, 0x00, 0x80, 0x3F]
    32 [.float32 0x3F800000] := by
  decide +kernel

/-- V-UN `UNPACK_F2`: the response and the typed result. -/
theorem test_unpack_f2 : unpacks .unpackF2 .f2
    [0x21, 0x00, 0x00, 0x00, 0xC0, 0x00, 0x00, 0x00, 0x3F]
    33 [.float32 0xC0000000, .float32 0x3F000000] := by
  decide +kernel

/-- V-UN `UNPACK_F3`: the response and the typed result. -/
theorem test_unpack_f3 : unpacks .unpackF3 .f3
    [0x22, 0x00, 0x00, 0x00, 0x00, 0x00, 0x00, 0x00, 0x80, 0x00, 0x00, 0xC0, 0x3F]
    34 [.float32 0x00000000, .float32 0x80000000, .float32 0x3FC00000] := by
  decide +kernel

/-- V-UN `UNPACK_F4`: the response and the typed result. -/
theorem test_unpack_f4 : unpacks .unpackF4 .f4
    [0x23, 0x00, 0x00, 0x80, 0x3F, 0x00, 0x00, 0x00, 0x40, 0x00, 0x00, 0x40, 0x40, 0x00, 0x00, 0x80, 0x40]
    35 [.float32 0x3F800000, .float32 0x40000000, .float32 0x40400000, .float32 0x40800000] := by
  decide +kernel

/-- V-UN `UNPACK_F6`: the response and the typed result. -/
theorem test_unpack_f6 : unpacks .unpackF6 .f6
    [0x24, 0x00, 0x00, 0x80, 0x3E, 0x00, 0x00, 0x80, 0xBE, 0x00, 0x00, 0xC8, 0x42, 0x00, 0x00, 0xC8, 0xC2, 0x00,
      0x00, 0x40, 0x40, 0x00, 0x00, 0x80, 0x47]
    36 [.float32 0x3E800000, .float32 0xBE800000, .float32 0x42C80000, .float32 0xC2C80000, .float32 0x40400000,
      .float32 0x47800000] := by
  decide +kernel

/-- V-UN `UNPACK_F8`: the response and the typed result. -/
theorem test_unpack_f8 : unpacks .unpackF8 .f8
    [0x25, 0x00, 0x00, 0x80, 0x3F, 0x00, 0x00, 0x00, 0x40, 0x00, 0x00, 0x80, 0x40, 0x00, 0x00, 0x00, 0x41, 0x00,
      0x00, 0x80, 0x41, 0x00, 0x00, 0x00, 0x42, 0x00, 0x00, 0x80, 0x42, 0x00, 0x00, 0x00, 0x43]
    37 [.float32 0x3F800000, .float32 0x40000000, .float32 0x40800000, .float32 0x41000000, .float32 0x41800000,
      .float32 0x42000000, .float32 0x42800000, .float32 0x43000000] := by
  decide +kernel

/-- V-UN `UNPACK_B1F3`: the response and the typed result. -/
theorem test_unpack_b1f3 : unpacks .unpackB1F3 .b1f3
    [0x30, 0x09, 0x00, 0x00, 0x80, 0x3F, 0x00, 0x00, 0x80, 0xBF, 0x00, 0x00, 0x00, 0x3F]
    48 [.byte 9, .float32 0x3F800000, .float32 0xBF800000, .float32 0x3F000000] := by
  decide +kernel

/-- V-UN `UNPACK_B2F1`: the response and the typed result. -/
theorem test_unpack_b2f1 : unpacks .unpackB2F1 .b2f1
    [0x31, 0x41, 0x23, 0x00, 0x00, 0x20, 0x40]
    49 [.byte 0x41, .byte 0x23, .float32 0x40200000] := by
  decide +kernel

/-! ### Witnesses: states and operands that meet the hypotheses of each statement -/

theorem test_witness_UnwrittenBytesKeepTheirDraw :
    exec (.push 7) (ring 4 []) = .next (after (.push 7) (ring 4 []))
    ∧ Mem.lookup (cells .st (after (.push 7) (ring 4 []))) 1 = none := ⟨rfl, by decide⟩

/-- Both ends of the range of `CAP`. -/
theorem test_witness_ResetStateIsLegal : 1 ≤ 1 ∧ 1 ≤ 65535 ∧ 65535 ≤ 65535 := by decide

theorem test_witness_EveryStepKeepsTheStateLegal : StateLegal { ring 4 [1, 2, 3, 4, 5] with port := [.command 0x05 []] }
    ∧ step { ring 4 [1, 2, 3, 4, 5] with port := [.command 0x05 []] }
      = .next (after .pop (ring 4 [1, 2, 3, 4, 5])) := ⟨by decide, rfl⟩

/-- An empty, a full and a wrapped ring; the smallest capacity. -/
theorem test_witness_RingRegistersStayConsistent : RingInv (ring 1 []) ∧ RingInv (ring 4 [1, 2, 3, 4, 5])
    ∧ exec .pop (ring 4 [1, 2, 3, 4, 5]) = .next (after .pop (ring 4 [1, 2, 3, 4, 5]))
    ∧ (ring 4 [1, 2, 3, 4, 5]).count = (ring 4 [1, 2, 3, 4, 5]).cap := ⟨by decide, by decide, rfl, by decide⟩

/-- A command that does not pack, and the shapes with the shortest and the longest frame. -/
theorem test_witness_OnlyPackWritesTheMessageLength : packOf .size = none
    ∧ exec .size (ring 4 []) = .next (after .size (ring 4 []))
    ∧ packOf (.packB1 5 200) = some (.b1, 5, [.byte 200])
    ∧ (packOf (.packF8 5 0 0 0 0 0 0 0 0)).map (fun x => x.1) = some .f8 := ⟨rfl, rfl, rfl, rfl⟩

theorem test_witness_OnlyResetLoadsTheMarkers :
    step { State.reset with port := [.reset 0x7E 0x7F] } = .next { State.reset with sm := 0x7E, em := 0x7F, draw := 1 }
    ∧ step { State.reset with port := [.command 0x13 []] } = .next (after .msglen State.reset)
    ∧ ∀ cs ce rest, [Input.command 0x13 []] ≠ .reset cs ce :: rest := ⟨rfl, rfl, by simp⟩

/-- No operand, an empty list, a list, the largest index. -/
theorem test_witness_DecodeInvertsEncode : Instr.wf .extract = true ∧ Instr.wf (.insert []) = true
    ∧ Instr.wf (.feed [1, 2]) = true ∧ Instr.wf (.index 0xFFFF) = true := by decide

theorem test_witness_EncodeInvertsDecode : decode [0x10, 0x01, 0x00, 0x41] = .ok (.feed [0x41])
    ∧ decode [0x4E] = .ok .unpackB2F1 := ⟨rfl, rfl⟩

/-- The ends of every range of unlisted opcodes. -/
theorem test_witness_UnlistedOpcodesAreIllegal :
    ∀ op ∈ ([0x00, 0x09, 0x0F, 0x15, 0x1F, 0x2F, 0x30, 0x3F, 0x4F, 0x50, 0xFF] : List Byte), Op.ofByte op = none := by
  decide

/-- One byte short, one byte long, a count operand missing; and the right length. -/
theorem test_witness_WrongLengthsAreIllegal : Op.ofByte 0x07 = some .insert
    ∧ [(0x07 : Byte), 0x02, 0x00, 0x09].length ≠ Op.length .insert (halfAt [0x07, 0x02, 0x00, 0x09] 1).toNat
    ∧ [(0x07 : Byte), 0x01, 0x00, 0x09, 0x0A].length
        ≠ Op.length .insert (halfAt [0x07, 0x01, 0x00, 0x09, 0x0A] 1).toNat
    ∧ [(0x07 : Byte), 0x00].length ≠ Op.length .insert (halfAt [0x07, 0x00] 1).toNat
    ∧ [(0x07 : Byte), 0x01, 0x00, 0x09].length = Op.length .insert (halfAt [0x07, 0x01, 0x00, 0x09] 1).toNat := by
  decide

theorem test_witness_StepRunsTheDecodedCommand :
    ({ ring 4 [] with port := [.command 0x04 [0x41]] } : State).port = [.command 0x04 [0x41]]
    ∧ decode [0x04, 0x41] = .ok (.push 0x41) := ⟨rfl, rfl⟩

theorem test_witness_IdleBlockDoesNotChange : (ring 4 [1]).port = [] := by decide

/-- One command of each kind of frame, with a slot that is not written. -/
theorem test_witness_CommandsWriteOnlyTheirState :
    exec (.index 9) (ring 4 [1]) = .next (after (.index 9) (ring 4 [1])) ∧ (unpackOf .unpackI1).isSome = true
    ∧ exec (.insert [8, 9]) (ring 4 [1, 2, 3]) = .next (after (.insert [8, 9]) (ring 4 [1, 2, 3]))
    ∧ (ring 4 [1, 2, 3]).tail < (ring 4 [1, 2, 3]).cap
    ∧ (∀ k < [(8 : Byte), 9].length, 1 ≠ ((ring 4 [1, 2, 3]).tail + k) % (ring 4 [1, 2, 3]).cap)
    ∧ exec .pop (ring 4 [1]) = .next (after .pop (ring 4 [1]))
    ∧ exec .extract (ring 4 [1]) = .next (after .extract (ring 4 [1]))
    ∧ packOf (.packB1 5 200) = some (.b1, 5, [.byte 200])
    ∧ exec (.packB1 5 200) (ring 4 []) = .next (after (.packB1 5 200) (ring 4 [])) :=
  ⟨exec_after .., rfl, exec_after .., by decide, by decide, exec_after .., exec_after .., rfl, exec_after ..⟩

theorem test_witness_RingPredicatesReportTheCount : RingInv (ring 4 [1, 2, 3, 4]) := by decide

/-- A full ring, a ring with one free slot, a slot that is not the tail. -/
theorem test_witness_PushAppendsOrEvicts : (ring 4 [1, 2, 3, 4]).count = (ring 4 [1, 2, 3, 4]).cap
    ∧ (ring 4 [1, 2, 3]).count ≠ (ring 4 [1, 2, 3]).cap ∧ RingInv (ring 4 [1, 2, 3]) ∧ RingInv (ring 4 [1, 2, 3, 4])
    ∧ 0 ≠ (ring 4 [1, 2, 3]).tail := by decide

theorem test_witness_PopReturnsTheOldestByte : (ring 4 []).count = 0 ∧ (ring 4 [1]).count ≠ 0 ∧ RingInv (ring 4 [1]) := by
  decide

theorem test_witness_TopReportsTheOldestByte : (ring 4 []).count = 0 ∧ (ring 4 [1]).count ≠ 0 ∧ RingInv (ring 4 [1]) := by
  decide

/-- As many bytes as the ring has slots; bytes that just fit. -/
theorem test_witness_InsertIsRepeatedPush : RingInv (ring 4 [1, 2])
    ∧ (ring 4 [1, 2]).cap ≤ [(5 : Byte), 6, 7, 8].length
    ∧ (logical (ring 4 [1, 2])).length + [(5 : Byte), 6].length ≤ (ring 4 [1, 2]).cap := by decide

/-- The first index out of range, the last inside. -/
theorem test_witness_IndexReadsTheLogicalByte : (ring 4 [1, 2]).count ≤ (2 : Half).toNat
    ∧ (1 : Half).toNat < (ring 4 [1, 2]).count := by decide

/-- Exactly as many bytes as the ring holds. -/
theorem test_witness_RingIsFifo : CapLegal (ring 4 []) ∧ RingInv (ring 4 []) ∧ logical (ring 4 []) = []
    ∧ [(1 : Byte), 2, 3, 4].length ≤ (ring 4 []).cap := by decide

/-- One byte more than the ring holds. -/
theorem test_witness_OverflowKeepsTheLastBytes : CapLegal (ring 4 []) ∧ RingInv (ring 4 []) ∧ logical (ring 4 []) = []
    ∧ (ring 4 []).cap < [(1 : Byte), 2, 3, 4, 5].length := by decide

theorem test_witness_LogicalModelIsExact : StateLegal (ring 4 [1, 2, 3, 4, 5]) := by decide

/-- The same contents at different physical places. -/
theorem test_witness_PhysicalIndexesAreUnobservable : RingInv (ring 4 [9, 1, 2, 3, 4]) ∧ RingInv (ring 4 [1, 2, 3, 4])
    ∧ ObsEq (ring 4 [9, 1, 2, 3, 4]) (ring 4 [1, 2, 3, 4])
    ∧ (ring 4 [9, 1, 2, 3, 4]).head ≠ (ring 4 [1, 2, 3, 4]).head :=
  ⟨by decide, by decide, ⟨rfl, rfl, by decide, fun _ _ => rfl, rfl, fun _ _ => rfl, rfl, rfl⟩, by decide⟩

/-- A full ring; the first and the last byte of the message; a read; a pack. -/
theorem test_witness_CommandsSeeEarlierWrites : CapLegal (ring 4 [1, 2, 3, 4]) ∧ RingInv (ring 4 [1, 2, 3, 4])
    ∧ packOf (.packB1 5 200) = some (.b1, 5, [.byte 200])
    ∧ exec (.packB1 5 200) (ring 4 []) = .next (after (.packB1 5 200) (ring 4 []))
    ∧ (0 : Byte).toNat < Shape.b1.len + 4 ∧ (5 : Byte).toNat < Shape.b1.len + 4
    ∧ exec .top (ring 4 [1]) = .next (after .top (ring 4 [1])) ∧ ArraysCanonical (ring 4 []) :=
  ⟨by decide, by decide, rfl, rfl, by decide, by decide, rfl, by decide⟩

/-- A lone marker; a frame one byte short; a whole frame with a wrong end marker, and with a wrong checksum. -/
theorem test_witness_FailureStatusesExactlyWhen : RingInv (ring 8 [0x07, 0x41])
    ∧ [0x41] = fromFirst 0x41 (logical (ring 8 [0x07, 0x41]))
    ∧ answerOf .extract (ring 8 [0x07, 0x41]) = some (failResponse .incomplete)
    ∧ [0x41, 0x01, 0x05, 0x23] = fromFirst 0x41 (logical (ring 8 [0x07, 0x41, 0x01, 0x05, 0x23]))
    ∧ answerOf .extract (ring 8 [0x07, 0x41, 0x01, 0x05, 0x23]) = some (failResponse .incomplete)
    ∧ RingInv (ring 4 [0x41, 0x00, 0x24, 0x00])
    ∧ [0x41, 0x00, 0x24, 0x00] = fromFirst 0x41 (logical (ring 4 [0x41, 0x00, 0x24, 0x00]))
    ∧ answerOf .extract (ring 4 [0x41, 0x00, 0x24, 0x00]) = some (failResponse .endMismatch)
    ∧ [0x41, 0x00, 0x23, 0x01] = fromFirst 0x41 (logical (ring 4 [0x41, 0x00, 0x23, 0x01]))
    ∧ answerOf .extract (ring 4 [0x41, 0x00, 0x23, 0x01]) = some (failResponse .crcFail) := by
  decide +kernel

/-- Two sequences of one length; the first bit of the first byte and the last bit of the last. -/
theorem test_witness_ChecksumFacts : [(1 : Byte), 2].length = [(3 : Byte), 4].length ∧ 0 < [(1 : Byte), 2].length
    ∧ 1 < [(1 : Byte), 2].length ∧ 0 < 8 ∧ 7 < 8 ∧ (1 : Byte) ≠ 0x00 := by decide

/-- Dropping nothing and dropping everything. -/
theorem test_witness_DropIsRepeatedPop : RingInv (ring 4 [1, 2, 3]) ∧ 0 ≤ (ring 4 [1, 2, 3]).count
    ∧ 3 ≤ (ring 4 [1, 2, 3]).count := by decide

theorem test_witness_FeedAppendsLikeInsert : RingInv (ring 4 [1, 2, 3]) := by decide

/-- A state for each way the algorithm ends. -/
theorem test_witness_ExtractFollowsTheLogicalAlgorithm : RingInv (ring 64 [0x41, 0x02, 0x05, 0xC8, 0x23, 0xF7])
    ∧ (extractLogical false 0x41 0x23 [0x41, 0x02, 0x05, 0xC8, 0x23, 0xF7]).payload = some [0x05, 0xC8]
    ∧ (extractLogical false 0x41 0x23 [0x41, 0x02, 0x05, 0xC8, 0x23, 0xF6]).payload = some [0x05, 0xC8]
    ∧ (extractLogical false 0x41 0x23 [0x41, 0x02, 0x05, 0xC8, 0x24, 0xF7]).payload = none
    ∧ (extractLogical false 0x41 0x23 [0x41]).payload = none := by
  decide +kernel

theorem test_witness_ExtractOnAnEmptyRing : (ring 4 []).count = 0 := by decide

/-- One byte left after resynchronisation; a frame one byte short; a frame one byte longer than the ring. -/
theorem test_witness_ExtractWaitsForTheWholeFrame : RingInv (ring 8 [0x07, 0x41]) ∧ (ring 8 [0x07, 0x41]).count ≠ 0
    ∧ (fromFirst 0x41 (logical (ring 8 [0x07, 0x41]))).length < 2
    ∧ RingInv (ring 8 [0x07, 0x41, 0x01, 0x05, 0x23])
    ∧ fromFirst 0x41 (logical (ring 8 [0x07, 0x41, 0x01, 0x05, 0x23])) = [0x41, 0x01, 0x05, 0x23]
    ∧ [(0x41 : Byte), 0x01, 0x05, 0x23].length < (0x01 : Byte).toNat + 4
    ∧ RingInv (ring 4 [0x41, 0x01, 0x05, 0x23])
    ∧ fromFirst 0x41 (logical (ring 4 [0x41, 0x01, 0x05, 0x23])) = [0x41, 0x01, 0x05, 0x23]
    ∧ (ring 4 [0x41, 0x01, 0x05, 0x23]).cap < (0x01 : Byte).toNat + 4 := by decide

/-- Both values of `EM_DROP`; an empty payload and a payload behind garbage. -/
theorem test_witness_WrongEndMarkerStallsOrDrops : RingInv (ring 8 [0x07, 0x41, 0x01, 0x05, 0x24, 0x09])
    ∧ (0x41 : Byte) ∉ [(0x07 : Byte)] ∧ [(0x05 : Byte)].length = (0x01 : Byte).toNat ∧ (0x24 : Byte) ≠ 0x23
    ∧ logical (ring 8 [0x07, 0x41, 0x01, 0x05, 0x24, 0x09])
      = [0x07] ++ 0x41 :: 0x01 :: ([0x05] ++ 0x24 :: 0x09 :: [])
    ∧ (ring 8 [0x07, 0x41, 0x01, 0x05, 0x24, 0x09]).emDrop = false
    ∧ RingInv { ring 8 [0x41, 0x00, 0x24, 0x09] with emDrop := true }
    ∧ logical { ring 8 [0x41, 0x00, 0x24, 0x09] with emDrop := true } = [] ++ 0x41 :: 0x00 :: ([] ++ 0x24 :: 0x09 :: [])
    ∧ ({ ring 8 [0x41, 0x00, 0x24, 0x09] with emDrop := true } : State).emDrop = true := by decide

/-- V-EX10 (an empty payload), and V-EX6 behind garbage. -/
theorem test_witness_WrongChecksumDropsTheMarker : RingInv (ring 8 [0x41, 0x00, 0x23, 0x01])
    ∧ (0x41 : Byte) ∉ ([] : List Byte) ∧ ([] : List Byte).length = (0x00 : Byte).toNat ∧ (0x01 : Byte) ≠ crc8 []
    ∧ logical (ring 8 [0x41, 0x00, 0x23, 0x01]) = [] ++ 0x41 :: 0x00 :: ([] ++ 0x23 :: 0x01 :: [])
    ∧ RingInv (ring 8 [0x07, 0x41, 0x02, 0x05, 0xC9, 0x23, 0xF7]) ∧ (0x41 : Byte) ∉ [(0x07 : Byte)]
    ∧ [(0x05 : Byte), 0xC9].length = (0x02 : Byte).toNat ∧ (0xF7 : Byte) ≠ crc8 [0x05, 0xC9]
    ∧ logical (ring 8 [0x07, 0x41, 0x02, 0x05, 0xC9, 0x23, 0xF7])
      = [0x07] ++ 0x41 :: 0x02 :: ([0x05, 0xC9] ++ 0x23 :: 0xF7 :: []) := by
  decide +kernel

/-- V-EX2, with a byte behind the frame. -/
theorem test_witness_ValidFrameIsDelivered : RingInv (ring 8 [0x07, 0x41, 0x02, 0x05, 0xC8, 0x23, 0xF7, 0x09])
    ∧ (0x41 : Byte) ∉ [(0x07 : Byte)] ∧ [(0x05 : Byte), 0xC8].length ≤ 255
    ∧ logical (ring 8 [0x07, 0x41, 0x02, 0x05, 0xC8, 0x23, 0xF7, 0x09])
      = [0x07] ++ wireFrame 0x41 0x23 [0x05, 0xC8] ++ [0x09] := by
  decide +kernel

theorem test_witness_OkMeansAValidFrame : RingInv (ring 8 [0x41, 0x02, 0x05, 0xC8, 0x23, 0xF7])
    ∧ exec .extract (ring 8 [0x41, 0x02, 0x05, 0xC8, 0x23, 0xF7])
      = .next (after .extract (ring 8 [0x41, 0x02, 0x05, 0xC8, 0x23, 0xF7]))
    ∧ (after .extract (ring 8 [0x41, 0x02, 0x05, 0xC8, 0x23, 0xF7])).resp = some (okResponse []) :=
  ⟨by decide, exec_after .., by decide +kernel⟩

theorem test_witness_StepSevenOverwritesThePayload : RingInv (ring 8 [0x41, 0x02, 0x05, 0xC8, 0x23, 0xF7])
    ∧ answerOf .extract (ring 8 [0x41, 0x02, 0x05, 0xC8, 0x23, 0xF7]) = some (okResponse [])
    ∧ answerOf .extract (ring 8 [0x41]) = some (failResponse .incomplete) := by
  decide +kernel

/-- Bytes that just fill the ring. -/
theorem test_witness_FeedingDoesNotEndTheStall : RingInv (ring 8 [0x41, 0x00, 0x24, 0x09])
    ∧ (ring 8 [0x41, 0x00, 0x24, 0x09]).emDrop = false
    ∧ exec .extract (ring 8 [0x41, 0x00, 0x24, 0x09]) = .next (after .extract (ring 8 [0x41, 0x00, 0x24, 0x09]))
    ∧ (after .extract (ring 8 [0x41, 0x00, 0x24, 0x09])).resp = some (failResponse .endMismatch)
    ∧ (after .extract (ring 8 [0x41, 0x00, 0x24, 0x09])).count + [(1 : Byte), 2, 3, 4].length
      ≤ (after .extract (ring 8 [0x41, 0x00, 0x24, 0x09])).cap :=
  ⟨by decide, by decide, exec_after .., by decide +kernel, by decide +kernel⟩

/-- V-EX13 with the ring full; the smallest ring that holds every frame. -/
theorem test_witness_FramesLongerThanTheRingNeverEnd : RingInv (ring 4 [0x41, 0x01, 0x05, 0x23])
    ∧ logical (ring 4 [0x41, 0x01, 0x05, 0x23]) = 0x41 :: 0x01 :: [0x05, 0x23]
    ∧ (ring 4 [0x41, 0x01, 0x05, 0x23]).cap < (0x01 : Byte).toNat + 4 ∧ 259 ≤ (ring 259 []).cap := by decide +kernel

/-- A ring that just holds the frame. -/
theorem test_witness_PartialDeliveryWaitsForTheLastByte : RingInv (ring 6 []) ∧ logical (ring 6 []) = []
    ∧ [(0x05 : Byte), 0xC8].length ≤ 255 ∧ [(0x05 : Byte), 0xC8].length + 4 ≤ (ring 6 []).cap := by decide

/-- V-EX12: `DATA` bit 0, `CRC` bit 0, `END` bit 0, `START` bit 0, `LEN` upward and downward; bit 7 of `CODE`. -/
theorem test_witness_SingleBitFlipAnswers :
    RingInv (ring 6 [0x41, 0x02, 0x05, 0xC9, 0x23, 0xF7])
    ∧ logical (ring 6 [0x41, 0x02, 0x05, 0xC9, 0x23, 0xF7])
      = 0x41 :: 0x02 :: (([0x05, 0xC8] : List Byte).set 1 (flipBit 0xC8 0) ++ [0x23, crc8 [0x05, 0xC8]])
    ∧ logical (ring 6 [0x41, 0x02, 0x85, 0xC8, 0x23, 0xF7])
      = 0x41 :: 0x02 :: (([0x05, 0xC8] : List Byte).set 0 (flipBit 0x05 7) ++ [0x23, crc8 [0x05, 0xC8]])
    ∧ logical (ring 6 [0x41, 0x02, 0x05, 0xC8, 0x23, 0xF6])
      = 0x41 :: 0x02 :: ([0x05, 0xC8] ++ [0x23, flipBit (crc8 [0x05, 0xC8]) 0])
    ∧ logical (ring 6 [0x41, 0x02, 0x05, 0xC8, 0x22, 0xF7])
      = 0x41 :: 0x02 :: ([0x05, 0xC8] ++ [flipBit 0x23 0, crc8 [0x05, 0xC8]])
    ∧ logical (ring 6 [0x40, 0x02, 0x05, 0xC8, 0x23, 0xF7])
      = flipBit 0x41 0 :: 0x02 :: ([0x05, 0xC8] ++ [0x23, crc8 [0x05, 0xC8]])
    ∧ (0x41 : Byte) ∉ (0x02 : Byte) :: ([0x05, 0xC8] ++ [0x23, crc8 [0x05, 0xC8]])
    ∧ logical (ring 6 [0x41, 0x03, 0x05, 0xC8, 0x23, 0xF7])
      = 0x41 :: flipBit 0x02 0 :: ([0x05, 0xC8] ++ [0x23, crc8 [0x05, 0xC8]])
    ∧ 2 < (flipBit 0x02 0).toNat
    ∧ logical (ring 6 [0x41, 0x00, 0x05, 0xC8, 0x23, 0xF7])
      = 0x41 :: flipBit 0x02 1 :: ([0x05, 0xC8] ++ [0x23, crc8 [0x05, 0xC8]])
    ∧ (flipBit 0x02 1).toNat < 2 ∧ ([0x05, 0xC8] : List Byte).getD (flipBit 0x02 1).toNat 0 ≠ 0x23 := by
  decide +kernel

/-- `DATA` bit 0; a `LEN` flip down to a payload that ends before an `EM`, at the last place it can and with the shorter
checksum wrong and right (crc8 of nothing is 0); `START` bit 0 with `SM` as the payload. -/
theorem test_witness_FlippedFrameNeverDeliversItsPayload :
    RingInv (ring 6 [0x41, 0x02, 0x05, 0xC9, 0x23, 0xF7])
    ∧ logical (ring 6 [0x41, 0x02, 0x05, 0xC9, 0x23, 0xF7])
      = (wireFrame 0x41 0x23 [0x05, 0xC8]).set 3 (flipBit ((wireFrame 0x41 0x23 [0x05, 0xC8]).getD 3 0) 0)
    ∧ 0 = (flipBit (BitVec.ofNat 8 [(0x23 : Byte)].length) 0).toNat ∧ [(0x23 : Byte)].getD 0 0 = 0x23
    ∧ RingInv (ring 5 (0x41 :: flipBit 0x01 0 :: ([0x23] ++ [0x23, crc8 [0x23]])))
    ∧ logical (ring 5 (0x41 :: flipBit 0x01 0 :: ([0x23] ++ [0x23, crc8 [0x23]])))
      = 0x41 :: flipBit 0x01 0 :: ([0x23] ++ [0x23, crc8 [0x23]])
    ∧ crc8 [] ≠ ([0x23] ++ [0x23] : List Byte).getD 1 0
    ∧ 0 = (flipBit (BitVec.ofNat 8 [(0x23 : Byte), 0x00].length) 1).toNat ∧ [(0x23 : Byte), 0x00].getD 0 0 = 0x23
    ∧ logical (ring 6 (0x41 :: flipBit 0x02 1 :: ([0x23, 0x00] ++ [0x23, crc8 [0x23, 0x00]])))
      = 0x41 :: flipBit 0x02 1 :: ([0x23, 0x00] ++ [0x23, crc8 [0x23, 0x00]])
    ∧ crc8 [] = ([0x23, 0x00] ++ [0x23] : List Byte).getD 1 0
    ∧ (0x41 : Byte) ∈ (0x01 : Byte) :: ([0x41] ++ [0x23, crc8 [0x41]])
    ∧ logical (ring 5 (flipBit 0x41 0 :: 0x01 :: ([0x41] ++ [0x23, crc8 [0x41]])))
      = flipBit 0x41 0 :: 0x01 :: ([0x41] ++ [0x23, crc8 [0x41]]) := by
  decide +kernel

/-- The last index inside `PL`; a delivered frame. -/
theorem test_witness_PldReadsThePayloadScratch : (254 : Byte) ≠ 255 ∧ RingInv (ring 6 [0x41, 0x02, 0x05, 0xC8, 0x23, 0xF7])
    ∧ (0x41 : Byte) ∉ ([] : List Byte) ∧ [(0x05 : Byte), 0xC8].length ≤ 255
    ∧ logical (ring 6 [0x41, 0x02, 0x05, 0xC8, 0x23, 0xF7]) = [] ++ wireFrame 0x41 0x23 [0x05, 0xC8] ++ [] := by
  decide +kernel

/-- Both ends of the range of an Int16. -/
theorem test_witness_FieldsAreLittleEndian : (-32768 : Int) ≤ -32768 ∧ (-32768 : Int) ≤ 32767
    ∧ (-32768 : Int) ≤ 32767 ∧ (32767 : Int) ≤ 32767 := by decide

/-- Both ends of the range of an Int16. -/
theorem test_witness_PackIntegerShapes : (-32768 : Int) ≤ -32768 ∧ (-32768 : Int) ≤ 32767
    ∧ (-32768 : Int) ≤ 32767 ∧ (32767 : Int) ≤ 32767 := by decide

theorem test_witness_ShapeTableIsTheSpecs : packOf (.packI1 5 7) = some (.i1, 5, [.int16 7]) := by decide

theorem test_witness_EveryPackBuildsItsFrame : packOf (.packB1 5 200) = some (.b1, 5, [.byte 200])
    ∧ packOf (.packB1F3 5 1 2 3 4) = some (.b1f3, 5, [.byte 1, .float32 2, .float32 3, .float32 4]) := by decide

/-- The first index outside the message, the last inside, the longest message. -/
theorem test_witness_MessageIsReadOut : (after (.packB1 5 200) State.reset).msgLen ≤ (6 : Byte).toNat
    ∧ (5 : Byte).toNat < (after (.packB1 5 200) State.reset).msgLen
    ∧ MsgLenLegal { State.reset with msgLen := 37 } ∧ (36 : Byte).toNat < ({ State.reset with msgLen := 37 } : State).msgLen := by
  decide +kernel

/-- The smallest ring that holds the frame. -/
theorem test_witness_PackedFieldsComeBackUnchanged : packOf (.packB1 5 200) = some (.b1, 5, [.byte 200])
    ∧ unpackOf .unpackB1 = some .b1 ∧ RingInv (ring 6 []) ∧ logical (ring 6 []) = []
    ∧ Shape.b1.len + 4 ≤ (ring 6 []).cap := by decide

end Sys2Proof.Tests
end

section
/-! The block on `Q` alone is exact (00_scope.md R16, 40_ring_buffer.md R101, 41_deframer.md R120). First the rules: what a
shared operation does to the block a state looks like, and what `EXTRACT` does as a whole. Then one diagram per family of
commands. Every rule needs the ring invariants R27 only. -/

namespace Sys2Proof.Machine

/-! ## Reading an array in pieces -/

theorem memReadN_append (x : Space) (a m n : Nat) (s : State) :
    memReadN x a (m + n) s = memReadN x a m s ++ memReadN x (a + m) n s := by
  simp [memReadN, List.range_add, Nat.add_assoc]

/-- An array whose front holds new bytes and whose rest is kept, as the sequence of its bytes. -/
theorem memReadN_overwrite {x : Space} {n : Nat} {p : List Byte} {s t : State} (hp : p.length ≤ n)
    (hfront : memReadN x 0 p.length t = p) (hrest : ∀ a, p.length ≤ a → memRead x a t = memRead x a s) :
    memReadN x 0 n t = p ++ (memReadN x 0 n s).drop p.length := by
  obtain ⟨k, rfl⟩ := Nat.exists_eq_add_of_le hp
  rw [memReadN_append, hfront, memReadN_append x 0 p.length k s, List.drop_left' (memReadN_length ..)]
  exact congrArg (p ++ ·) (memReadN_ext fun j _ => hrest _ (by omega))

/-! ## The block a state looks like -/

@[simp] theorem toBlock_respond (st : Status) (r : List Byte) (s : State) :
    toBlock (respond st r s) = toBlock s := by
  simp [toBlock]

/-- Pushes append to `Q` and keep its last `CAP` elements (R97, R101). -/
theorem toBlock_pushBytes {s : State} (h : RingInv s) (bytes : List Byte) :
    toBlock (pushBytes bytes s) = (toBlock s).pushAll bytes := by
  simp only [toBlock, Block.pushAll, logical_pushBytes h, logical_length, pushBytes_cap, pushBytes_emDrop,
    pushBytes_sm, pushBytes_em, pushBytes_msgLen]
  rw [memReadN_congr (x := .pl) (pushBytes_pl bytes s) (pushBytes_draw bytes s),
    memReadN_congr (x := .msg) (pushBytes_msg bytes s) (pushBytes_draw bytes s)]

/-- `DROP(n)` takes the first `n` elements off `Q` (R107). -/
theorem toBlock_dropBytes (n : Nat) (s : State) :
    toBlock (dropBytes n s) = { toBlock s with q := (logical s).drop n } := by
  simp only [toBlock, logical_dropBytes]
  rfl

/-- `build_frame` replaces the message (R125). -/
theorem toBlock_buildFrame (code : Byte) (data : List Byte) (s : State) :
    toBlock (buildFrame code data s) = ((toBlock s).pack code data).2 := by
  have hlen : (buildFrame code data s).msgLen = data.length + 5 := by rw [buildFrame_msgLen]; omega
  simp only [toBlock, Block.pack, hlen, memReadN_buildFrame, logical_buildFrame]
  rw [memReadN_congr (x := .pl) (buildFrame_pl code data s) (buildFrame_draw code data s)]
  simp [frameBytes]

/-- The block's read of a sequence by index: `RANGE` from its length on, else the byte there (R98, R121, R143). -/
theorem readAt_eq {bytes : List Byte} {n k : Nat} {b : Byte} (hn : bytes.length = n)
    (hb : ∀ h : k < bytes.length, bytes[k] = b) :
    Block.readAt bytes k = if n ≤ k then failResponse .range else okResponse [b] := by
  subst hn
  by_cases hk : k < bytes.length
  · rw [if_neg (by omega), ← hb hk, Block.readAt, List.getElem?_eq_getElem hk]
  · rw [if_pos (by omega), Block.readAt, List.getElem?_eq_none (by omega)]

/-- A ring that holds a byte shows the one at `head` first (R31). -/
theorem logical_eq_cons {s : State} (h : RingInv s) (hn : s.count ≠ 0) :
    logical s = memRead .st s.head s :: (logical s).drop 1 := by
  obtain ⟨-, hhead, -⟩ := h
  have hpos : 0 < (logical s).length := by rw [logical_length]; omega
  have hslot : ringSlot s 0 = s.head := Nat.mod_eq_of_lt hhead
  rw [← hslot]
  change logical s = ringByte s 0 :: _
  rw [← logical_getElem hpos, ← List.drop_eq_getElem_cons hpos, List.drop_zero]

/-- A count as its two result bytes, low byte first (R93). -/
theorem u16Result_eq (n : Nat) : u16Result n = [BitVec.ofNat 8 n, BitVec.ofNat 8 (n / 256)] := by
  have hlow : (BitVec.ofNat 16 n).extractLsb' 0 8 = BitVec.ofNat 8 n := by
    apply BitVec.eq_of_toNat_eq
    simp
  have hhigh : (BitVec.ofNat 16 n).extractLsb' 8 8 = BitVec.ofNat 8 (n / 256) := by
    apply BitVec.eq_of_toNat_eq
    simp only [BitVec.extractLsb'_toNat, BitVec.toNat_ofNat, Nat.shiftRight_eq_div_pow]
    omega
  rw [u16Result, halfBytes, hlow, hhigh]

/-! ## `EXTRACT` as a whole -/

/-- Whatever steps 3 to 9 do, they move `head` and `count` and write `PL` and the response only (R34, R36). -/
theorem ExtractOutcome.frame {u t : State} (h : ExtractOutcome u t) :
    t = { u with head := t.head, count := t.count, pl := t.pl, resp := t.resp } := by
  obtain ⟨-, rfl⟩ | ⟨-, -, rfl⟩ | ⟨-, -, -, rfl⟩ | ⟨-, -, -, rfl⟩ := h
  · rfl
  · split <;> rfl
  · rw [copyPayload_frame]; rfl
  · rw [copyPayload_frame]; rfl

/-- `EXTRACT` does to `Q`, to `PL` and to the response what the algorithm on `Q` says, and changes nothing else (R120). -/
theorem execExtract_logical {s : State} (h : RingInv s) : ∃ (t : State) (e : Extraction),
    execExtract s = .next t ∧ e = extractLogical s.emDrop s.sm s.em (logical s)
      ∧ t.resp = some { status := e.status, result := [] } ∧ logical t = e.rest
      ∧ (e.payload = none → t.pl = s.pl)
      ∧ (∀ p, e.payload = some p → p.length ≤ Config.pmax ∧ memReadN .pl 0 p.length t = p
          ∧ ∀ a, p.length ≤ a → memRead .pl a t = memRead .pl a s)
      ∧ t = { s with head := t.head, count := t.count, pl := t.pl, resp := t.resp } := by
  by_cases h0 : s.count = 0
  · have hq : logical s = [] := logical_eq_nil.mpr h0
    exact ⟨_, ⟨.noData, [], none⟩, execExtract_empty h0, by rw [hq]; rfl, rfl, hq, fun _ => rfl, nofun, rfl⟩
  · obtain ⟨hinv, hsync⟩ := resync_spec h (Nat.le_refl s.count)
    obtain ⟨t, e, hexec, rfl, hresp, hrest, hkeep, hstore, -⟩ := extractFrame_logical hinv
    have hlog : extractCandidate (resync s.count s).emDrop (resync s.count s).em (logical (resync s.count s))
        = extractLogical s.emDrop s.sm s.em (logical s) := by
      rw [extractLogical_of_ne (mt logical_eq_nil.mp h0), hsync, resync_emDrop, resync_em]
    refine ⟨t, _, (execExtract_nonempty h0).trans hexec, hlog, hresp, hrest, ?_, fun p hp => ?_, ?_⟩
    · exact fun hp => (hkeep hp).trans (resync_pl ..)
    · obtain ⟨hlen, hfront, hback⟩ := hstore p hp
      have hlt := payloadSize_lt (resync s.count s)
      refine ⟨by simp only [Config.pmax]; omega, hfront, fun a ha => (hback a ha).trans ?_⟩
      exact memRead_congr (x := .pl) (resync_pl ..) (resync_draw ..) a
    · have hframe := (extractFrame_outcome hexec).frame
      rw [resync_frame] at hframe
      exact hframe

/-! ## One diagram per family of commands -/

/-- The diagram of a command from a state: it completes with a response, and the block on `Q` gives the same response and
goes to the block that the next state looks like. -/
def RefinesBlock (i : Instr) (s : State) : Prop :=
  ∃ (t : State) (r : Response), exec i s = .next t ∧ t.resp = some r ∧ Block.exec i (toBlock s) = (r, toBlock t)

theorem RefinesBlock.of_respond {i : Instr} {s u : State} {st : Status} {r : List Byte}
    (he : exec i s = .next (respond st r u)) (hb : Block.exec i (toBlock s) = (⟨st, r⟩, toBlock u)) :
    RefinesBlock i s :=
  ⟨_, ⟨st, r⟩, he, rfl, by rw [hb, toBlock_respond]⟩

theorem pack_refinesBlock {i : Instr} {sh : Shape} {code : Byte} {fields : List FieldValue}
    (h : packOf i = some (sh, code, fields)) (s : State) : RefinesBlock i s := by
  refine .of_respond ((exec_of_packOf h s).trans (pack_eq ..)) ?_
  rw [toBlock_buildFrame]
  simp only [Block.exec, h]
  rfl

theorem unpack_refinesBlock {i : Instr} {sh : Shape} (hp : packOf i = none) (hu : unpackOf i = some sh) (s : State) :
    RefinesBlock i s := by
  refine .of_respond ((exec_of_unpackOf hu s).trans (unpack_eq ..)) ?_
  have hsize : 1 + sh.dataSize ≤ Config.pmax := by
    have := sh.dataSize_bounds
    simp only [Config.pmax]
    omega
  have hread : (toBlock s).pl.take (1 + sh.dataSize) = memReadN .pl 0 (1 + sh.dataSize) s := by
    simp only [toBlock, memReadN_take, Nat.min_eq_left hsize]
  simp only [Block.exec, hp, hu, hread]
  rfl

/-- A command that fails without an effect under a condition, and else answers. -/
theorem RefinesBlock.of_ite {i : Instr} {s u : State} {p : Prop} [Decidable p] {st : Status} {r : List Byte}
    (he : exec i s = if p then raise st s else answer r u)
    (hfail : p → Block.exec i (toBlock s) = (failResponse st, toBlock s))
    (hok : ¬p → Block.exec i (toBlock s) = (okResponse r, toBlock u)) : RefinesBlock i s := by
  by_cases hp : p
  · exact .of_respond (he.trans (if_pos hp)) (hfail hp)
  · exact .of_respond (he.trans (if_neg hp)) (hok hp)

/-- `INDEX`, `PLD` and `MSGRD` read a byte of a sequence by its index (R98, R121, R143). -/
theorem read_refinesBlock {i : Instr} {s : State} {bytes : List Byte} {n k : Nat} {b : Byte}
    (he : exec i s = if n ≤ k then raise .range s else answer [b] s)
    (hblock : Block.exec i (toBlock s) = (Block.readAt bytes k, toBlock s))
    (hn : bytes.length = n) (hb : ∀ h : k < bytes.length, bytes[k] = b) : RefinesBlock i s := by
  rw [readAt_eq hn hb] at hblock
  exact .of_ite he (fun hk => by rw [hblock, if_pos hk]) (fun hk => by rw [hblock, if_neg hk])

theorem index_refinesBlock (k : Half) (s : State) : RefinesBlock (.index k) s :=
  read_refinesBlock rfl rfl (logical_length s) fun h => logical_getElem h

theorem pld_refinesBlock (k : Byte) (s : State) : RefinesBlock (.pld k) s :=
  read_refinesBlock (bytes := memReadN .pl 0 Config.pmax s) rfl rfl (memReadN_length ..) fun h => by
    rw [memReadN_getElem h, Nat.zero_add]

theorem msgrd_refinesBlock (k : Byte) (s : State) : RefinesBlock (.msgrd k) s :=
  read_refinesBlock (bytes := memReadN .msg 0 s.msgLen s) rfl rfl (memReadN_length ..) fun h => by
    rw [memReadN_getElem h, Nat.zero_add]

theorem isfull_refinesBlock (s : State) : RefinesBlock .isfull s := by
  refine .of_respond rfl ?_
  simp [Block.exec, packOf, unpackOf, Block.execPlain, toBlock, okResponse, flagByte, isFull]

theorem isempty_refinesBlock (s : State) : RefinesBlock .isempty s := by
  refine .of_respond rfl ?_
  simp [Block.exec, packOf, unpackOf, Block.execPlain, toBlock, okResponse, flagByte, isEmpty, logical_eq_nil]

theorem size_refinesBlock (s : State) : RefinesBlock .size s := by
  refine .of_respond rfl ?_
  simp [Block.exec, packOf, unpackOf, Block.execPlain, toBlock, okResponse, u16Result_eq]

theorem msglen_refinesBlock (s : State) : RefinesBlock .msglen s := by
  refine .of_respond rfl ?_
  simp [Block.exec, packOf, unpackOf, Block.execPlain, toBlock, okResponse]

/-- `PUSH`, `INSERT` and `FEED` push a sequence of bytes (R94, R97, R108). -/
theorem pushes_refinesBlock {i : Instr} {bytes : List Byte} {s : State} (h : RingInv s)
    (he : exec i s = answer [] (pushBytes bytes s))
    (hb : Block.exec i (toBlock s) = (okResponse [], (toBlock s).pushAll bytes)) : RefinesBlock i s := by
  refine .of_respond he ?_
  rw [hb, toBlock_pushBytes h]
  rfl

/-- `POP` and `TOP` answer `EMPTY` on an empty ring, else the oldest byte (R95, R96). -/
theorem oldest_refinesBlock {i : Instr} {s u : State} (h : RingInv s)
    (he : exec i s = if isEmpty s then raise .empty s else answer [memRead .st s.head s] u)
    (hnil : (toBlock s).q = [] → Block.exec i (toBlock s) = (failResponse .empty, toBlock s))
    (hcons : ∀ v q, (toBlock s).q = v :: q → q = (logical s).drop 1 →
      Block.exec i (toBlock s) = (okResponse [v], toBlock u)) : RefinesBlock i s :=
  .of_ite he (fun h0 => hnil (logical_eq_nil.mpr (by simpa [isEmpty] using h0)))
    (fun h0 => hcons _ _ (logical_eq_cons h (by simpa [isEmpty] using h0)) rfl)

theorem pop_refinesBlock {s : State} (h : RingInv s) : RefinesBlock .pop s := by
  refine oldest_refinesBlock (u := dropBytes 1 s) h rfl (fun hq => ?_) fun v q hq hrest => ?_
  · simp only [Block.exec, packOf, unpackOf, Block.execPlain, hq]
  · simp only [Block.exec, packOf, unpackOf, Block.execPlain, hq, toBlock_dropBytes, hrest]

theorem top_refinesBlock {s : State} (h : RingInv s) : RefinesBlock .top s := by
  refine oldest_refinesBlock (u := s) h rfl (fun hq => ?_) fun v q hq _ => ?_
  · simp only [Block.exec, packOf, unpackOf, Block.execPlain, hq]
  · simp only [Block.exec, packOf, unpackOf, Block.execPlain, hq]

/-- The payload scratch after `EXTRACT`, as the block stores it (R116). -/
theorem storePayload_toBlock {s t : State} {payload : Option (List Byte)}
    (hkeep : payload = none → memReadN .pl 0 Config.pmax t = memReadN .pl 0 Config.pmax s)
    (hstore : ∀ p, payload = some p → p.length ≤ Config.pmax ∧ memReadN .pl 0 p.length t = p
      ∧ ∀ a, p.length ≤ a → memRead .pl a t = memRead .pl a s) :
    (toBlock s).storePayload payload = { toBlock s with pl := memReadN .pl 0 Config.pmax t } := by
  cases payload with
  | none => rw [hkeep rfl]; rfl
  | some p =>
    obtain ⟨hlen, hfront, hback⟩ := hstore p rfl
    rw [memReadN_overwrite hlen hfront hback]
    rfl

theorem extract_refinesBlock {s : State} (h : RingInv s) : RefinesBlock .extract s := by
  obtain ⟨t, e, hexec, he, hresp, hrest, hkeep, hstore, hframe⟩ := execExtract_logical h
  have hdraw : t.draw = s.draw := by rw [hframe]
  have hpl := storePayload_toBlock (s := s) (t := t)
    (fun hp => memReadN_congr (x := .pl) (hkeep hp) hdraw 0 Config.pmax) hstore
  refine ⟨t, _, hexec, hresp, ?_⟩
  change (toBlock s).extract = _
  have hlog : extractLogical (toBlock s).emDrop (toBlock s).sm (toBlock s).em (toBlock s).q = e := he.symm
  simp only [Block.extract, hlog, hpl]
  have ht : toBlock t = { toBlock s with q := logical t, pl := memReadN .pl 0 Config.pmax t } := by
    rw [hframe]; rfl
  rw [ht, hrest]

/-- Every command follows the block on `Q` from every state whose ring registers are consistent. -/
theorem exec_refinesBlock (i : Instr) {s : State} (h : RingInv s) : RefinesBlock i s := by
  match hp : packOf i, hu : unpackOf i with
  | some (_, _, _), _ => exact pack_refinesBlock hp s
  | none, some _ => exact unpack_refinesBlock hp hu s
  | none, none =>
    cases i <;> simp only [packOf, unpackOf, reduceCtorEq] at hp hu
    case isfull => exact isfull_refinesBlock s
    case isempty => exact isempty_refinesBlock s
    case size => exact size_refinesBlock s
    case push b => exact pushes_refinesBlock (bytes := [b]) h rfl rfl
    case pop => exact pop_refinesBlock h
    case top => exact top_refinesBlock h
    case insert bytes => exact pushes_refinesBlock h rfl rfl
    case index k => exact index_refinesBlock k s
    case feed bytes => exact pushes_refinesBlock h rfl rfl
    case extract => exact extract_refinesBlock h
    case pld k => exact pld_refinesBlock k s
    case msglen => exact msglen_refinesBlock s
    case msgrd k => exact msgrd_refinesBlock k s

end Sys2Proof.Machine
end

section
/-! The statements of 00_scope.md settled. -/

namespace Sys2Proof.Proofs

open Sys2Proof.Machine

/-- Settles O27: of a legal state only the ring invariants are needed; one diagram per family of commands. -/
theorem logicalModelIsExact : Obligations.LogicalModelIsExact := by
  unfold Obligations.LogicalModelIsExact
  rintro i s ⟨-, hring, -⟩
  exact exec_refinesBlock i hring

/-- Settles O3: with every register 0 and no byte written, only the capacity's bounds carry content. -/
theorem resetStateIsLegal : Obligations.ResetStateIsLegal := by
  unfold Obligations.ResetStateIsLegal
  intro cap drop cs ce hpos hmax
  have hring : RingInv (State.resetWith cap drop cs ce) := ⟨Nat.zero_le _, hpos, hpos, (Nat.zero_mod cap).symm⟩
  have harrays : ArraysCanonical (State.resetWith cap drop cs ce) :=
    ⟨Memory.wf_nil _, Memory.wf_nil _, Memory.wf_nil _⟩
  exact ⟨⟨hpos, hmax⟩, hring, List.mem_cons_self, harrays, ⟨nofun, nofun⟩, rfl⟩

/-- Settles O14: the port's front is a command, and the decoder accepts it. -/
theorem stepRunsTheDecodedCommand : Obligations.StepRunsTheDecodedCommand := by
  unfold Obligations.StepRunsTheDecodedCommand
  intro s op operands rest i hport hdecode
  simp only [step, hport, runCommand, commandBytes, hdecode, takeInput]

end Sys2Proof.Proofs
end

section
/-! Invariants of the block (10_state.md R27, R38, R40, R42, R55). A command is put together from five operations: a
response, a push, `DROP` of bytes the ring holds, the copy to `PL` and the building of a frame. So what each operation
keeps every command keeps, and each invariant is checked once per operation. -/

namespace Sys2Proof.Machine

/-! ## What the operations keep the commands keep -/

/-- A property of states that each of the five operations keeps. -/
structure KeptByOps (P : State → Prop) : Prop where
  respond : ∀ (s : State) (st : Status) (r : List Byte), P s → P (respond st r s)
  pushByte : ∀ (s : State) (b : Byte), P s → P (pushByte b s)
  dropBytes : ∀ (s : State) (n : Nat), n ≤ s.count → P s → P (dropBytes n s)
  copyPayload : ∀ s : State, P s → P (copyPayload s)
  buildFrame : ∀ (s : State) (sh : Shape) (code : Byte) (data : List Byte), data.length = sh.dataSize →
    P s → P (buildFrame code data s)

namespace KeptByOps

variable {P : State → Prop}

theorem pushBytes (hP : KeptByOps P) {s : State} (h : P s) (bytes : List Byte) : P (pushBytes bytes s) := by
  induction bytes generalizing s with
  | nil => exact h
  | cons b bs ih => exact ih (hP.pushByte s b h)

theorem resync (hP : KeptByOps P) {s : State} (h : P s) (n : Nat) : P (resync n s) := by
  induction n generalizing s with
  | zero => exact h
  | succ n ih =>
    simp only [Machine.resync]
    split
    case isTrue hgarbage => exact ih (hP.dropBytes s 1 hgarbage.1 h)
    case isFalse => exact h

theorem extractOutcome (hP : KeptByOps P) {u t : State} (h : P u) (ht : ExtractOutcome u t) : P t := by
  obtain ⟨-, rfl⟩ | ⟨hlen, -, rfl⟩ | ⟨hlen, -, -, rfl⟩ | ⟨hlen, -, -, rfl⟩ := ht <;> refine hP.respond _ _ _ ?_
  · exact h
  · split
    · exact hP.dropBytes u 1 (by omega) h
    · exact h
  · exact hP.dropBytes _ 1 (by rw [copyPayload_count]; omega) (hP.copyPayload u h)
  · exact hP.dropBytes _ _ (by rw [copyPayload_count]; omega) (hP.copyPayload u h)

end KeptByOps

/-- The data bytes of a `PACK_*` command are as many as its shape asks for (R86). -/
theorem dataBytes_length_of_packOf {i : Instr} {sh : Shape} {code : Byte} {fields : List FieldValue}
    (h : packOf i = some (sh, code, fields)) : (dataBytes fields).length = sh.dataSize := by
  rw [dataBytes_length, types_of_packOf h, Shape.dataSize]

/-- Every command keeps what the operations keep. -/
theorem KeptByOps.exec {P : State → Prop} (hP : KeptByOps P) {i : Instr} {s t : State} (h : P s)
    (he : exec i s = .next t) : P t := by
  obtain ⟨_, _, rfl⟩ | ⟨bytes, -, rfl⟩ | ⟨-, hne, rfl⟩ | ⟨-, -, hout⟩ | ⟨sh, code, fields, hp, rfl⟩ := exec_cases he
  · exact hP.respond _ _ _ h
  · exact hP.respond _ _ _ (hP.pushBytes h bytes)
  · exact hP.respond _ _ _ (hP.dropBytes s 1 (by omega) h)
  · exact hP.extractOutcome (hP.resync h _) hout
  · exact hP.respond _ _ _ (hP.buildFrame s sh code _ (dataBytes_length_of_packOf hp) h)

/-! ## The ring registers (R27) -/

theorem ringInv_kept : KeptByOps RingInv where
  respond _ _ _ h := h
  pushByte _ b h := ringInv_pushByte h b
  dropBytes _ _ hn h := ringInv_dropBytes h hn
  copyPayload s h := by
    simpa only [RingInv, copyPayload_cap, copyPayload_count, copyPayload_head, copyPayload_tail] using h
  buildFrame s _ code data _ h := by
    simpa only [RingInv, buildFrame_cap, buildFrame_count, buildFrame_head, buildFrame_tail] using h

/-- In a full ring the next byte goes where the oldest is (R27). -/
theorem tail_eq_head_of_full {s : State} (h : RingInv s) (hfull : s.count = s.cap) : s.tail = s.head := by
  obtain ⟨-, hhead, -, htail⟩ := h
  rw [htail, hfull, Nat.add_mod_right, Nat.mod_eq_of_lt hhead]

/-! ## Bytes that have been written (R38, R40, R42) -/

theorem Mem.isSome_lookup_write (m : List Host.Cell) (a b : Nat) (v : Byte) :
    (Mem.lookup (Mem.write m a v) b).isSome = true ↔ b = a ∨ (Mem.lookup m b).isSome = true := by
  rw [Mem.lookup_write]
  split <;> simp [*]

/-- Between two states no reset has been drawn and no written byte of an array has become unwritten. -/
def KeepsWritten (s t : State) : Prop :=
  t.draw = s.draw ∧ ∀ x a, (Mem.lookup (cells x s) a).isSome = true → (Mem.lookup (cells x t) a).isSome = true

theorem KeepsWritten.refl (s : State) : KeepsWritten s s := ⟨rfl, fun _ _ h => h⟩

theorem KeepsWritten.trans {s t u : State} (hst : KeepsWritten s t) (htu : KeepsWritten t u) : KeepsWritten s u :=
  ⟨htu.1.trans hst.1, fun x a h => htu.2 x a (hst.2 x a h)⟩

/-- A byte that is still unwritten was unwritten before and reads as before. -/
theorem KeepsWritten.unwritten {s t : State} (h : KeepsWritten s t) {x : Space} {a : Nat}
    (hnone : Mem.lookup (cells x t) a = none) :
    Mem.lookup (cells x s) a = none ∧ memRead x a t = memRead x a s := by
  obtain ⟨hdraw, hkeep⟩ := h
  have hbefore : Mem.lookup (cells x s) a = none := by
    by_contra hsome
    have := hkeep x a (Option.isSome_iff_ne_none.mpr hsome)
    simp [hnone] at this
  exact ⟨hbefore, by simp only [memRead, hnone, hbefore, hdraw]⟩

theorem keepsWritten_memWrite (x : Space) (a : Nat) (v : Byte) (s : State) : KeepsWritten s (memWrite x a v s) := by
  refine ⟨draw_memWrite .., fun y b h => ?_⟩
  by_cases hy : y = x
  · subst hy
    rw [cells_memWrite_same, Mem.isSome_lookup_write]
    exact .inr h
  · rwa [cells_memWrite_ne hy]

theorem keepsWritten_memWriteN (x : Space) (a : Nat) (vs : List Byte) (s : State) :
    KeepsWritten s (memWriteN x a vs s) := by
  induction vs generalizing a s with
  | nil => exact .refl s
  | cons v vs ih => exact (keepsWritten_memWrite x a v s).trans (ih ..)

/-- Registers, port and response play no part. -/
theorem KeepsWritten.of_cells_eq {s t u : State} (h : KeepsWritten s t) (hc : ∀ x, cells x u = cells x t)
    (hd : u.draw = t.draw) : KeepsWritten s u :=
  h.trans ⟨hd, fun x _ hsome => (hc x).symm ▸ hsome⟩

theorem keepsWritten_kept (s : State) : KeptByOps (KeepsWritten s) where
  respond _ _ _ h := h.of_cells_eq (fun x => by cases x <;> rfl) rfl
  pushByte u b h := (h.trans (keepsWritten_memWrite .st u.tail b u)).of_cells_eq (fun x => by cases x <;> rfl) rfl
  dropBytes _ _ _ h := h.of_cells_eq (fun x => by cases x <;> rfl) rfl
  copyPayload _ h := h.trans (keepsWritten_memWriteN ..)
  buildFrame u _ code data _ h :=
    (h.trans (keepsWritten_memWriteN .msg 0 (frameBytes u.sm u.em code data) u)).of_cells_eq
      (fun x => by cases x <;> rfl) rfl

/-! ## Legal contents (R20, R38, R40, R55) -/

/-- A state that is legal but for its response. -/
def ContentLegal (s : State) : Prop :=
  CapLegal s ∧ RingInv s ∧ MsgLenLegal s ∧ ArraysCanonical s ∧ WindowWritten s

theorem stateLegal_iff {s : State} : StateLegal s ↔ ContentLegal s ∧ ResponseLegal s := by
  simp only [StateLegal, ContentLegal, and_assoc]

/-- The slot of a logical index after a push: an eviction shifts the indexes by one (R31, R94). -/
theorem ringSlot_pushByte (b : Byte) (s : State) (i : Nat) :
    ringSlot (pushByte b s) i = ringSlot s (if s.count = s.cap then i + 1 else i) := by
  simp only [ringSlot, pushByte_head, pushByte_cap]
  split
  · rw [Nat.mod_add_mod, Nat.add_assoc, Nat.add_comm 1]
  · rfl

theorem windowWritten_pushByte {s : State} (hring : RingInv s) (h : WindowWritten s) (b : Byte) :
    WindowWritten (pushByte b s) := by
  obtain ⟨hle, -, -, htail⟩ := hring
  obtain ⟨hwritten, hmsg⟩ := h
  refine ⟨fun i hi => ?_, hmsg⟩
  rw [ringSlot_pushByte, pushByte_st, Mem.isSome_lookup_write]
  rw [pushByte_count] at hi
  generalize hj : (if s.count = s.cap then i + 1 else i) = j
  have hcases : j = s.count ∨ j < s.count := by
    rw [← hj]
    split_ifs at hi ⊢ <;> omega
  rcases hcases with rfl | hold
  · exact .inl htail.symm
  · exact .inr (hwritten j hold)

theorem ringSlot_dropBytes (n : Nat) (s : State) (i : Nat) : ringSlot (dropBytes n s) i = ringSlot s (n + i) := by
  simp only [ringSlot, dropBytes_head, dropBytes_cap, Nat.mod_add_mod, Nat.add_assoc]

theorem windowWritten_dropBytes {s : State} (h : WindowWritten s) (n : Nat) : WindowWritten (dropBytes n s) := by
  obtain ⟨hwritten, hmsg⟩ := h
  refine ⟨fun i hi => ?_, hmsg⟩
  rw [dropBytes_count] at hi
  rw [ringSlot_dropBytes]
  exact hwritten (n + i) (by omega)

/-- The length of every shape's frame is one of the values `msg_len` may have, and the frame fits `MSG` (R11, R20). -/
theorem frameSize_legal (sh : Shape) :
    sh.dataSize + 5 ∈ [0, 6, 7, 8, 9, 11, 13, 17, 18, 19, 21, 29, 37] ∧ sh.dataSize + 5 ≤ Config.mmax := by
  cases sh <;> decide

theorem contentLegal_kept : KeptByOps ContentLegal where
  respond _ _ _ h := h
  pushByte s b h := by
    obtain ⟨hcap, hring, hlen, ⟨hst, hpl, hmsg⟩, hwin⟩ := h
    have hst' := Memory.wf_write b hst hring.2.2.1
    exact ⟨hcap, ringInv_pushByte hring b, hlen, ⟨hst', hpl, hmsg⟩, windowWritten_pushByte hring hwin b⟩
  dropBytes s n hn h := by
    obtain ⟨hcap, hring, hlen, harr, hwin⟩ := h
    exact ⟨hcap, ringInv_dropBytes hring hn, hlen, harr, windowWritten_dropBytes hwin n⟩
  copyPayload s h := by
    obtain ⟨hcap, hring, hlen, ⟨hst, hpl, hmsg⟩, hwin⟩ := h
    have hpl' := wf_copyPayload hpl
    rw [copyPayload_frame]
    exact ⟨hcap, hring, hlen, ⟨hst, hpl', hmsg⟩, hwin⟩
  buildFrame s sh code data hd h := by
    obtain ⟨hcap, hring, -, ⟨hst, hpl, hmsg⟩, ⟨hwin, -⟩⟩ := h
    obtain ⟨hmem, hfits⟩ := frameSize_legal sh
    rw [← hd] at hmem hfits
    have hlen : (buildFrame code data s).msgLen = data.length + 5 := by rw [buildFrame_msgLen]; omega
    have hmsg' := wf_buildFrame (code := code) hmsg hfits
    have hnew : ∀ i < data.length + 5, (Mem.lookup (buildFrame code data s).msg i).isSome = true :=
      fun _ hi => lookup_buildFrame hi
    rw [buildFrame_frame, hlen]
    exact ⟨hcap, hring, hmem, ⟨hst, hpl, hmsg'⟩, ⟨hwin, hnew⟩⟩

/-! ## Legal responses (R78) -/

/-- However a command ends, a response that is not `OK` has no result bytes. -/
def EndsLegally (o : Host.Outcome State Fault Refusal) : Prop := ∀ t, o = .next t → ResponseLegal t

theorem endsLegally_answer {r : List Byte} {s : State} : EndsLegally (answer r s) := by
  rintro t ⟨⟩
  rfl

theorem endsLegally_raise {st : Status} {s : State} : EndsLegally (raise st s) := by
  rintro t ⟨⟩
  exact Bool.or_true (st == .ok)

theorem EndsLegally.ite {p : Prop} [Decidable p] {o o' : Host.Outcome State Fault Refusal} (h : EndsLegally o)
    (h' : EndsLegally o') : EndsLegally (if p then o else o') := by
  split
  · exact h
  · exact h'

theorem extractFrame_endsLegally (s : State) : EndsLegally (extractFrame s) :=
  .ite endsLegally_raise <| .ite endsLegally_raise <| .ite endsLegally_raise <|
    .ite endsLegally_raise endsLegally_answer

/-- Every command ends with `answer` or with `raise`. -/
theorem exec_endsLegally (i : Instr) (s : State) : EndsLegally (exec i s) := by
  match hp : packOf i, hu : unpackOf i with
  | some (_, _, _), _ =>
    rw [exec_of_packOf hp]
    exact endsLegally_answer
  | none, some _ =>
    rw [exec_of_unpackOf hu]
    exact endsLegally_answer
  | none, none =>
    cases i <;> simp only [packOf, unpackOf, reduceCtorEq] at hp hu
    case extract => exact .ite endsLegally_raise (extractFrame_endsLegally _)
    case pop | top | index | pld | msgrd => exact .ite endsLegally_raise endsLegally_answer
    all_goals exact endsLegally_answer

theorem stateLegal_exec {i : Instr} {s t : State} (h : StateLegal s) (he : exec i s = .next t) : StateLegal t :=
  stateLegal_iff.mpr ⟨contentLegal_kept.exec (stateLegal_iff.mp h).1 he, exec_endsLegally i s t he⟩

end Sys2Proof.Machine
end

section
/-! What each command may write (10_state.md R34, R36), and what a caller cannot observe (R39). -/

namespace Sys2Proof.Machine

/-! ## Frames of the commands (R34) -/

/-- The commands that only report: `ISFULL`, `ISEMPTY`, `SIZE`, `TOP`, `INDEX`, `PLD`, `MSGLEN`, `MSGRD`, `UNPACK_*`. -/
def IsReport (i : Instr) : Prop :=
  i = .isfull ∨ i = .isempty ∨ i = .size ∨ i = .top ∨ (∃ k, i = .index k) ∨ (∃ k, i = .pld k) ∨ i = .msglen
    ∨ (∃ k, i = .msgrd k) ∨ (unpackOf i).isSome = true

theorem not_isReport_of_packOf {i : Instr} {x : Shape × Byte × List FieldValue} (h : packOf i = some x) :
    ¬ IsReport i := by
  cases i <;> simp only [packOf, reduceCtorEq] at h <;> simp [IsReport, unpackOf]

/-- A command that only reports changes nothing but the response. -/
theorem IsReport.readsOnly {i : Instr} {s t : State} (hi : IsReport i) (he : exec i s = .next t) : ReadsOnly s t := by
  obtain hread | ⟨_, hpush, -⟩ | ⟨hpop, -⟩ | ⟨hextract, -⟩ | ⟨_, _, _, hpack, -⟩ := exec_cases he
  · exact hread
  · obtain rfl | rfl | ⟨_, rfl, -⟩ := hpush <;> simp [IsReport, unpackOf] at hi
  · simp [IsReport, unpackOf, hpop] at hi
  · simp [IsReport, unpackOf, hextract] at hi
  · exact absurd hi (not_isReport_of_packOf hpack)

theorem ReadsOnly.frame {s t : State} (h : ReadsOnly s t) : t = { s with resp := t.resp } := by
  obtain ⟨_, _, rfl⟩ := h
  rfl

/-- `PUSH`, `INSERT` and `FEED` are pushes (R94, R97, R108). -/
theorem exec_of_pushes {i : Instr} {bytes : List Byte}
    (hi : i = .insert bytes ∨ i = .feed bytes ∨ ∃ b, i = .push b ∧ bytes = [b]) (s : State) :
    exec i s = answer [] (pushBytes bytes s) := by
  obtain rfl | rfl | ⟨b, rfl, rfl⟩ := hi <;> rfl

/-- Pushes write the slots from `tail` on (R94, R97). -/
theorem memRead_pushBytes_of_ne {s : State} (bytes : List Byte) {a : Nat} (htail : s.tail < s.cap)
    (ha : ∀ k < bytes.length, a ≠ (s.tail + k) % s.cap) : memRead .st a (pushBytes bytes s) = memRead .st a s := by
  induction bytes generalizing s with
  | nil => rfl
  | cons b bs ih =>
    have hfirst : a ≠ s.tail := by
      have := ha 0 (by simp)
      rwa [Nat.add_zero, Nat.mod_eq_of_lt htail] at this
    have hrest : ∀ k < bs.length, a ≠ ((pushByte b s).tail + k) % (pushByte b s).cap := fun k hk => by
      have := ha (k + 1) (by simpa using hk)
      rwa [pushByte_tail, pushByte_cap, Nat.mod_add_mod, Nat.add_assoc, Nat.add_comm 1]
    have hone : memRead .st a (pushByte b s) = memRead .st a s := by
      simp only [memRead, cells_st, pushByte_st, pushByte_draw, Mem.lookup_write_ne _ _ hfirst]
    rw [pushBytes_cons, ih (Nat.mod_lt _ (by omega)) hrest, hone]

/-- What `EXTRACT` may write (R34), from every state. -/
theorem execExtract_frame {s t : State} (he : execExtract s = .next t) :
    t = { s with head := t.head, count := t.count, pl := t.pl, resp := t.resp } := by
  by_cases h0 : s.count = 0
  · rw [execExtract_empty h0] at he
    cases he
    rfl
  · rw [execExtract_nonempty h0] at he
    have hframe := (extractFrame_outcome he).frame
    rwa [resync_frame] at hframe

theorem execPop_frame {s t : State} (he : execPop s = .next t) :
    t = { s with head := t.head, count := t.count, resp := t.resp } := by
  unfold execPop at he
  split at he <;> (cases he; rfl)

/-- `LEN + 4` of a shape's frame, in its number of data bytes (R67, R144). -/
theorem len_add_four (sh : Shape) : sh.len + 4 = sh.dataSize + 5 := by
  rw [Shape.len]
  omega

/-- The one way a `PACK_*` command ends, from every state (R126). -/
theorem exec_pack_eq {i : Instr} {sh : Shape} {code : Byte} {fields : List FieldValue}
    (h : packOf i = some (sh, code, fields)) (s : State) :
    exec i s = .next (respond .ok [BitVec.ofNat 8 (sh.dataSize + 5)] (buildFrame code (dataBytes fields) s)) := by
  rw [exec_of_packOf h, pack_eq, dataBytes_length_of_packOf h]

theorem buildFrame_msgLen_of_packOf {i : Instr} {sh : Shape} {code : Byte} {fields : List FieldValue}
    (h : packOf i = some (sh, code, fields)) (s : State) :
    (buildFrame code (dataBytes fields) s).msgLen = sh.dataSize + 5 := by
  rw [buildFrame_msgLen, dataBytes_length_of_packOf h]
  omega

/-- A command that does not pack keeps `msg_len` (R25). -/
theorem exec_msgLen_of_not_pack {i : Instr} {s t : State} (he : exec i s = .next t) (hp : packOf i = none) :
    t.msgLen = s.msgLen := by
  obtain ⟨_, _, rfl⟩ | ⟨bytes, -, rfl⟩ | ⟨-, -, rfl⟩ | ⟨-, -, hout⟩ | ⟨_, _, _, hsome, -⟩ := exec_cases he
  · rfl
  · exact pushBytes_msgLen ..
  · rfl
  · exact (congrArg State.msgLen hout.frame).trans (resync_msgLen ..)
  · simp [hp] at hsome

/-- Before the first pack no byte of `MSG` is readable (R41, R143). -/
theorem exec_msgrd_of_no_message {s : State} (h : s.msgLen = 0) (k : Byte) :
    exec (.msgrd k) s = .next { s with resp := some (failResponse .range) } :=
  if_pos (h ▸ Nat.zero_le _)

/-! ## Step 7 on the logical contents (R36) -/

/-- The algorithm on `Q` stores a payload exactly when it reaches step 7, and then the candidate's (R116, R120). -/
theorem extractCandidate_payload {drop : Bool} {em : Byte} {q : List Byte} {e : Extraction}
    (he : e = extractCandidate drop em q) :
    ((e.status = .incomplete ∨ e.status = .endMismatch) ∧ e.payload = none)
    ∨ ((e.status = .ok ∨ e.status = .crcFail) ∧ ∃ (m len : Byte) (payload r : List Byte),
        q = m :: len :: (payload ++ r) ∧ payload.length = len.toNat ∧ e.payload = some payload) := by
  match q with
  | [] => exact .inl (he ▸ ⟨.inl rfl, rfl⟩)
  | [_] => exact .inl (he ▸ ⟨.inl rfl, rfl⟩)
  | m :: len :: body =>
    by_cases hshort : body.length < len.toNat + 2
    · rw [extractCandidate, if_pos hshort] at he
      exact .inl (he ▸ ⟨.inl rfl, rfl⟩)
    by_cases hend : body.getD len.toNat 0 ≠ em
    · rw [extractCandidate, if_neg hshort, if_pos hend] at he
      exact .inl (he ▸ ⟨.inr rfl, rfl⟩)
    rw [extractCandidate, if_neg hshort, if_neg hend] at he
    have hlen : (body.take len.toNat).length = len.toNat := by rw [List.length_take]; omega
    have hbody : body = body.take len.toNat ++ body.drop len.toNat := (List.take_append_drop ..).symm
    refine .inr ⟨?_, m, len, _, _, congrArg (m :: len :: ·) hbody, hlen, ?_⟩ <;> rw [he] <;> split
    · exact .inr rfl
    · exact .inl rfl
    · rfl
    · rfl

/-- The same of `EXTRACT` as a whole, whose candidate starts at the first `SM` (R109, R111). -/
theorem extractLogical_payload {drop : Bool} {sm em : Byte} {q : List Byte} {e : Extraction}
    (he : e = extractLogical drop sm em q) :
    ((e.status = .noData ∨ e.status = .incomplete ∨ e.status = .endMismatch) ∧ e.payload = none)
    ∨ ((e.status = .ok ∨ e.status = .crcFail) ∧ ∃ (len : Byte) (payload r : List Byte),
        fromFirst sm q = sm :: len :: (payload ++ r) ∧ payload.length = len.toNat ∧ e.payload = some payload) := by
  by_cases hq : q = []
  · rw [hq] at he
    exact .inl (he ▸ ⟨.inl rfl, rfl⟩)
  rw [extractLogical_of_ne hq] at he
  obtain ⟨hst, hnone⟩ | ⟨hst, m, len, payload, r, hcand, hlen, hsome⟩ := extractCandidate_payload he
  · exact .inl ⟨.inr hst, hnone⟩
  · obtain rfl := fromFirst_head hcand
    exact .inr ⟨hst, len, payload, r, hcand, hlen, hsome⟩

/-! ## States that look like the same block (R39) -/

theorem memReadN_eq_iff {x : Space} {n : Nat} {s t : State} :
    memReadN x 0 n s = memReadN x 0 n t ↔ ∀ a < n, memRead x a s = memRead x a t := by
  simp [memReadN, List.map_inj_left]

/-- What a caller observes of a state is the block on `Q` that it looks like. -/
theorem obsEq_iff_toBlock_eq {s t : State} : ObsEq s t ↔ toBlock s = toBlock t := by
  simp only [ObsEq, toBlock, Block.mk.injEq, ← memReadN_eq_iff]
  constructor
  · rintro ⟨hcap, hdrop, hq, hpl, hlen, hmsg, hsm, hem⟩
    exact ⟨hcap, hdrop, hsm, hem, hq, hpl, hlen ▸ hmsg⟩
  · rintro ⟨hcap, hdrop, hsm, hem, hq, hpl, hmsg⟩
    have hlen : s.msgLen = t.msgLen := by simpa using congrArg List.length hmsg
    exact ⟨hcap, hdrop, hq, hpl, hlen, hlen ▸ hmsg, hsm, hem⟩

/-- States that look like the same block answer a command alike and go to states that look alike. -/
theorem exec_of_toBlock_eq {s t : State} (hs : RingInv s) (ht : RingInv t) (h : toBlock s = toBlock t) (i : Instr) :
    ∃ (s' t' : State) (r : Response), exec i s = .next s' ∧ s'.resp = some r ∧ exec i t = .next t' ∧ t'.resp = some r
      ∧ toBlock s' = toBlock t' := by
  obtain ⟨s', r, hes, hrs, hbs⟩ := exec_refinesBlock i hs
  obtain ⟨t', r', het, hrt, hbt⟩ := exec_refinesBlock i ht
  rw [h, hbt, Prod.mk.injEq] at hbs
  obtain ⟨rfl, hblock⟩ := hbs
  exact ⟨s', t', r', hes, hrs, het, hrt, hblock.symm⟩

/-- The same for a sequence of commands. -/
theorem runAll_of_toBlock_eq {s t : State} (hs : RingInv s) (ht : RingInv t) (h : toBlock s = toBlock t)
    (is : List Instr) : ∃ (rs : List Response) (s' t' : State),
      runAll is s = some (rs, s') ∧ runAll is t = some (rs, t') ∧ toBlock s' = toBlock t' := by
  induction is generalizing s t with
  | nil => exact ⟨[], s, t, rfl, rfl, h⟩
  | cons i is ih =>
    obtain ⟨s₁, t₁, r, hes, hrs, het, hrt, hblock⟩ := exec_of_toBlock_eq hs ht h i
    obtain ⟨rs, s', t', hruns, hrunt, hlast⟩ := ih (ringInv_kept.exec hs hes) (ringInv_kept.exec ht het) hblock
    exact ⟨r :: rs, s', t', by rw [runAll_cons hes hrs, hruns]; rfl, by rw [runAll_cons het hrt, hrunt]; rfl, hlast⟩

end Sys2Proof.Machine
end

section
/-! The statements of 10_state.md settled. -/

namespace Sys2Proof.Proofs

open Sys2Proof.Machine

/-- Settles O4: every command keeps legality because the five operations do; a reset leads to the legal reset state, and
an idle step and the answer `ILLEGAL` touch nothing that legality speaks of. -/
theorem everyStepKeepsTheStateLegal : Obligations.EveryStepKeepsTheStateLegal := by
  unfold Obligations.EveryStepKeepsTheStateLegal
  intro s t h hstep
  have htake : ∀ rest, StateLegal (takeInput rest s) := fun _ => h
  obtain ⟨-, rfl⟩ | ⟨cs, ce, rest, -, rfl⟩ | ⟨_, _, rest, -, -, rfl⟩ | ⟨_, _, rest, i, -, -, he⟩ := step_cases hstep
  · exact h
  · obtain ⟨⟨hpos, hmax⟩, -⟩ := h
    exact resetStateIsLegal s.cap s.emDrop cs ce hpos hmax
  · have hcontent := contentLegal_kept.respond _ .illegal [] (stateLegal_iff.mp (htake rest)).1
    exact stateLegal_iff.mpr ⟨hcontent, rfl⟩
  · exact stateLegal_exec (htake rest) he

/-- Settles O28: what a caller observes is the block on `Q`, and every command follows that block (O27). -/
theorem physicalIndexesAreUnobservable : Obligations.PhysicalIndexesAreUnobservable := by
  unfold Obligations.PhysicalIndexesAreUnobservable
  intro s t hs ht hobs is
  simp only [obsEq_iff_toBlock_eq] at hobs ⊢
  exact runAll_of_toBlock_eq hs ht hobs is

/-- Settles O2: a reset lists no cell and takes the next draw; no command unlists a cell or draws anew. -/
theorem unwrittenBytesKeepTheirDraw : Obligations.UnwrittenBytesKeepTheirDraw := by
  unfold Obligations.UnwrittenBytesKeepTheirDraw
  refine ⟨fun s cs ce rest => ⟨_, rfl, fun x a => ?_⟩, fun i s t x a he hnone => ?_⟩
  · cases x <;> rfl
  · exact ((keepsWritten_kept s).exec (.refl s) he).unwritten hnone

/-- Settles O5: pushes and `DROP` keep the invariants, the other operations leave the ring registers alone. -/
theorem ringRegistersStayConsistent : Obligations.RingRegistersStayConsistent := by
  unfold Obligations.RingRegistersStayConsistent
  refine ⟨fun cap drop cs ce hpos => ?_, fun i s t h he => ringInv_kept.exec h he, fun s => tail_eq_head_of_full⟩
  exact ⟨Nat.zero_le _, hpos, hpos, (Nat.zero_mod cap).symm⟩

/-- Settles O7: `build_frame` is the only operation that writes `msg_len`. -/
theorem onlyPackWritesTheMessageLength : Obligations.OnlyPackWritesTheMessageLength := by
  unfold Obligations.OnlyPackWritesTheMessageLength
  refine ⟨fun i s t he hp => exec_msgLen_of_not_pack he hp, fun i sh code fields hp s => ?_, fun _ => rfl,
    fun _ _ _ _ => rfl⟩
  obtain ⟨hmin, hmax⟩ := sh.dataSize_bounds
  refine ⟨_, exec_pack_eq hp s, ?_⟩
  rw [respond_msgLen, respond_resp, buildFrame_msgLen_of_packOf hp, len_add_four]
  exact ⟨rfl, by omega, by omega, rfl⟩

/-- Settles O18: the commands that only report, the pushes, `POP`, `EXTRACT` and `PACK_*`, each by the frame of its
operations. -/
theorem commandsWriteOnlyTheirState : Obligations.CommandsWriteOnlyTheirState := by
  unfold Obligations.CommandsWriteOnlyTheirState
  refine ⟨fun i s t he hi => (IsReport.readsOnly hi he).frame, fun i bytes s t he hi => ?_,
    fun s t he => execPop_frame he, fun s t he => execExtract_frame he, fun i sh code fields s t hp he => ?_⟩
  · rw [exec_of_pushes hi] at he
    cases he
    refine ⟨by rw [pushBytes_frame]; rfl, fun a htail ha => ?_⟩
    rw [memRead_respond, memRead_pushBytes_of_ne bytes htail ha]
  · rw [exec_pack_eq hp] at he
    cases he
    refine ⟨by rw [buildFrame_frame]; rfl, fun a ha => ?_⟩
    rw [len_add_four, ← dataBytes_length_of_packOf hp] at ha
    rw [memRead_respond, memRead_buildFrame_ge _ _ _ ha]

/-- Settles O41: `EXTRACT` follows the algorithm on `Q`, which stores a payload exactly when it reaches step 7. -/
theorem stepSevenOverwritesThePayload : Obligations.StepSevenOverwritesThePayload := by
  unfold Obligations.StepSevenOverwritesThePayload
  intro s hring
  obtain ⟨t, e, hexec, he, hresp, -, hkeep, hstore, -⟩ := execExtract_logical hring
  refine ⟨t, e.status, hexec, hresp, ?_⟩
  obtain ⟨hst, hnone⟩ | ⟨hst, len, payload, r, hcand, hlen, hsome⟩ := extractLogical_payload he
  · refine ⟨?_, fun _ => hkeep hnone, ?_⟩ <;> obtain hst | hst | hst := hst <;> simp [hst]
  · obtain ⟨-, hfront, hback⟩ := hstore payload hsome
    refine ⟨?_, ?_, fun _ => ⟨len, payload, r, hcand, hlen, hfront, hback⟩⟩ <;> obtain hst | hst := hst <;> simp [hst]

/-- Settles O1: every register of the reset state is written out in `applyReset` and `State.resetWith`. -/
theorem resetLoadsTheSpecValues : Obligations.ResetLoadsTheSpecValues := by
  unfold Obligations.ResetLoadsTheSpecValues
  refine ⟨fun s cs ce rest => ?_, fun cap drop cs ce => ?_, rfl, rfl, rfl, rfl, rfl, rfl⟩
  · exact ⟨_, rfl, rfl, rfl, rfl, rfl, rfl, rfl, rfl, rfl, rfl, rfl, exec_msgrd_of_no_message rfl⟩
  · exact ⟨_, rfl, rfl, rfl, rfl, rfl, rfl, rfl, rfl, exec_msgrd_of_no_message rfl⟩

end Sys2Proof.Proofs
end

section
/-! The byte order of Int16 and Float32 fields (20_memory.md R45, R46). -/

namespace Sys2Proof

/-- The byte of a pattern that starts at bit `k`, in arithmetic terms. -/
theorem extractLsb'_byte_eq_ofNat {n : Nat} (w : BitVec n) (k : Nat) :
    w.extractLsb' k 8 = BitVec.ofNat 8 (w.toNat / 2 ^ k) := by
  rw [BitVec.extractLsb', Nat.shiftRight_eq_div_pow]

theorem halfBytes_eq_ofNat (u : Half) :
    halfBytes u = [BitVec.ofNat 8 u.toNat, BitVec.ofNat 8 (u.toNat / 256)] := by
  simp only [halfBytes, extractLsb'_byte_eq_ofNat, Nat.reducePow, Nat.div_one]

theorem wordBytes_eq_ofNat (w : Word) :
    wordBytes w = [BitVec.ofNat 8 w.toNat, BitVec.ofNat 8 (w.toNat / 256), BitVec.ofNat 8 (w.toNat / 65536),
      BitVec.ofNat 8 (w.toNat / 16777216)] := by
  simp only [wordBytes, extractLsb'_byte_eq_ofNat, Nat.reducePow, Nat.div_one]

/-- The two bytes of a 16-bit pattern in arithmetic terms make it again (R45). -/
theorem half_ofNat_bytes (u : Half) :
    Machine.half (BitVec.ofNat 8 u.toNat) (BitVec.ofNat 8 (u.toNat / 256)) = u := by
  have hbytes := halfBytes_eq_ofNat u
  simp only [halfBytes, List.cons.injEq, and_true] at hbytes
  obtain ⟨hlo, hhi⟩ := hbytes
  rw [← hlo, ← hhi]
  exact half_of_bytes u

/-- The two's complement pattern of an integer is its residue modulo 65536 (R45). -/
theorem toNat_ofInt_half (v : Int) : (BitVec.ofInt 16 v).toNat = (v % 65536).toNat := BitVec.toNat_ofInt ..

/-- An integer in the range of an Int16 is the two's complement value of its pattern (R45). -/
theorem toInt_ofInt_half {v : Int} (hmin : -32768 ≤ v) (hmax : v ≤ 32767) : (BitVec.ofInt 16 v : Half).toInt = v :=
  BitVec.toInt_ofInt_eq_self (by decide) hmin (by omega)

theorem halfAt_toNat (c : List Byte) (k : Nat) :
    (halfAt c k).toNat = (byteAt c k).toNat + 256 * (byteAt c (k + 1)).toNat := by
  have := (byteAt c k).isLt
  have := (byteAt c (k + 1)).isLt
  rw [halfAt, BitVec.toNat_ofNat, Nat.mod_eq_of_lt (by omega)]

theorem wordAt_toNat (c : List Byte) (k : Nat) :
    (wordAt c k).toNat = (byteAt c k).toNat + 256 * (byteAt c (k + 1)).toNat + 65536 * (byteAt c (k + 2)).toNat
      + 16777216 * (byteAt c (k + 3)).toNat := by
  have := (byteAt c k).isLt
  have := (byteAt c (k + 1)).isLt
  have := (byteAt c (k + 2)).isLt
  have := (byteAt c (k + 3)).isLt
  rw [wordAt, BitVec.toNat_ofNat, Nat.mod_eq_of_lt (by omega)]

end Sys2Proof
end

section
/-! What a command sees of the one before it (20_memory.md R54, R58). -/

namespace Sys2Proof.Machine

/-! ## Reads -/

/-- A later response replaces an earlier one (R78). -/
@[simp] theorem respond_respond (st st' : Status) (r r' : List Byte) (s : State) :
    respond st r (respond st' r' s) = respond st r s := rfl

/-- No command that only reports looks at the response before it. -/
theorem IsReport.exec_respond {i : Instr} (hi : IsReport i) (st : Status) (r : List Byte) (s : State) :
    exec i (respond st r s) = exec i s := by
  obtain rfl | rfl | rfl | rfl | ⟨k, rfl⟩ | ⟨k, rfl⟩ | rfl | ⟨k, rfl⟩ | hu := hi
  any_goals rfl
  obtain ⟨sh, hsh⟩ := Option.isSome_iff_exists.mp hu
  rw [exec_of_unpackOf hsh, exec_of_unpackOf hsh, unpack_eq, unpack_eq, memReadN_respond, respond_respond]

/-- `INDEX` of a logical index the ring holds; the capacity's bound keeps the index a `u16` (R7, R98). -/
theorem exec_index_of_lt {s : State} (hcap : s.cap ≤ Config.capMax) (hring : RingInv s) {n : Nat} (hn : n < s.count) :
    exec (.index (BitVec.ofNat 16 n)) s = .next { s with resp := some (okResponse [ringByte s n]) } := by
  obtain ⟨hcount, -⟩ := hring
  have hindex : (BitVec.ofNat 16 n).toNat = n := by
    rw [Config.capMax] at hcap
    rw [BitVec.toNat_ofNat, Nat.mod_eq_of_lt (by omega)]
  change (if s.count ≤ (BitVec.ofNat 16 n).toNat then _ else answer [ringByte s (BitVec.ofNat 16 n).toNat] s) = _
  rw [hindex, if_neg (by omega)]
  rfl

/-- `MSGRD` of an index inside the message (R143). -/
theorem exec_msgrd_of_lt {k : Byte} {s : State} (hk : k.toNat < s.msgLen) :
    exec (.msgrd k) s = .next { s with resp := some (okResponse [memRead .msg k.toNat s]) } :=
  if_neg (Nat.not_le.mpr hk)

/-! ## A push, then a read -/

theorem pushByte_count_pos {s : State} (h : RingInv s) (b : Byte) : 0 < (pushByte b s).count := by
  obtain ⟨-, hhead, -⟩ := h
  rw [pushByte_count]
  split <;> omega

/-- A byte just pushed is the last of the ring (R58, R94). -/
theorem ringByte_pushByte_last {s : State} (h : RingInv s) (b : Byte) :
    ringByte (pushByte b s) ((pushByte b s).count - 1) = b := by
  have hpos := pushByte_count_pos h b
  rw [ringByte_pushByte h b _ (by omega), if_pos (by omega)]

/-- `INDEX` reads the byte of the `PUSH` before it (R58). -/
theorem exec_index_pushed {b : Byte} {s t : State} (hcap : s.cap ≤ Config.capMax) (hring : RingInv s)
    (he : exec (.push b) s = .next t) :
    exec (.index (BitVec.ofNat 16 (t.count - 1))) t = .next { t with resp := some (okResponse [b]) } := by
  have hring' : RingInv t := ringInv_kept.exec hring he
  obtain ⟨hcap', hpos, hlast⟩ : t.cap ≤ Config.capMax ∧ 0 < t.count ∧ ringByte t (t.count - 1) = b := by
    cases he
    exact ⟨hcap, pushByte_count_pos hring b, ringByte_pushByte_last hring b⟩
  rw [exec_index_of_lt hcap' hring' (Nat.sub_lt hpos Nat.one_pos), hlast]

/-! ## A pack, then a read or the same pack -/

/-- A message just built is what `MSG` holds (R58, R125). -/
theorem memRead_buildFrame_lt (code : Byte) (data : List Byte) (s : State) {a : Nat} (h : a < data.length + 5) :
    memRead .msg a (buildFrame code data s) = (frameBytes s.sm s.em code data).getD a 0 := by
  change memRead .msg a (memWriteN .msg 0 (frameBytes s.sm s.em code data) s) = _
  rw [memRead_memWriteN, if_pos (by rw [frameBytes_length]; omega), Nat.sub_zero]

/-- The bytes listed in `MSG` after building a frame. -/
theorem lookup_msg_buildFrame (code : Byte) (data : List Byte) (s : State) (a : Nat) :
    Mem.lookup (buildFrame code data s).msg a
      = if a < data.length + 5 then some ((frameBytes s.sm s.em code data).getD a 0) else Mem.lookup s.msg a := by
  refine (lookup_memWriteN .msg 0 a (frameBytes s.sm s.em code data) s).trans ?_
  simp only [frameBytes_length, Nat.zero_le, true_and, Nat.zero_add, Nat.sub_zero, cells_msg]

/-- Building the same frame twice leaves what building it once leaves (R54). -/
theorem buildFrame_buildFrame {code : Byte} {data : List Byte} {s : State} (h : Memory.wf Config.mmax s.msg)
    (hd : data.length + 5 ≤ Config.mmax) :
    buildFrame code data (buildFrame code data s) = buildFrame code data s := by
  have hwf : Memory.wf Config.mmax (buildFrame code data s).msg := wf_buildFrame h hd
  have hmsg : (buildFrame code data (buildFrame code data s)).msg = (buildFrame code data s).msg := by
    refine Memory.ext_of_wf (wf_buildFrame hwf hd) hwf fun a => ?_
    simp only [lookup_msg_buildFrame, buildFrame_sm, buildFrame_em]
    split <;> rfl
  exact (buildFrame_frame ..).trans (by rw [hmsg]; rfl)

theorem memWriteN_respond (x : Space) (a : Nat) (vs : List Byte) (st : Status) (r : List Byte) (s : State) :
    memWriteN x a vs (respond st r s) = respond st r (memWriteN x a vs s) := by
  induction vs generalizing a s with
  | nil => rfl
  | cons v vs ih =>
    have hone : memWrite x a v (respond st r s) = respond st r (memWrite x a v s) := by cases x <;> rfl
    rw [memWriteN, hone, ih, memWriteN]

/-- Building a frame does not look at the response before it. -/
theorem buildFrame_respond (code : Byte) (data : List Byte) (st : Status) (r : List Byte) (s : State) :
    buildFrame code data (respond st r s) = respond st r (buildFrame code data s) := by
  rw [buildFrame, memWriteN_respond]
  rfl

/-- `MSGRD` reads the message of the `PACK_*` command before it (R58). -/
theorem exec_msgrd_packed {i : Instr} {sh : Shape} {code : Byte} {fields : List FieldValue} {s t : State} {k : Byte}
    (hp : packOf i = some (sh, code, fields)) (he : exec i s = .next t) (hk : k.toNat < sh.dataSize + 5) :
    exec (.msgrd k) t = .next { t with resp := some (okResponse
      [(wireFrame s.sm s.em (code :: dataBytes fields)).getD k.toNat 0]) } := by
  rw [exec_pack_eq hp] at he
  cases he
  have hinside : k.toNat < (dataBytes fields).length + 5 := by rwa [dataBytes_length_of_packOf hp]
  rw [exec_msgrd_of_lt (by rwa [respond_msgLen, buildFrame_msgLen_of_packOf hp]), memRead_respond,
    memRead_buildFrame_lt _ _ _ hinside, frameBytes_eq_wireFrame]

/-- A `PACK_*` command issued twice leaves what issuing it once leaves (R54). -/
theorem exec_pack_twice {i : Instr} {x : Shape × Byte × List FieldValue} {s t : State} (hp : packOf i = some x)
    (hmsg : Memory.wf Config.mmax s.msg) (he : exec i s = .next t) : exec i t = .next t := by
  obtain ⟨sh, code, fields⟩ := x
  have hfits : (dataBytes fields).length + 5 ≤ Config.mmax := by
    obtain ⟨-, hmax⟩ := sh.dataSize_bounds
    rw [dataBytes_length_of_packOf hp, Config.mmax]
    omega
  rw [exec_pack_eq hp] at he
  cases he
  rw [exec_pack_eq hp, buildFrame_respond, buildFrame_buildFrame hmsg hfits, respond_respond]

end Sys2Proof.Machine
end

section
/-! The statements of 20_memory.md settled. -/

namespace Sys2Proof.Proofs

open Sys2Proof.Machine

/-- Settles O47: the bytes of a pattern are its quotients by powers of 256, and make the pattern again. -/
theorem fieldsAreLittleEndian : Obligations.FieldsAreLittleEndian := by
  unfold Obligations.FieldsAreLittleEndian
  refine ⟨fun v hmin hmax => ?_, halfAt_toNat, fun w => ⟨wordBytes_eq_ofNat w, word_of_bytes w⟩, wordAt_toNat⟩
  rw [← toNat_ofInt_half, half_ofNat_bytes]
  exact ⟨halfBytes_eq_ofNat _, toInt_ofInt_half hmin hmax⟩

/-- Settles O29: a read after a push or a pack by what these leave in the ring and in `MSG`; a repeated command by what
it does not look at, the response, and for `PACK_*` by canonical arrays being equal when they hold the same bytes. -/
theorem commandsSeeEarlierWrites : Obligations.CommandsSeeEarlierWrites := by
  unfold Obligations.CommandsSeeEarlierWrites
  refine ⟨fun b s hcap hring => ?_, fun i sh code fields s t k hp he hk => ?_, fun i s t he hi => ?_,
    fun i x s t hp harrays he => ?_⟩
  · obtain ⟨-, hmax⟩ := hcap
    exact ⟨_, rfl, exec_index_pushed hmax hring rfl, Nat.ne_of_gt (pushByte_count_pos hring b)⟩
  · rw [len_add_four] at hk
    exact exec_msgrd_packed hp he hk
  · obtain ⟨st, r, rfl⟩ := IsReport.readsOnly hi he
    exact (IsReport.exec_respond hi st r s).trans he
  · obtain ⟨-, -, hmsg⟩ := harrays
    exact exec_pack_twice hp hmsg he

end Sys2Proof.Proofs
end

section
/-! The decoder and the encoder undo each other (30_encoding.md R76, R77, R80, R87). The fifteen `PACK_*` commands are one
case: their operands are the typed fields of their shape, written by `dataBytes` and read by `fieldsAt`. -/

namespace Sys2Proof

open Machine

/-! ## The bytes a field is read from -/

theorem byteAt_drop (c : List Byte) (k j : Nat) : byteAt (c.drop k) j = byteAt c (k + j) := by
  simp only [byteAt, List.getD_eq_getElem?_getD, List.getElem?_drop]

/-- Where a field stands is only where reading begins (R74). -/
theorem fieldAt_drop (t : FieldType) (c : List Byte) (k : Nat) : fieldAt t (c.drop k) 0 = fieldAt t c k := by
  cases t <;> simp only [fieldAt, halfAt, wordAt, byteAt_drop, Nat.add_zero, Nat.zero_add]

/-- A field read at the front has the bytes it was read from (R45, R46, R74). -/
theorem bytes_fieldAt_zero {t : FieldType} {c : List Byte} (h : t.size ≤ c.length) :
    (fieldAt t c 0).bytes = c.take t.size := by
  match t, c with
  | .byte, b :: _ => rfl
  | .int16, lo :: hi :: _ => exact bytes_of_half lo hi
  | .float32, b0 :: b1 :: b2 :: b3 :: _ => exact bytes_of_word b0 b1 b2 b3

theorem bytes_fieldAt {t : FieldType} {c : List Byte} {k : Nat} (h : k + t.size ≤ c.length) :
    (fieldAt t c k).bytes = (c.drop k).take t.size := by
  rw [← fieldAt_drop, bytes_fieldAt_zero (by rw [List.length_drop]; omega)]

/-- Fields that end where the byte string ends have the bytes they were read from (R74). -/
theorem dataBytes_fieldsAt {ts : List FieldType} {c : List Byte} {k : Nat}
    (h : c.length = k + (ts.map FieldType.size).sum) : dataBytes (fieldsAt ts c k) = c.drop k := by
  induction ts generalizing k with
  | nil => exact (List.drop_eq_nil_of_le (Nat.le_of_eq h)).symm
  | cons t ts ih =>
    rw [List.map_cons, List.sum_cons] at h
    have hrest : dataBytes (fieldsAt ts c (k + t.size)) = (c.drop k).drop t.size := by
      rw [ih (by omega), List.drop_drop]
    calc dataBytes (fieldsAt (t :: ts) c k)
        = (fieldAt t c k).bytes ++ dataBytes (fieldsAt ts c (k + t.size)) := rfl
      _ = (c.drop k).take t.size ++ (c.drop k).drop t.size := by rw [bytes_fieldAt (by omega), hrest]
      _ = c.drop k := List.take_append_drop ..

/-! ## The `PACK_*` commands by their shape (R80, R86) -/

theorem encode_of_packOf {i : Instr} {sh : Shape} {code : Byte} {fields : List FieldValue}
    (h : packOf i = some (sh, code, fields)) : encode i = (Op.pack sh).code :: code :: dataBytes fields := by
  cases i <;> simp only [packOf, reduceCtorEq, Option.some.injEq, Prod.mk.injEq] at h <;>
    (obtain ⟨rfl, rfl, rfl⟩ := h; rfl)

theorem packOf_assemble (sh : Shape) (c : List Byte) :
    packOf (assemble (.pack sh) c) = some (sh, byteAt c 1, fieldsAt sh.fields c 2) := by cases sh <;> rfl

/-- The shape, the code and the fields determine the assembled `PACK_*` command. -/
theorem assemble_eq_of_packOf_eq {i : Instr} {sh : Shape} {code : Byte} {fields : List FieldValue} {c : List Byte}
    (hi : packOf i = some (sh, code, fields)) (hc : packOf (assemble (.pack sh) c) = packOf i) :
    assemble (.pack sh) c = i := by
  cases i <;> simp only [packOf, reduceCtorEq, Option.some.injEq, Prod.mk.injEq] at hi <;>
    (obtain ⟨rfl, -, -⟩ := hi; simpa [packOf, assemble] using hc)

theorem assemble_encode_of_packOf {i : Instr} {sh : Shape} {code : Byte} {fields : List FieldValue}
    (h : packOf i = some (sh, code, fields)) : assemble (.pack sh) (encode i) = i := by
  have hfields : fieldsAt sh.fields (encode i) 2 = fields := by
    rw [encode_of_packOf h, ← types_of_packOf h]
    simpa using fieldsAt_dataBytes fields [(Op.pack sh).code, code] []
  have hcode : byteAt (encode i) 1 = code := by rw [encode_of_packOf h]; rfl
  exact assemble_eq_of_packOf_eq h (by rw [packOf_assemble, hfields, hcode, h])

/-! ## Decoding an encoding -/

theorem decode_encode_of_packOf {i : Instr} {sh : Shape} {code : Byte} {fields : List FieldValue}
    (h : packOf i = some (sh, code, fields)) : decode (encode i) = .ok i := by
  have hlen : ((Op.pack sh).code :: code :: dataBytes fields).length = 2 + sh.dataSize := by
    rw [List.length_cons, List.length_cons, dataBytes_length_of_packOf h]
    omega
  have hdecode := decode_of_length (Op.ofByte_code (.pack sh)) hlen
  rwa [← encode_of_packOf h, assemble_encode_of_packOf h] at hdecode

theorem decode_encode_of_unpackOf {i : Instr} {sh : Shape} (h : unpackOf i = some sh) : decode (encode i) = .ok i := by
  cases i <;> simp only [unpackOf, reduceCtorEq] at h <;> rfl

/-- Decoding gives back every encoded command whose operands are legal (R76, R80, R87). -/
theorem decode_encode {i : Instr} (hwf : i.wf = true) : decode (encode i) = .ok i := by
  match hp : packOf i, hu : unpackOf i with
  | some (_, _, _), _ => exact decode_encode_of_packOf hp
  | none, some _ => exact decode_encode_of_unpackOf hu
  | none, none =>
    cases i <;> simp only [packOf, unpackOf, reduceCtorEq] at hp hu
    case insert bytes => exact decode_of_length (o := .insert) rfl (Laws.counted_length _ bytes (of_decide_eq_true hwf))
    case feed bytes => exact decode_of_length (o := .feed) rfl (Laws.counted_length _ bytes (of_decide_eq_true hwf))
    case index k => exact congrArg (fun u => Except.ok (Instr.index u)) (half_of_bytes k)
    all_goals rfl

/-! ## Encoding what was decoded -/

/-- A count operand that says how many bytes follow is the one the encoder writes (R76). -/
theorem countBytes_of_length {x lo hi : Byte} {bytes : List Byte}
    (h : bytes.length = (halfAt (x :: lo :: hi :: bytes) 1).toNat) : countBytes bytes = [lo, hi] := by
  rw [countBytes, h, BitVec.ofNat_toNat, BitVec.setWidth_eq]
  exact bytes_of_half lo hi

/-- The bytes after a count operand that says how many they are. -/
theorem counted_split {x : Byte} {r : List Byte} (h : (x :: r).length = 3 + (halfAt (x :: r) 1).toNat) :
    ∃ (lo hi : Byte) (bytes : List Byte), r = lo :: hi :: bytes ∧ countBytes bytes = [lo, hi] := by
  match r with
  | [] | [_] => simp only [List.length_cons, List.length_nil] at h; omega
  | lo :: hi :: bytes =>
    simp only [List.length_cons] at h
    exact ⟨lo, hi, bytes, rfl, countBytes_of_length (x := x) (by omega)⟩

/-- The operands of a command of the right length are legal (R82). -/
theorem wf_assemble {o : Op} {c : List Byte} (hlen : c.length = o.length (halfAt c 1).toNat) :
    (assemble o c).wf = true := by
  have hcount : c.length = 3 + (halfAt c 1).toNat → countFits (c.drop 3) = true := by
    intro h
    have := (halfAt c 1).isLt
    rw [countFits, decide_eq_true_eq, List.length_drop]
    omega
  cases o with
  | insert | feed => exact hcount hlen
  | pack sh | unpack sh => cases sh <;> rfl
  | _ => rfl

theorem encode_assemble_pack {sh : Shape} {r : List Byte} (hlen : ((Op.pack sh).code :: r).length = 2 + sh.dataSize) :
    encode (assemble (.pack sh) ((Op.pack sh).code :: r)) = (Op.pack sh).code :: r := by
  match r with
  | [] =>
    rw [List.length_singleton] at hlen
    omega
  | code :: data => rw [encode_of_packOf (packOf_assemble ..), dataBytes_fieldsAt hlen]; rfl

/-- A byte string with a row's opcode and the row's length is the encoding of the command assembled from it (R87). -/
theorem encode_assemble {o : Op} {r : List Byte}
    (hlen : (o.code :: r).length = o.length (halfAt (o.code :: r) 1).toNat) :
    encode (assemble o (o.code :: r)) = o.code :: r := by
  cases o with
  | pack sh => exact encode_assemble_pack hlen
  | unpack sh =>
    obtain rfl := List.length_eq_zero_iff.mp (Nat.succ.inj hlen)
    cases sh <;> rfl
  | insert | feed =>
    obtain ⟨lo, hi, bytes, rfl, hcount⟩ := counted_split hlen
    exact congrArg (fun n => _ :: (n ++ bytes)) hcount
  | index =>
    obtain ⟨lo, hi, rfl⟩ := List.length_eq_two.mp (Nat.succ.inj hlen)
    exact congrArg (_ :: ·) (bytes_of_half lo hi)
  | push | pld | msgrd =>
    obtain ⟨b, rfl⟩ := List.length_eq_one_iff.mp (Nat.succ.inj hlen)
    rfl
  | isfull | isempty | size | pop | top | extract | msglen =>
    obtain rfl := List.length_eq_zero_iff.mp (Nat.succ.inj hlen)
    rfl

/-- A byte string that decodes is the encoding of a command with legal operands (R82, R87). -/
theorem wf_and_encode_of_decode {c : List Byte} {i : Instr} (h : decode c = .ok i) : i.wf = true ∧ encode i = c := by
  obtain ⟨op, r, o, rfl, hop, hlen, rfl⟩ := decode_cases h
  obtain rfl := Op.code_of_ofByte hop
  exact ⟨wf_assemble hlen, encode_assemble hlen⟩

/-! ## Byte strings that are no command (R81, R82) -/

/-- The first bytes no row of R80 lists (R81). -/
theorem Op.ofByte_eq_none_iff : ∀ op : Byte, Op.ofByte op = none ↔
    op.toNat = 0x00 ∨ (0x09 ≤ op.toNat ∧ op.toNat ≤ 0x0F) ∨ (0x15 ≤ op.toNat ∧ op.toNat ≤ 0x1F)
      ∨ op.toNat = 0x2F ∨ (0x30 ≤ op.toNat ∧ op.toNat ≤ 0x3F) ∨ op.toNat = 0x4F ∨ 0x50 ≤ op.toNat := by
  decide +kernel

theorem decode_of_unlisted {op : Byte} (h : Op.ofByte op = none) (r : List Byte) :
    decode (op :: r) = .error (.illegalOpcode op) := by
  simp only [decode, h]

theorem decode_of_length_ne {op : Byte} {r : List Byte} {o : Op} (ho : Op.ofByte op = some o)
    (hl : (op :: r).length ≠ o.length (halfAt (op :: r) 1).toNat) :
    decode (op :: r) = .error (.wrongLength o (op :: r).length) := by
  simp only [decode, ho]
  exact if_neg hl

/-- A presented byte string that is no command is taken from the port and answered `ILLEGAL` (R81, R82). -/
theorem step_of_decode_error {op : Byte} {operands : List Byte} {e : DecodeError}
    (h : decode (op :: operands) = .error e) (s : State) (rest : List Input) :
    step { s with port := .command op operands :: rest }
      = .next { s with port := rest, resp := some (failResponse .illegal) } := by
  simp only [step, runCommand, commandBytes, h]
  rfl

end Sys2Proof
end

section
/-! The format of a response (30_encoding.md R78, R80). A command ends with `answer` or with `raise`, so the number of its
result bytes is counted once per ending. -/

namespace Sys2Proof.Machine

/-- A command's ending is a next state with a response of `n` result bytes if it is `OK`, and of none if not (R78). -/
def AnswersWith (n : Nat) (o : Host.Outcome State Fault Refusal) : Prop :=
  ∃ (t : State) (r : Response), o = .next t ∧ t.resp = some r ∧ r.result.length = if r.status = .ok then n else 0

theorem answersWith_answer (result : List Byte) (s : State) : AnswersWith result.length (answer result s) :=
  ⟨_, _, rfl, rfl, rfl⟩

theorem answersWith_raise {n : Nat} {st : Status} {s : State} (h : st ≠ .ok) : AnswersWith n (raise st s) :=
  ⟨_, _, rfl, rfl, (if_neg h).symm⟩

theorem AnswersWith.ite {n : Nat} {p : Prop} [Decidable p] {o o' : Host.Outcome State Fault Refusal}
    (h : AnswersWith n o) (h' : AnswersWith n o') : AnswersWith n (if p then o else o') := by
  split
  · exact h
  · exact h'

/-- Every way `EXTRACT` ends on a ring that holds a byte: `OK` carries no result bytes (R112 to R118). -/
theorem answersWith_extractFrame (s : State) : AnswersWith 0 (extractFrame s) :=
  .ite (answersWith_raise nofun) <| .ite (answersWith_raise nofun) <| .ite (answersWith_raise nofun) <|
    .ite (answersWith_raise nofun) (answersWith_answer ..)

theorem resultSize_of_packOf {i : Instr} {x : Shape × Byte × List FieldValue} (h : packOf i = some x) :
    resultSize i = 1 := by
  cases i <;> simp only [packOf, reduceCtorEq] at h <;> rfl

theorem resultSize_of_unpackOf {i : Instr} {sh : Shape} (h : unpackOf i = some sh) : resultSize i = 1 + sh.dataSize := by
  cases i <;> simp only [unpackOf, reduceCtorEq, Option.some.injEq] at h <;> (subst h; rfl)

/-- Every command's response has its row's number of result bytes (R78, R80). -/
theorem exec_answersWith (i : Instr) (s : State) : AnswersWith (resultSize i) (exec i s) := by
  match hp : packOf i, hu : unpackOf i with
  | some (_, _, _), _ =>
    rw [exec_of_packOf hp, resultSize_of_packOf hp]
    exact answersWith_answer ..
  | none, some sh =>
    have hread : (memReadN .pl 0 (1 + sh.dataSize) s).length = resultSize i := by
      rw [memReadN_length, resultSize_of_unpackOf hu]
    rw [exec_of_unpackOf hu, unpack_eq, ← hread]
    exact answersWith_answer ..
  | none, none =>
    cases i <;> simp only [packOf, unpackOf, reduceCtorEq] at hp hu
    case extract => exact .ite (answersWith_raise nofun) (answersWith_extractFrame _)
    case pop | top | index | pld | msgrd => exact .ite (answersWith_raise nofun) (answersWith_answer ..)
    all_goals exact answersWith_answer ..

end Sys2Proof.Machine
end

section
/-! The statements of 30_encoding.md settled. -/

namespace Sys2Proof.Proofs

open Sys2Proof.Machine

/-- Settles O9: the `PACK_*` commands by their shape, the rest one by one; a legal count operand holds the length. -/
theorem decodeInvertsEncode : Obligations.DecodeInvertsEncode := by
  unfold Obligations.DecodeInvertsEncode
  exact fun _ => decode_encode

/-- Settles O10: the row's length leaves no byte that the assembled operands do not hold. -/
theorem encodeInvertsDecode : Obligations.EncodeInvertsDecode := by
  unfold Obligations.EncodeInvertsDecode
  exact fun _ _ => wf_and_encode_of_decode

/-- Settles O12: the 256 values of `C[0]` looked up; an unlisted one stops the decoder before anything is executed. -/
theorem unlistedOpcodesAreIllegal : Obligations.UnlistedOpcodesAreIllegal := by
  unfold Obligations.UnlistedOpcodesAreIllegal
  exact ⟨Op.ofByte_eq_none_iff, fun s op operands rest h => step_of_decode_error (decode_of_unlisted h operands) s rest⟩

/-- Settles O13: the length is the decoder's only check after the opcode, and it makes the operands legal. -/
theorem wrongLengthsAreIllegal : Obligations.WrongLengthsAreIllegal := by
  unfold Obligations.WrongLengthsAreIllegal
  refine fun s op operands rest o ho => ⟨fun hne => ?_, fun hlen => ?_⟩
  · exact step_of_decode_error (decode_of_length_ne ho hne) s rest
  · have hdecode := decode_of_length ho hlen
    exact ⟨_, wf_assemble hlen, hdecode, stepRunsTheDecodedCommand _ op operands rest _ rfl hdecode⟩

/-- Settles O16: by how a command may end, with `answer` or with `raise`. -/
theorem responsesHaveTheirFormat : Obligations.ResponsesHaveTheirFormat := by
  unfold Obligations.ResponsesHaveTheirFormat
  refine ⟨fun i s => ?_, rfl⟩
  obtain ⟨t, r, hexec, hresp, hlen⟩ := exec_answersWith i s
  exact ⟨t, r, hexec, hresp, hlen, rfl⟩

/-- Settles O11: each of the eight strings is the encoding of the command it stands for, so it decodes to it (O9). -/
theorem specWordsDecode : Obligations.SpecWordsDecode := by
  unfold Obligations.SpecWordsDecode
  exact ⟨decode_encode (i := .push 0x41) rfl, decode_encode (i := .insert [0x41, 0x02, 0x05, 0xC8, 0x23, 0xF7]) rfl,
    decode_encode (i := .index 300) rfl, decode_encode (i := .extract) rfl,
    decode_encode (i := .packI2 17 32767 (-1)) rfl, decode_encode (i := .packF1 32 0x3F800000) rfl,
    decode_encode (i := .packB2F1 49 0x41 0x23 0x40200000) rfl, decode_encode (i := .unpackB2F1) rfl⟩

/-- Settles O48: the table is computed from the shapes' fields; the fields of a `PACK_*` command have its shape's types,
so their sizes add up to `D`. -/
theorem shapeTableIsTheSpecs : Obligations.ShapeTableIsTheSpecs := by
  unfold Obligations.ShapeTableIsTheSpecs
  exact ⟨by decide, fun _ => ⟨rfl, rfl⟩, fun _ _ _ _ h => ⟨types_of_packOf h, dataBytes_length_of_packOf h⟩⟩

end Sys2Proof.Proofs
end

section
/-! The Ring Buffer commands one by one (40_ring_buffer.md R93 to R98), what overflow leaves of a sequence (R97, R100),
and runs of pushes, of `POP`s and of `INDEX` reads (R99, R100). -/

namespace Sys2Proof.Machine

/-! ## How each command ends -/

theorem exec_push (b : Byte) (s : State) : exec (.push b) s = .next (respond .ok [] (pushByte b s)) := rfl

theorem exec_insert (bytes : List Byte) (s : State) :
    exec (.insert bytes) s = .next (respond .ok [] (pushBytes bytes s)) := rfl

theorem exec_size (s : State) :
    exec .size s = .next (respond .ok [BitVec.ofNat 8 s.count, BitVec.ofNat 8 (s.count / 256)] s) := by
  rw [← u16Result_eq]
  rfl

theorem isEmpty_eq_true_iff {s : State} : isEmpty s = true ↔ s.count = 0 := beq_iff_eq

theorem exec_pop_of_empty {s : State} (h : s.count = 0) : exec .pop s = .next (respond .empty [] s) :=
  if_pos (isEmpty_eq_true_iff.mpr h)

theorem exec_pop_of_nonempty {s : State} (h : s.count ≠ 0) :
    exec .pop s = .next (respond .ok [memRead .st s.head s] (dropBytes 1 s)) :=
  if_neg (mt isEmpty_eq_true_iff.mp h)

theorem exec_top_of_empty {s : State} (h : s.count = 0) : exec .top s = .next (respond .empty [] s) :=
  if_pos (isEmpty_eq_true_iff.mpr h)

theorem exec_top_of_nonempty {s : State} (h : s.count ≠ 0) :
    exec .top s = .next (respond .ok [memRead .st s.head s] s) :=
  if_neg (mt isEmpty_eq_true_iff.mp h)

theorem exec_index_of_count_le {k : Half} {s : State} (h : s.count ≤ k.toNat) :
    exec (.index k) s = .next (respond .range [] s) := if_pos h

theorem exec_index_of_toNat_lt {k : Half} {s : State} (h : k.toNat < s.count) :
    exec (.index k) s = .next (respond .ok [ringByte s k.toNat] s) := if_neg (Nat.not_le.mpr h)

/-- Logical index 0 is the byte at `head` (R31). -/
theorem ringByte_zero {s : State} (h : RingInv s) : ringByte s 0 = memRead .st s.head s := by
  obtain ⟨-, hhead, -⟩ := h
  rw [ringByte, ringSlot, Nat.add_zero, Nat.mod_eq_of_lt hhead]

/-! ## What a push leaves -/

/-- A read after a push (R94). -/
theorem memRead_pushByte (b : Byte) (a : Nat) (s : State) :
    memRead .st a (pushByte b s) = if a = s.tail then b else memRead .st a s := memRead_memWrite .st s.tail a b s

/-- A full ring loses its oldest byte to a push (R94). -/
theorem logical_pushByte_full {s : State} (h : RingInv s) (hfull : s.count = s.cap) (b : Byte) :
    logical (pushByte b s) = (logical s).tail ++ [b] := by
  have hne : logical s ≠ [] := by
    obtain ⟨-, hhead, -⟩ := h
    rw [Ne, logical_eq_nil]
    omega
  have hdrop : s.cap + 1 - min s.cap (s.cap + 1) = 1 := by omega
  rw [logical_pushByte h, lastN, List.length_append, logical_length, List.length_singleton, hfull, hdrop,
    List.drop_one, List.tail_append_of_ne_nil hne]

/-- The last elements of a sequence do not depend on what stands before them. -/
theorem lastN_append_of_le {k : Nat} (q : List Byte) {r : List Byte} (h : k ≤ r.length) :
    lastN k (q ++ r) = lastN k r := by
  rw [lastN, List.length_append, Nat.add_sub_assoc h, List.drop_length_add_append, lastN]

/-- A sequence no shorter than the ring pushes out everything before it (R97, R100). -/
theorem logical_pushBytes_overflow {s : State} (h : RingInv s) {bytes : List Byte} (hlen : s.cap ≤ bytes.length) :
    logical (pushBytes bytes s) = lastN s.cap bytes := by
  rw [logical_pushBytes h, Nat.min_eq_left (by omega), lastN_append_of_le _ hlen]

/-- Pushes do not look at the response before them. -/
theorem pushBytes_respond (bytes : List Byte) (st : Status) (r : List Byte) (s : State) :
    pushBytes bytes (respond st r s) = respond st r (pushBytes bytes s) := by
  induction bytes generalizing s with
  | nil => rfl
  | cons b bs ih => exact ih (pushByte b s)

/-! ## Runs of the ring commands -/

theorem runAll_cons_eq_some {i : Instr} {is : List Instr} {s t u : State} {r : Response} {rs : List Response}
    (he : exec i s = .next t) (hr : t.resp = some r) (hrun : runAll is t = some (rs, u)) :
    runAll (i :: is) s = some (r :: rs, u) := by
  rw [runAll_cons he hr, hrun, Option.map_some]

theorem runAll_append_eq_some {is js : List Instr} {s t u : State} {rs rs' : List Response}
    (his : runAll is s = some (rs, t)) (hjs : runAll js t = some (rs', u)) :
    runAll (is ++ js) s = some (rs ++ rs', u) := by
  rw [runAll_append, his, Option.bind_some, hjs, Option.map_some]

/-- Single pushes all answer `OK` and leave in the ring what pushing the whole sequence leaves (R97, R99, R100). -/
theorem runAll_push {s : State} (h : RingInv s) (bytes : List Byte) : ∃ t : State,
    runAll (bytes.map .push) s = some (bytes.map fun _ => okResponse [], t)
      ∧ RingInv t ∧ t.cap = s.cap ∧ logical t = logical (pushBytes bytes s) := by
  induction bytes generalizing s with
  | nil => exact ⟨s, rfl, h, rfl, rfl⟩
  | cons b bs ih =>
    have hpushed : RingInv (respond .ok [] (pushByte b s)) := ringInv_pushByte h b
    obtain ⟨t, hrun, hring, hcap, hlog⟩ := ih hpushed
    rw [pushBytes_respond, logical_respond] at hlog
    exact ⟨t, runAll_cons_eq_some (exec_push b s) rfl hrun, hring, hcap, hlog⟩

/-- As many `POP`s as the ring holds bytes give `Q` in order and leave the ring empty (R99). -/
theorem runAll_pop {s : State} (h : RingInv s) {q : List Byte} (hq : logical s = q) : ∃ t : State,
    runAll (List.replicate q.length .pop) s = some (q.map fun b => okResponse [b], t) ∧ logical t = [] := by
  induction q generalizing s with
  | nil => exact ⟨s, rfl, hq⟩
  | cons b q ih =>
    have hne : s.count ≠ 0 := by rw [← logical_length, hq]; exact Nat.succ_ne_zero _
    have hcons := logical_eq_cons h hne
    rw [hq, List.cons.injEq] at hcons
    obtain ⟨hfirst, hrest⟩ := hcons
    have hpopped : RingInv (respond .ok [memRead .st s.head s] (dropBytes 1 s)) := ringInv_dropBytes h (by omega)
    have hleft : logical (respond .ok [memRead .st s.head s] (dropBytes 1 s)) = q := by
      rw [logical_respond, logical_dropBytes, hq, List.drop_one, List.tail_cons]
    obtain ⟨t, hrun, hempty⟩ := ih hpopped hleft
    exact ⟨t, runAll_cons_eq_some (exec_pop_of_nonempty hne) (by rw [hfirst]; rfl) hrun, hempty⟩

/-- `INDEX` reads of logical indexes the ring holds (R98, R100). -/
theorem runAll_index {s : State} (hcap : s.cap ≤ Config.capMax) (h : RingInv s) {ns : List Nat}
    (hns : ∀ n ∈ ns, n < s.count) : ∃ t : State,
    runAll (ns.map fun n => .index (BitVec.ofNat 16 n)) s = some (ns.map fun n => okResponse [ringByte s n], t) := by
  induction ns generalizing s with
  | nil => exact ⟨s, rfl⟩
  | cons n ns ih =>
    obtain ⟨hn, hrest⟩ := List.forall_mem_cons.mp hns
    obtain ⟨t, hrun⟩ := ih (s := respond .ok [ringByte s n] s) hcap h hrest
    exact ⟨t, runAll_cons_eq_some (exec_index_of_lt hcap h hn) rfl hrun⟩

/-- `Q` as the bytes that `INDEX` reads one after another (R16, R98). -/
theorem map_ringByte_range (s : State) : (List.range s.count).map (ringByte s) = logical s := by
  simp only [logical, ringBytes, Nat.zero_add]

end Sys2Proof.Machine
end

section
/-! The statements of 40_ring_buffer.md R91 to R100 settled. -/

namespace Sys2Proof.Proofs

open Sys2Proof.Machine

/-- Settles O20: the push on the registers and on `ST` as it is written, on `Q` by whether the ring is full. -/
theorem pushAppendsOrEvicts : Obligations.PushAppendsOrEvicts := by
  unfold Obligations.PushAppendsOrEvicts
  refine fun b => ⟨rfl, fun s => ⟨_, exec_push b s, ?_, fun a ha => ?_, rfl, fun hfull => ?_, fun hroom => ?_, rfl,
    fun hring => ⟨?_, ?_⟩⟩⟩
  · rw [memRead_respond, memRead_pushByte, if_pos rfl]
  · rw [memRead_respond, memRead_pushByte, if_neg ha]
  · exact ⟨if_pos hfull, if_pos hfull⟩
  · exact ⟨if_neg hroom, if_neg hroom⟩
  · rw [logical_respond]
    split
    case isTrue hlt => exact logical_pushBytes_fits hring (bytes := [b]) hlt
    case isFalse hge =>
      have ⟨hle, _⟩ := hring
      exact logical_pushByte_full hring (Nat.le_antisymm hle (Nat.not_lt.mp hge)) b
  · rw [logical_respond, logical_pushByte hring, logical_length]

/-- Settles O21: `POP` is `DROP` of one byte, and the byte at `head` is the first of `Q`. -/
theorem popReturnsTheOldestByte : Obligations.PopReturnsTheOldestByte := by
  unfold Obligations.PopReturnsTheOldestByte
  refine ⟨rfl, fun _ => exec_pop_of_empty, fun _ => exec_pop_of_nonempty, fun s hne hring => ?_⟩
  refine ⟨_, exec_pop_of_nonempty hne, ?_⟩
  rw [logical_respond, logical_dropBytes]
  exact logical_eq_cons hring hne

/-- Settles O22: the byte at `head` is logical index 0, which `INDEX 0` reads. -/
theorem topReportsTheOldestByte : Obligations.TopReportsTheOldestByte := by
  unfold Obligations.TopReportsTheOldestByte
  refine ⟨rfl, fun _ => exec_top_of_empty, fun _ => exec_top_of_nonempty, fun s hne hring => ⟨?_, ?_⟩,
    fun s hempty => exec_index_of_count_le (Nat.le_of_eq hempty)⟩
  · rw [logical_eq_cons hring hne, List.head?_cons]
  · have hindex : exec (.index 0) s = .next (respond .ok [ringByte s 0] s) :=
      exec_index_of_toNat_lt (Nat.pos_of_ne_zero hne)
    rw [exec_top_of_nonempty hne, hindex, ringByte_zero hring]

/-- Settles O23: `INSERT` pushes its bytes in order, and a push does not look at the response before it. -/
theorem insertIsRepeatedPush : Obligations.InsertIsRepeatedPush := by
  unfold Obligations.InsertIsRepeatedPush
  refine ⟨fun bytes => ?_, fun _ => rfl, fun b bytes s => ⟨_, exec_push b s, ?_⟩, fun _ _ => rfl,
    fun bytes s => ⟨_, exec_insert bytes s, rfl, fun hring => ?_⟩⟩
  · exact congrArg (fun count => 0x07 :: (count ++ bytes)) (u16Result_eq bytes.length)
  · rw [exec_insert, exec_insert, pushBytes_respond, respond_respond, pushBytes_cons]
  · rw [logical_respond, logical_length]
    exact ⟨logical_pushBytes hring bytes, logical_pushBytes_overflow hring, logical_pushBytes_fits hring⟩

/-- Settles O24: below `count` the byte read is the element of `Q` at that position. -/
theorem indexReadsTheLogicalByte : Obligations.IndexReadsTheLogicalByte := by
  unfold Obligations.IndexReadsTheLogicalByte
  refine ⟨fun lo hi => congrArg (0x08 :: ·) (bytes_of_half lo hi), fun k s => exec_index_of_count_le,
    fun k s hk => ⟨exec_index_of_toNat_lt hk, ?_⟩⟩
  have hlen : k.toNat < (logical s).length := by rwa [logical_length]
  rw [List.getElem?_eq_getElem hlen, logical_getElem]
  rfl

/-- Settles O25: the pushes make `Q` the sequence itself, and the `POP`s give `Q` in order. -/
theorem ringIsFifo : Obligations.RingIsFifo := by
  unfold Obligations.RingIsFifo
  intro bytes s _ hring hempty hfits
  have hzero : s.count = 0 := logical_eq_nil.mp hempty
  obtain ⟨t, hpush, htring, -, hlog⟩ := runAll_push hring bytes
  rw [logical_pushBytes_fits hring (by omega), hempty, List.nil_append] at hlog
  have hcount : t.count = bytes.length := by rw [← logical_length, hlog]
  have hsize := exec_size t
  rw [hcount] at hsize
  obtain ⟨u, hpop, hdone⟩ := runAll_pop (s := respond .ok _ t) htring hlog
  have hlast := runAll_cons_eq_some (is := []) (exec_pop_of_empty (logical_eq_nil.mp hdone)) rfl rfl
  exact ⟨_, runAll_append_eq_some hpush (runAll_cons_eq_some hsize rfl (runAll_append_eq_some hpop hlast))⟩

/-- Settles O26: the pushes make `Q` the last `CAP` bytes of the sequence, and the `INDEX` reads give `Q` in order; the
capacity's bound keeps every index a `u16`. -/
theorem overflowKeepsTheLastBytes : Obligations.OverflowKeepsTheLastBytes := by
  unfold Obligations.OverflowKeepsTheLastBytes
  rintro bytes s ⟨-, hmax⟩ hring - hlong
  obtain ⟨t, hpush, htring, hcap, hlog⟩ := runAll_push hring bytes
  rw [logical_pushBytes_overflow hring (Nat.le_of_lt hlong)] at hlog
  have hcount : t.count = s.cap := by
    rw [← logical_length, hlog, lastN_length, Nat.min_eq_left (Nat.le_of_lt hlong)]
  have hsize := exec_size t
  rw [hcount] at hsize
  obtain ⟨u, hindex⟩ := runAll_index (s := respond .ok _ t) (hcap.trans_le hmax) htring (ns := List.range s.cap)
    fun n hn => by rwa [respond_count, hcount, ← List.mem_range]
  have hreads : (List.range s.cap).map (fun n => okResponse [ringByte t n])
      = (bytes.drop (bytes.length - s.cap)).map fun b => okResponse [b] := by
    calc (List.range s.cap).map (fun n => okResponse [ringByte t n])
        = ((List.range t.count).map (ringByte t)).map fun b => okResponse [b] := by rw [hcount, List.map_map]; rfl
      _ = (lastN s.cap bytes).map fun b => okResponse [b] := by rw [map_ringByte_range, hlog]
  rw [← hreads]
  exact ⟨u, runAll_append_eq_some hpush (runAll_cons_eq_some hsize rfl hindex)⟩

/-- Settles O19: each of the three reports a condition or the count, and `Q` has `count` elements. -/
theorem ringPredicatesReportTheCount : Obligations.RingPredicatesReportTheCount := by
  unfold Obligations.RingPredicatesReportTheCount
  refine ⟨rfl, rfl, rfl, fun s => ⟨?_, ?_, exec_size s, logical_length s, fun ⟨hle, _⟩ => hle⟩⟩
  · have hflag : flagByte (isFull s) = if s.count = s.cap then 1 else 0 := by simp only [flagByte, isFull, beq_iff_eq]
    rw [← hflag]
    rfl
  · have hflag : flagByte (isEmpty s) = if s.count = 0 then 1 else 0 := by simp only [flagByte, isEmpty_eq_true_iff]
    rw [← hflag]
    rfl

end Sys2Proof.Proofs
end

section
/-! The checksum as a linear map on bits (41_deframer.md R105, R106): the iteration of a xor is the xor of the iterations,
and an iteration on a zero bit loses nothing. That a single flipped bit always shows follows from these two facts. -/

namespace Sys2Proof.Machine

/-! ## One iteration -/

/-- What an iteration xors into the shifted checksum (R105). -/
def crcMask (mix : Bool) : Byte := if mix then 0x8C else 0x00

theorem crcMask_xor (x y : Bool) : crcMask (x ^^ y) = crcMask x ^^^ crcMask y := by cases x <;> cases y <;> decide

theorem crcBit_eq (c d : Byte) : crcBit c d = (c >>> 1) ^^^ crcMask (c.getLsbD 0 ^^ d.getLsbD 0) := by
  unfold crcBit crcMask
  split
  case isTrue => rfl
  case isFalse => exact BitVec.xor_zero.symm

theorem crcBit_zero (c : Byte) : crcBit c 0#8 = (c >>> 1) ^^^ crcMask (c.getLsbD 0) := by
  rw [crcBit_eq, BitVec.getLsbD_zero, Bool.xor_false]

/-- The iteration of a xor is the xor of the iterations (R106 (e)). -/
theorem crcBit_xor (a b c d : Byte) : crcBit (a ^^^ b) (c ^^^ d) = crcBit a c ^^^ crcBit b d := by
  simp only [crcBit_eq, BitVec.getLsbD_xor, BitVec.ushiftRight_xor_distrib, crcMask_xor]
  ac_rfl

/-- The mixed bit is the parity of the sum (R105). -/
theorem getLsbD_zero_bne_iff (c d : Byte) :
    (c.getLsbD 0 != d.getLsbD 0) = true ↔ (c.toNat + d.toNat) % 2 = 1 := by
  have parity : ∀ b : Byte, b.getLsbD 0 = decide (b.toNat % 2 = 1) := fun b => Nat.testBit_zero b.toNat
  rw [bne_iff_ne, parity, parity, Ne, decide_eq_decide]
  omega

/-- A byte shifted right is its quotient by a power of two. -/
theorem ofNat_div_two_pow (d : Byte) (j : Nat) : BitVec.ofNat 8 (d.toNat / 2 ^ j) = d >>> j := by
  rw [← Nat.shiftRight_eq_div_pow, ← BitVec.toNat_ushiftRight, BitVec.ofNat_toNat, BitVec.setWidth_eq]

/-- The iteration in arithmetic terms (R105). -/
theorem crcBit_eq_div (c d : Byte) : crcBit c d
    = if (c.toNat + d.toNat) % 2 = 1 then BitVec.ofNat 8 (c.toNat / 2) ^^^ 0x8C else BitVec.ofNat 8 (c.toNat / 2) := by
  have hhalf : BitVec.ofNat 8 (c.toNat / 2) = c >>> 1 := ofNat_div_two_pow c 1
  simp only [crcBit, getLsbD_zero_bne_iff, hhalf]

/-- An iteration on a zero bit takes no other checksum to zero: the mask sets the bit that the shift clears (R106 (e)). -/
theorem crcBit_zero_ne_zero {c : Byte} (hc : c ≠ 0#8) : crcBit c 0#8 ≠ 0#8 := by
  intro h
  rw [crcBit_zero] at h
  cases hlow : c.getLsbD 0 with
  | true =>
    have htop := congrArg (BitVec.getLsbD · 7) h
    simp [hlow, crcMask] at htop
  | false =>
    refine hc (BitVec.eq_of_getLsbD_eq fun i hi => ?_)
    cases i with
    | zero => rw [hlow, BitVec.getLsbD_zero]
    | succ i =>
      have hbit := congrArg (BitVec.getLsbD · i) h
      rw [hlow] at hbit
      simpa [crcMask, Nat.add_comm 1] using hbit

theorem crcBit_zero_injective : Function.Injective fun c : Byte => crcBit c 0#8 := by
  intro a b h
  have hdiff : crcBit (a ^^^ b) (0#8 ^^^ 0#8) = 0#8 := by
    rw [crcBit_xor]
    exact BitVec.xor_eq_zero_iff.mpr h
  exact BitVec.xor_eq_zero_iff.mp (not_not.mp fun hne => crcBit_zero_ne_zero hne hdiff)

/-! ## One byte -/

theorem crcIter_xor (n : Nat) (a b c d : Byte) :
    crcIter n (a ^^^ b) (c ^^^ d) = crcIter n a c ^^^ crcIter n b d := by
  induction n generalizing a b c d with
  | zero => rfl
  | succ n ih => simp only [crcIter, crcBit_xor, BitVec.ushiftRight_xor_distrib, ih]

/-- A checksum mixed with itself is shifted out. -/
theorem crcIter_self (n : Nat) (c : Byte) : crcIter n c c = c >>> n := by
  induction n generalizing c with
  | zero => exact (BitVec.ushiftRight_zero c).symm
  | succ n ih =>
    have hbit : crcBit c c = c >>> 1 := by rw [crcBit_eq, Bool.xor_self]; exact BitVec.xor_zero
    rw [crcIter, hbit, ih, ← BitVec.shiftRight_add, Nat.add_comm]

theorem crcIter_zero_ne_zero (n : Nat) {c : Byte} (hc : c ≠ 0#8) : crcIter n c 0#8 ≠ 0#8 := by
  induction n generalizing c with
  | zero => exact hc
  | succ n ih => exact ih (crcBit_zero_ne_zero hc)

/-- The iterations as a loop over the data byte's bits, the lowest first (R105). -/
theorem crcIter_eq_foldl (n : Nat) (c d : Byte) :
    crcIter n c d = (List.range n).foldl (fun x j => crcBit x (d >>> j)) c := by
  induction n generalizing c d with
  | zero => rfl
  | succ n ih =>
    rw [crcIter, ih, List.range_succ_eq_map, List.foldl_cons, List.foldl_map, BitVec.ushiftRight_zero]
    simp only [← BitVec.shiftRight_add, Nat.succ_eq_add_one, Nat.add_comm 1]

theorem crcByte_xor (a b c d : Byte) : crcByte (a ^^^ b) (c ^^^ d) = crcByte a c ^^^ crcByte b d := crcIter_xor ..

theorem crcByte_self (c : Byte) : crcByte c c = 0#8 :=
  (crcIter_self 8 c).trans (BitVec.ushiftRight_eq_zero (Nat.le_refl 8))

/-- Only the byte that equals the checksum before it takes the checksum to zero, since a byte counts as its difference
from that checksum. -/
theorem crcByte_eq_zero_iff {c d : Byte} : crcByte c d = 0#8 ↔ c = d := by
  have hdiff : crcByte c d = crcByte (c ^^^ d) 0#8 := by
    have h := crcByte_xor (c ^^^ d) d 0#8 d
    rwa [crcByte_self, BitVec.xor_assoc, BitVec.xor_self, BitVec.xor_zero, BitVec.zero_xor, BitVec.xor_zero] at h
  rw [hdiff]
  refine ⟨fun h => ?_, fun h => ?_⟩
  · exact BitVec.xor_eq_zero_iff.mp (not_not.mp fun hne => crcIter_zero_ne_zero 8 hne h)
  · rw [h, BitVec.xor_self]
    exact crcByte_self 0#8

theorem crcByte_inj_data {c d e : Byte} : crcByte c d = crcByte c e ↔ d = e := by
  have h := crcByte_xor c c d e
  rw [BitVec.xor_self] at h
  rw [← BitVec.xor_eq_zero_iff, ← h, crcByte_eq_zero_iff, eq_comm, BitVec.xor_eq_zero_iff]

theorem crcByte_inj_seed {b c d : Byte} : crcByte b d = crcByte c d ↔ b = c := by
  have h := crcByte_xor b c d d
  rw [BitVec.xor_self] at h
  rw [← BitVec.xor_eq_zero_iff, ← h, crcByte_eq_zero_iff, BitVec.xor_eq_zero_iff]

/-! ## A sequence of bytes -/

theorem foldl_crcByte_inj {a b : Byte} (m : List Byte) : m.foldl crcByte a = m.foldl crcByte b ↔ a = b := by
  induction m generalizing a b with
  | nil => rfl
  | cons d m ih => exact ih.trans crcByte_inj_seed

theorem foldl_crcByte_xor {m m' : List Byte} (a b : Byte) (h : m.length = m'.length) :
    (List.zipWith (· ^^^ ·) m m').foldl crcByte (a ^^^ b) = m.foldl crcByte a ^^^ m'.foldl crcByte b := by
  induction m generalizing m' a b with
  | nil =>
    obtain rfl := List.length_eq_zero_iff.mp h.symm
    rfl
  | cons x m ih =>
    cases m' with
    | nil => cases h
    | cons y m' =>
      rw [List.zipWith_cons_cons, List.foldl_cons, crcByte_xor]
      exact ih _ _ (Nat.succ.inj h)

theorem crc8_append_byte (m : List Byte) (d : Byte) : crc8 (m ++ [d]) = crcByte (crc8 m) d := crc8_append m [d]

/-- Zero bytes do not move the seed 0 (R106 (b)). -/
theorem crc8_replicate_zero (n : Nat) : crc8 (List.replicate n 0#8) = 0#8 := by
  induction n with
  | zero => rfl
  | succ n ih => rw [List.replicate_succ', crc8_append_byte, ih, crcByte_self]

theorem crc8_replicate_zero_append (n : Nat) (m : List Byte) : crc8 (List.replicate n 0#8 ++ m) = crc8 m := by
  rw [crc8_append, crc8_replicate_zero]
  rfl

/-- A sequence followed by its own checksum checks to zero (R106 (c)). -/
theorem crc8_append_crc8 (m : List Byte) : crc8 (m ++ [crc8 m]) = 0#8 := by
  rw [crc8_append_byte, crcByte_self]

/-- One byte of a sequence changed changes the checksum, wherever it stands. -/
theorem crc8_inj_byte (m r : List Byte) {x y : Byte} : crc8 (m ++ x :: r) = crc8 (m ++ y :: r) ↔ x = y := by
  rw [crc8_append, crc8_append, List.foldl_cons, List.foldl_cons, foldl_crcByte_inj, crcByte_inj_data]

/-! ## A flipped bit (R123) -/

theorem flipBit_ne {j : Nat} (hj : j < 8) (b : Byte) : flipBit b j ≠ b := by
  intro h
  have hbit := congrArg (BitVec.getLsbD · j) h
  simp [flipBit, hj] at hbit

/-- A single flipped bit changes the checksum (R106 (e)). -/
theorem crc8_set_flipBit_ne (m : List Byte) {k j : Nat} (hk : k < m.length) (hj : j < 8) :
    crc8 (m.set k (flipBit m[k] j)) ≠ crc8 m := by
  have hsplit : m = m.take k ++ m[k] :: m.drop (k + 1) := by
    rw [← List.drop_eq_getElem_cons hk, List.take_append_drop]
  rw [List.set_eq_take_append_cons_drop, if_pos hk]
  conv_rhs => rw [hsplit]
  exact fun h => flipBit_ne hj _ ((crc8_inj_byte _ _).mp h)

end Sys2Proof.Machine
end

section
/-! `DROP` and the commands of the ingest path one by one (41_deframer.md R107 to R121). `EXTRACT` is described once, by
what the algorithm on `Q` says of it; each way it ends is then an equation about that algorithm. -/

namespace Sys2Proof.Machine

/-! ## `DROP` (R107) -/

theorem dropBytes_zero {s : State} (h : RingInv s) : dropBytes 0 s = s := by
  obtain ⟨-, hhead, -⟩ := h
  simp only [dropBytes, Nat.add_zero, Nat.sub_zero, Nat.mod_eq_of_lt hhead]

theorem dropBytes_dropBytes (m n : Nat) (s : State) : dropBytes n (dropBytes m s) = dropBytes (m + n) s := by
  simp only [dropBytes, Nat.mod_add_mod, Nat.add_assoc, Nat.sub_sub]

/-- As many `POP`s as `DROP` is asked for leave what it leaves, but for the response. -/
theorem runAll_pop_eq_dropBytes (n : Nat) {s : State} (h : RingInv s) (hn : n ≤ s.count) :
    ∃ (rs : List Response) (r : Option Response),
      runAll (List.replicate n .pop) s = some (rs, { dropBytes n s with resp := r }) := by
  induction n generalizing s with
  | zero => exact ⟨[], s.resp, by rw [dropBytes_zero h]; rfl⟩
  | succ n ih =>
    have hpopped : RingInv (respond .ok [memRead .st s.head s] (dropBytes 1 s)) := ringInv_dropBytes h (by omega)
    obtain ⟨rs, r, hrun⟩ := ih hpopped (Nat.le_sub_one_of_lt hn)
    have hdrop : dropBytes (n + 1) s = dropBytes n (dropBytes 1 s) := by rw [dropBytes_dropBytes, Nat.add_comm]
    rw [hdrop]
    exact ⟨_, r, runAll_cons_eq_some (exec_pop_of_nonempty (by omega)) rfl hrun⟩

/-! ## `FEED` and `PLD` (R108, R121) -/

theorem exec_feed (bytes : List Byte) (s : State) :
    exec (.feed bytes) s = .next (respond .ok [] (pushBytes bytes s)) := rfl

theorem exec_pld_of_lt {k : Byte} {s : State} (h : k.toNat < Config.pmax) :
    exec (.pld k) s = .next (respond .ok [memRead .pl k.toNat s] s) := if_neg (Nat.not_le.mpr h)

theorem exec_pld_of_pmax_le {k : Byte} {s : State} (h : Config.pmax ≤ k.toNat) :
    exec (.pld k) s = .next (respond .range [] s) := if_pos h

/-! ## The algorithm on the candidate frame (R112 to R118) -/

section
variable {drop : Bool} {em m len e c : Byte} {body payload r q : List Byte}

theorem extractCandidate_of_length_lt_two (h : q.length < 2) :
    extractCandidate drop em q = ⟨.incomplete, q, none⟩ := by
  match q with
  | [] => rfl
  | [_] => rfl
  | _ :: _ :: _ => simp at h

/-- The whole frame has not arrived (R114). -/
theorem extractCandidate_of_short (h : body.length < len.toNat + 2) :
    extractCandidate drop em (m :: len :: body) = ⟨.incomplete, m :: len :: body, none⟩ := if_pos h

/-- The byte at the end offset is not `EM` (R115). -/
theorem extractCandidate_of_wrong_end (h : len.toNat + 2 ≤ body.length) (he : body.getD len.toNat 0 ≠ em) :
    extractCandidate drop em (m :: len :: body)
      = ⟨.endMismatch, if drop then len :: body else m :: len :: body, none⟩ := by
  rw [extractCandidate, if_neg (Nat.not_lt.mpr h), if_pos he]

/-- With `EM` at the end offset the checksum decides (R116 to R118). -/
theorem extractCandidate_of_right_end (h : len.toNat + 2 ≤ body.length) (he : body.getD len.toNat 0 = em) :
    extractCandidate drop em (m :: len :: body)
      = if crc8 (body.take len.toNat) = body.getD (len.toNat + 1) 0
        then ⟨.ok, body.drop (len.toNat + 2), some (body.take len.toNat)⟩
        else ⟨.crcFail, len :: body, some (body.take len.toNat)⟩ := by
  rw [extractCandidate, if_neg (Nat.not_lt.mpr h), if_neg (not_not.mpr he), ite_not]

/-- A whole candidate with its payload, end byte and checksum byte named, and a wrong end byte (R115). -/
theorem extractCandidate_wrong_end (hlen : payload.length = len.toNat) (he : e ≠ em) :
    extractCandidate drop em (m :: len :: (payload ++ e :: c :: r)) = ⟨.endMismatch,
      if drop then len :: (payload ++ e :: c :: r) else m :: len :: (payload ++ e :: c :: r), none⟩ :=
  extractCandidate_of_wrong_end (by simp [hlen]) (by simpa [← hlen] using he)

theorem extractCandidate_right_end (hlen : payload.length = len.toNat) :
    extractCandidate drop em (m :: len :: (payload ++ em :: c :: r))
      = if crc8 payload = c then ⟨.ok, r, some payload⟩
        else ⟨.crcFail, len :: (payload ++ em :: c :: r), some payload⟩ := by
  have h := extractCandidate_of_right_end (drop := drop) (em := em) (m := m) (len := len)
    (body := payload ++ em :: c :: r) (by simp [hlen]) (by simp [← hlen])
  simpa [← hlen] using h

/-- A body that holds the whole frame, taken apart (R113 to R117). -/
theorem exists_body_eq {n : Nat} (h : n + 2 ≤ body.length) :
    ∃ (payload : List Byte) (e c : Byte) (r : List Byte), payload.length = n ∧ body = payload ++ e :: c :: r := by
  have hlen : (body.drop n).length = body.length - n := List.length_drop
  match hd : body.drop n with
  | [] | [_] => simp only [hd, List.length_nil, List.length_singleton] at hlen; omega
  | e :: c :: r => exact ⟨body.take n, e, c, r, by rw [List.length_take]; omega, by rw [← hd, List.take_append_drop]⟩

/-- `OK` means a frame with the right end marker and checksum at the front (R117, R172). -/
theorem exists_wireFrame_of_candidate_ok (h : (extractCandidate drop em q).status = .ok) :
    ∃ (m : Byte) (payload r : List Byte), payload.length ≤ 255 ∧ q = wireFrame m em payload ++ r
      ∧ extractCandidate drop em q = ⟨.ok, r, some payload⟩ := by
  match q with
  | [] | [_] => cases h
  | m :: len :: body =>
    by_cases hshort : body.length < len.toNat + 2
    · rw [extractCandidate_of_short hshort] at h
      cases h
    obtain ⟨payload, e, c, r, hlen, rfl⟩ := exists_body_eq (Nat.not_lt.mp hshort)
    by_cases he : e = em
    case neg =>
      rw [extractCandidate_wrong_end hlen he] at h
      cases h
    subst he
    rw [extractCandidate_right_end hlen] at h ⊢
    split at h
    case isFalse => cases h
    case isTrue hcrc =>
      have hlt := len.isLt
      have hbyte : len = BitVec.ofNat 8 payload.length := by rw [hlen, BitVec.ofNat_toNat, BitVec.setWidth_eq]
      exact ⟨m, payload, r, by omega, by rw [hbyte, ← hcrc]; simp [wireFrame], if_pos hcrc⟩

end

/-! ## The algorithm on all of `Q` (R109 to R111) -/

theorem fromFirst_eq_nil {b : Byte} {q : List Byte} (h : b ∉ q) : fromFirst b q = [] := by
  rw [fromFirst, List.dropWhile_eq_nil_iff]
  intro x hx
  simpa using ne_of_mem_of_not_mem hx h

theorem fromFirst_cons_of_ne {b x : Byte} (h : x ≠ b) (q : List Byte) : fromFirst b (x :: q) = fromFirst b q :=
  List.dropWhile_cons_of_pos (by simpa using h)

section
variable {drop : Bool} {sm em : Byte} {g payload r q : List Byte}

/-- Garbage free of `SM` is skipped (R111). -/
theorem extractLogical_behind (hg : sm ∉ g) :
    extractLogical drop sm em (g ++ sm :: q) = extractCandidate drop em (sm :: q) := by
  rw [extractLogical_of_ne (by simp), fromFirst_append hg]

theorem extractLogical_cons : extractLogical drop sm em (sm :: q) = extractCandidate drop em (sm :: q) :=
  extractLogical_behind (g := []) List.not_mem_nil

/-- A payload's length, as the byte `LEN` and back (R67, R113). -/
theorem toNat_ofNat_length (h : payload.length ≤ 255) : payload.length = (BitVec.ofNat 8 payload.length).toNat := by
  rw [BitVec.toNat_ofNat, Nat.mod_eq_of_lt (by omega)]

@[simp] theorem wireFrame_length (sm em : Byte) (payload : List Byte) :
    (wireFrame sm em payload).length = payload.length + 4 := by simp [wireFrame]

/-- A valid frame is delivered, what follows it is kept (R118). -/
theorem extractLogical_wireFrame (hg : sm ∉ g) (hlen : payload.length ≤ 255) :
    extractLogical drop sm em (g ++ wireFrame sm em payload ++ r) = ⟨.ok, r, some payload⟩ := by
  have hframe : g ++ wireFrame sm em payload ++ r
      = g ++ sm :: BitVec.ofNat 8 payload.length :: (payload ++ em :: crc8 payload :: r) := by simp [wireFrame]
  rw [hframe, extractLogical_behind hg, extractCandidate_right_end (toNat_ofNat_length hlen), if_pos rfl]

/-- A frame whose last byte has not arrived waits in the ring (R112, R114). -/
theorem extractLogical_partial (hlen : payload.length ≤ 255) {k : Nat} (hpos : 0 < k) (hk : k < payload.length + 4) :
    extractLogical drop sm em ((wireFrame sm em payload).take k)
      = ⟨.incomplete, (wireFrame sm em payload).take k, none⟩ := by
  match k with
  | 1 => rw [wireFrame, List.take_succ_cons, extractLogical_cons]; rfl
  | k + 2 =>
    rw [wireFrame, List.take_succ_cons, List.take_succ_cons, extractLogical_cons]
    refine extractCandidate_of_short ?_
    rw [← toNat_ofNat_length hlen, List.length_take]
    omega

/-- `OK` means a valid frame behind garbage free of `SM` (R117, R172). -/
theorem exists_wireFrame_of_ok (h : (extractLogical drop sm em q).status = .ok) :
    ∃ g payload r : List Byte, sm ∉ g ∧ payload.length ≤ 255 ∧ q = g ++ wireFrame sm em payload ++ r
      ∧ extractLogical drop sm em q = ⟨.ok, r, some payload⟩ := by
  cases q with
  | nil => cases h
  | cons x q =>
    rw [extractLogical_of_ne (List.cons_ne_nil x q)] at h ⊢
    obtain ⟨m, payload, r, hlen, hfront, heq⟩ := exists_wireFrame_of_candidate_ok h
    obtain ⟨g, hg, hsplit⟩ := fromFirst_split sm (x :: q)
    obtain rfl : m = sm := fromFirst_head (r := _ :: _) hfront
    exact ⟨g, payload, r, hg, hlen, by rw [hsplit, hfront, List.append_assoc], heq⟩

end

/-! ## `EXTRACT` (R120) -/

/-- `EXTRACT` takes one state to another with the status, the contents left and the payload of an extraction, and changes
nothing else. -/
structure ExtractsTo (s t : State) (e : Extraction) : Prop where
  completes : exec .extract s = .next t
  resp : t.resp = some { status := e.status, result := [] }
  rest : logical t = e.rest
  keeps : e.payload = none → t.pl = s.pl
  stores : ∀ p, e.payload = some p →
    memReadN .pl 0 p.length t = p ∧ ∀ a, p.length ≤ a → memRead .pl a t = memRead .pl a s
  frame : t = { s with head := t.head, count := t.count, pl := t.pl, resp := t.resp }

theorem exec_extract_of_empty {s : State} (h : s.count = 0) : exec .extract s = .next (respond .noData [] s) :=
  execExtract_empty h

theorem exists_extractsTo {s : State} (h : RingInv s) :
    ∃ t, ExtractsTo s t (extractLogical s.emDrop s.sm s.em (logical s)) := by
  obtain ⟨t, _, hexec, rfl, hresp, hrest, hkeeps, hstores, hframe⟩ := execExtract_logical h
  exact ⟨t, hexec, hresp, hrest, hkeeps, fun p hp => (hstores p hp).2, hframe⟩

theorem ExtractsTo.ringInv {s t : State} {e : Extraction} (ht : ExtractsTo s t e) (h : RingInv s) : RingInv t :=
  ringInv_kept.exec h ht.completes

theorem ExtractsTo.parameters {s t : State} {e : Extraction} (ht : ExtractsTo s t e) :
    t.cap = s.cap ∧ t.emDrop = s.emDrop ∧ t.sm = s.sm ∧ t.em = s.em := by
  rw [ht.frame]
  exact ⟨rfl, rfl, rfl, rfl⟩

/-- An `EXTRACT` that answers `OK` took a valid frame off the ring (R117, R172). -/
theorem exists_wireFrame_of_exec_ok {s t : State} (h : RingInv s) (he : exec .extract s = .next t)
    (hok : t.resp = some (okResponse [])) : ∃ g payload : List Byte, s.sm ∉ g ∧ payload.length ≤ 255
      ∧ logical s = g ++ wireFrame s.sm s.em payload ++ logical t ∧ memReadN .pl 0 payload.length t = payload := by
  obtain ⟨t', ht⟩ := exists_extractsTo h
  obtain rfl : t = t' := Host.Outcome.next.inj (he.symm.trans ht.completes)
  have hstatus := congrArg Response.status (Option.some.inj (ht.resp.symm.trans hok))
  obtain ⟨g, payload, r, hg, hlen, hq, heq⟩ := exists_wireFrame_of_ok hstatus
  rw [heq] at ht
  obtain ⟨hfront, -⟩ := ht.stores payload rfl
  exact ⟨g, payload, hg, hlen, by rw [ht.rest]; exact hq, hfront⟩

/-! ## The stall (R115, R201) -/

/-- With `SM` at the front resynchronisation drops nothing (R111). -/
theorem resync_of_front {s : State} (h : ringByte s 0 = s.sm) (n : Nat) : resync n s = s := by
  cases n with
  | zero => rfl
  | succ n => rw [resync, if_neg fun hc => hc.2 h]

theorem exec_extract_of_front {s : State} {q : List Byte} (hq : logical s = s.sm :: q) :
    exec .extract s = extractFrame s := by
  have hpos : 0 < s.count := by rw [← logical_length, hq]; exact Nat.succ_pos _
  have hfront : ringByte s 0 = s.sm := by rw [← logical_getD hpos 0, hq]; rfl
  have h := execExtract_nonempty (Nat.ne_of_gt hpos)
  rwa [resync_of_front hfront] at h

/-- A state that already holds a response is what giving it again leaves. -/
theorem respond_self {st : Status} {r : List Byte} {s : State} (h : s.resp = some ⟨st, r⟩) : respond st r s = s := by
  rw [respond, ← h]

/-- A wrong end marker at the front changes nothing but the response when `EM_DROP = 0` (R201). -/
theorem exec_extract_stalled {s : State} {payload r : List Byte} {len e c : Byte} (hdrop : s.emDrop = false)
    (hlen : payload.length = len.toNat) (he : e ≠ s.em) (hq : logical s = s.sm :: len :: (payload ++ e :: c :: r)) :
    exec .extract s = .next (respond .endMismatch [] s) := by
  obtain ⟨hcount, hsize, hbytes, -⟩ := candidate_reads hq
  have hbody : (payload ++ e :: c :: r).length = len.toNat + 2 + r.length := by simp [hlen]; omega
  have hend : ringByte s (payloadSize s + 2) = e := by
    rw [hsize, hbytes _ (by omega), ← hlen]
    simp
  rw [exec_extract_of_front hq, extractFrame, if_neg (by omega), if_neg (by omega), if_pos (hend ▸ he), hdrop]
  rfl

/-! ## A frame delivered byte by byte (R122) -/

/-- A byte fed into a ring with room, and an `EXTRACT`. -/
theorem runAll_feed_extract {s : State} (h : RingInv s) (hroom : s.count < s.cap) (b : Byte) {e : Extraction}
    (he : extractLogical s.emDrop s.sm s.em (logical s ++ [b]) = e) : ∃ t : State,
    runAll [.feed [b], .extract] s = some ([okResponse [], ⟨e.status, []⟩], t)
      ∧ ExtractsTo (respond .ok [] (pushBytes [b] s)) t e := by
  have hpushed : RingInv (respond .ok [] (pushBytes [b] s)) := ringInv_pushBytes h [b]
  obtain ⟨t, ht⟩ := exists_extractsTo hpushed
  rw [logical_respond, logical_pushBytes_fits h (bytes := [b]) hroom] at ht
  subst he
  exact ⟨t, runAll_cons_eq_some (exec_feed [b] s) rfl (runAll_cons_eq_some ht.completes ht.resp rfl), ht⟩

section
variable {s : State} {payload : List Byte}

/-- Every byte of a frame but the last is answered `INCOMPLETE` and stays in the ring. -/
theorem runAll_partial_frame (h : RingInv s) (hempty : logical s = []) (hlen : payload.length ≤ 255)
    (hfits : payload.length + 4 ≤ s.cap) {k : Nat} (hk : k < payload.length + 4) : ∃ t : State,
    runAll (((wireFrame s.sm s.em payload).take k).flatMap fun b => [.feed [b], .extract]) s
        = some ((List.replicate k [okResponse [], failResponse .incomplete]).flatten, t)
      ∧ RingInv t ∧ logical t = (wireFrame s.sm s.em payload).take k
      ∧ t.cap = s.cap ∧ t.sm = s.sm ∧ t.em = s.em := by
  induction k with
  | zero => exact ⟨s, rfl, h, hempty, rfl, rfl, rfl⟩
  | succ k ih =>
    obtain ⟨t, hrun, hring, hlog, hcap, hsm, hem⟩ := ih (by omega)
    have hin : k < (wireFrame s.sm s.em payload).length := by rw [wireFrame_length]; omega
    have hnext : (wireFrame s.sm s.em payload).take (k + 1)
        = (wireFrame s.sm s.em payload).take k ++ [(wireFrame s.sm s.em payload)[k]] :=
      List.take_succ_eq_append_getElem _
    have hcount : t.count = k := by rw [← logical_length, hlog, List.length_take, wireFrame_length]; omega
    have hwaits : extractLogical t.emDrop t.sm t.em (logical t ++ [(wireFrame s.sm s.em payload)[k]])
        = ⟨.incomplete, (wireFrame s.sm s.em payload).take (k + 1), none⟩ := by
      rw [hlog, ← hnext, hsm, hem]
      exact extractLogical_partial hlen (Nat.succ_pos k) hk
    obtain ⟨u, hstep, hu⟩ := runAll_feed_extract hring (by omega) _ hwaits
    obtain ⟨hucap, -, husm, huem⟩ := hu.parameters
    refine ⟨u, ?_, hu.ringInv (ringInv_pushBytes hring _), hu.rest, hucap.trans ?_, husm.trans ?_, huem.trans ?_⟩
    · rw [hnext, List.flatMap_append, List.replicate_succ', List.flatten_append]
      exact runAll_append_eq_some hrun hstep
    · rwa [respond_cap, pushBytes_cap]
    · rwa [respond_sm, pushBytes_sm]
    · rwa [respond_em, pushBytes_em]

/-- With its last byte the frame is delivered, and a further `EXTRACT` finds the ring empty. -/
theorem runAll_whole_frame (h : RingInv s) (hempty : logical s = []) (hlen : payload.length ≤ 255)
    (hfits : payload.length + 4 ≤ s.cap) : ∃ t : State,
    runAll ((wireFrame s.sm s.em payload).flatMap (fun b => [.feed [b], .extract]) ++ [.extract]) s
        = some ((List.replicate (payload.length + 3) [okResponse [], failResponse .incomplete]).flatten
            ++ [okResponse [], okResponse [], failResponse .noData], t)
      ∧ memReadN .pl 0 payload.length t = payload := by
  obtain ⟨t, hrun, hring, hlog, hcap, hsm, hem⟩ :=
    runAll_partial_frame h hempty hlen hfits (Nat.lt_succ_self (payload.length + 3))
  have hlast : wireFrame s.sm s.em payload
      = (wireFrame s.sm s.em payload).take (payload.length + 3) ++ [crc8 payload] := by
    simp [wireFrame, List.take_append]
  have hcount : t.count = payload.length + 3 := by rw [← logical_length, hlog, List.length_take, wireFrame_length]; omega
  have hwhole : extractLogical t.emDrop t.sm t.em (logical t ++ [crc8 payload]) = ⟨.ok, [], some payload⟩ := by
    rw [hlog, ← hlast, hsm, hem, ← List.append_nil (wireFrame s.sm s.em payload)]
    exact extractLogical_wireFrame (g := []) List.not_mem_nil hlen
  obtain ⟨u, hstep, hu⟩ := runAll_feed_extract hring (by omega) _ hwhole
  obtain ⟨hfront, -⟩ := hu.stores payload rfl
  have hdone := runAll_cons_eq_some (is := []) (exec_extract_of_empty (logical_eq_nil.mp hu.rest)) rfl rfl
  refine ⟨respond .noData [] u, ?_, (memReadN_respond ..).trans hfront⟩
  rw [hlast, List.flatMap_append, List.append_assoc]
  exact runAll_append_eq_some hrun (runAll_append_eq_some hstep hdone)

end

/-! ## Frames with a flipped bit (R123) -/

/-- A frame with one bit flipped is not a frame of the same length: each byte before the payload and the end marker is
fixed, and the checksum tells the payloads apart. -/
theorem set_flipBit_ne_wireFrame {sm em : Byte} {payload payload' : List Byte} {k j : Nat}
    (hlen : payload.length = payload'.length) (hk : k < payload.length + 4) (hj : j < 8) :
    (wireFrame sm em payload).set k (flipBit ((wireFrame sm em payload).getD k 0) j) ≠ wireFrame sm em payload' := by
  intro h
  match k with
  | 0 =>
    obtain ⟨hfirst, -⟩ := List.cons.inj h
    exact flipBit_ne hj sm hfirst
  | 1 =>
    obtain ⟨-, h⟩ := List.cons.inj h
    obtain ⟨hbyte, -⟩ := List.cons.inj h
    exact flipBit_ne hj _ (hbyte.trans (congrArg _ hlen.symm))
  | k + 2 =>
    obtain ⟨-, h⟩ := List.cons.inj h
    obtain ⟨-, h⟩ := List.cons.inj h
    change (payload ++ [em, crc8 payload]).set k (flipBit ((payload ++ [em, crc8 payload]).getD k 0) j) = _ at h
    by_cases hin : k < payload.length
    · rw [List.set_append_left _ _ hin, List.getD_append _ _ _ _ hin, List.getD_eq_getElem _ _ hin] at h
      obtain ⟨hpayload, hrest⟩ := List.append_inj h (by rw [List.length_set, hlen])
      have hcrc : crc8 payload = crc8 payload' := by simpa using hrest
      exact crc8_set_flipBit_ne payload hin hj (by rw [hpayload, hcrc])
    · obtain ⟨i, rfl⟩ := Nat.exists_eq_add_of_le (Nat.not_lt.mp hin)
      rw [List.set_append_right _ _ (by omega), List.getD_append_right _ _ _ _ (by omega), Nat.add_sub_cancel_left] at h
      obtain ⟨rfl, hrest⟩ := List.append_inj h hlen
      match i with
      | 0 => exact flipBit_ne hj em (List.cons.inj hrest).1
      | 1 => exact flipBit_ne hj (crc8 payload) (by simpa using hrest)
      | _ + 2 => omega

section
variable {drop : Bool} {sm em len : Byte} {payload : List Byte}

/-- A `LEN` that asks for more than the frame waits for it (R114, R123). -/
theorem extractLogical_longer (h : payload.length < len.toNat) :
    extractLogical drop sm em (sm :: len :: (payload ++ [em, crc8 payload]))
      = ⟨.incomplete, sm :: len :: (payload ++ [em, crc8 payload]), none⟩ := by
  rw [extractLogical_cons, extractCandidate_of_short (by simpa using h)]

/-- A `LEN` that asks for less puts the end offset inside the payload; no `EM` there (R115, R123). -/
theorem extractLogical_shorter_wrong_end (h : len.toNat < payload.length) (he : payload.getD len.toNat 0 ≠ em) :
    (extractLogical drop sm em (sm :: len :: (payload ++ [em, crc8 payload]))).status = .endMismatch := by
  rw [← List.getD_append payload [em, crc8 payload] 0 _ h] at he
  rw [extractLogical_cons, extractCandidate_of_wrong_end (by simp; omega) he]

/-- The same with `EM` there: the checksum of the shortened payload decides, against the byte after it (R117, R123). -/
theorem extractLogical_shorter_right_end (h : len.toNat < payload.length) (he : payload.getD len.toNat 0 = em) :
    extractLogical drop sm em (sm :: len :: (payload ++ [em, crc8 payload]))
      = if crc8 (payload.take len.toNat) = (payload ++ [em]).getD (len.toNat + 1) 0
        then ⟨.ok, (payload ++ [em, crc8 payload]).drop (len.toNat + 2), some (payload.take len.toNat)⟩
        else ⟨.crcFail, len :: (payload ++ [em, crc8 payload]), some (payload.take len.toNat)⟩ := by
  have hcheck : (payload ++ [em, crc8 payload]).getD (len.toNat + 1) 0 = (payload ++ [em]).getD (len.toNat + 1) 0 := by
    rw [List.append_cons, List.getD_append _ _ _ _ (by simp; omega)]
  rw [← List.getD_append payload [em, crc8 payload] 0 _ h] at he
  rw [extractLogical_cons, extractCandidate_of_right_end (by simp; omega) he, hcheck,
    List.take_append_of_le_length (Nat.le_of_lt h)]

/-- A flipped `START` is garbage: `EXTRACT` looks for the next `SM` (R111, R123). -/
theorem extractLogical_flipBit_start {j : Nat} (hj : j < 8) (body : List Byte) :
    extractLogical drop sm em (flipBit sm j :: body) = extractCandidate drop em (fromFirst sm body) := by
  rw [extractLogical_of_ne (List.cons_ne_nil _ body), fromFirst_cons_of_ne (flipBit_ne hj sm)]

end

/-- An `OK` for a frame with one bit flipped is for a shorter payload: one of the same length would make the contents a
frame, and a longer one does not fit (R123). -/
theorem exists_shorter_of_flipped_ok {s t : State} {payload : List Byte} {k j : Nat} (h : RingInv s)
    (hk : k < payload.length + 4) (hj : j < 8)
    (hq : logical s = (wireFrame s.sm s.em payload).set k (flipBit ((wireFrame s.sm s.em payload).getD k 0) j))
    (he : exec .extract s = .next t) (hok : t.resp = some (okResponse [])) :
    ∃ g shorter : List Byte, shorter.length < payload.length ∧ s.sm ∉ g
      ∧ logical s = g ++ wireFrame s.sm s.em shorter ++ logical t ∧ memReadN .pl 0 shorter.length t = shorter := by
  obtain ⟨g, shorter, hg, -, hsplit, hfront⟩ := exists_wireFrame_of_exec_ok h he hok
  refine ⟨g, shorter, ?_, hg, hsplit, hfront⟩
  have hlen := congrArg List.length (hq.symm.trans hsplit)
  simp only [List.length_set, List.length_append, wireFrame_length] at hlen
  by_contra hge
  have hgnil : g = [] := List.length_eq_zero_iff.mp (by omega)
  have hrest : logical t = [] := List.length_eq_zero_iff.mp (by omega)
  rw [hgnil, hrest, List.nil_append, List.append_nil, hq] at hsplit
  exact set_flipBit_ne_wireFrame (by omega) hk hj hsplit

end Sys2Proof.Machine
end

section
/-! The statements of 41_deframer.md R105 to R123 settled. -/

namespace Sys2Proof.Proofs

open Sys2Proof.Machine

/-- Settles O30: the loop over the data byte's bits by induction, the two traces by running the model. -/
theorem checksumFollowsItsProcedure : Obligations.ChecksumFollowsItsProcedure := by
  unfold Obligations.ChecksumFollowsItsProcedure
  refine ⟨crcBit_eq_div, fun crc d => ?_, rfl, crc8_append_byte, by decide, by decide, by decide⟩
  simp only [ofNat_div_two_pow]
  exact crcIter_eq_foldl 8 crc d

/-- Settles O31: everything but the tabled values follows from linearity and from the zero-bit iteration being
injective. -/
theorem checksumFacts : Obligations.ChecksumFacts := by
  unfold Obligations.ChecksumFacts
  exact ⟨rfl, fun n m => ⟨crc8_replicate_zero n, crc8_replicate_zero_append n m⟩, crc8_append_crc8, by decide,
    fun a b => foldl_crcByte_xor 0 0, Finite.injective_iff_bijective.mp crcBit_zero_injective, crcBit_zero,
    fun c => crcBit_zero_ne_zero, fun m k j hk hj => crc8_set_flipBit_ne m hk hj, by decide +kernel⟩

/-- Settles O32: by induction on the number of bytes, since two `DROP`s are one. -/
theorem dropIsRepeatedPop : Obligations.DropIsRepeatedPop := by
  unfold Obligations.DropIsRepeatedPop
  intro n s h hn
  obtain ⟨rs, r, hrun⟩ := runAll_pop_eq_dropBytes n h hn
  exact ⟨rfl, rfl, ⟨rs, _, hrun, rfl⟩, logical_dropBytes n s, rfl, rfl⟩

/-- Settles O33: `FEED` and `INSERT` are the same pushes, which touch the ring only. -/
theorem feedAppendsLikeInsert : Obligations.FeedAppendsLikeInsert := by
  unfold Obligations.FeedAppendsLikeInsert
  refine ⟨fun bytes => ?_, fun _ _ => rfl, fun _ => rfl, fun bytes s => ⟨_, exec_feed bytes s, rfl, ?_, fun h => ?_⟩⟩
  · exact congrArg (fun count => 0x10 :: (count ++ bytes)) (u16Result_eq bytes.length)
  · rw [respond_pl, pushBytes_pl]
  · rw [logical_respond, logical_length, logical_pushBytes h]

/-- Settles O34: step 1, step 2 and steps 3 to 9 each do what the algorithm on `Q` says. -/
theorem extractFollowsTheLogicalAlgorithm : Obligations.ExtractFollowsTheLogicalAlgorithm := by
  unfold Obligations.ExtractFollowsTheLogicalAlgorithm
  refine ⟨rfl, fun s h => ?_⟩
  obtain ⟨t, ht⟩ := exists_extractsTo h
  exact ⟨t, _, ht.completes, rfl, ht.resp, ht.rest, ht.keeps, ht.stores, ht.frame⟩

/-- Settles O35: step 1 ends the command before anything is touched. -/
theorem extractOnAnEmptyRing : Obligations.ExtractOnAnEmptyRing := by
  unfold Obligations.ExtractOnAnEmptyRing
  exact fun _ => exec_extract_of_empty

/-- Settles O36: both forms of a candidate that has not arrived are kept by the algorithm on `Q`; the ring holds no more
than `CAP` bytes. -/
theorem extractWaitsForTheWholeFrame : Obligations.ExtractWaitsForTheWholeFrame := by
  unfold Obligations.ExtractWaitsForTheWholeFrame
  refine ⟨fun s h hne hshort => ?_, fun s len body h hfront hshort => ?_, fun s len body h hfront hcap => ?_⟩
  · obtain ⟨t, ht⟩ := exists_extractsTo h
    rw [extractLogical_of_ne (mt logical_eq_nil.mp hne), extractCandidate_of_length_lt_two hshort] at ht
    exact ⟨t, ht.completes, ht.resp, ht.rest, ht.keeps rfl⟩
  · have hne : logical s ≠ [] := fun hnil => by rw [hnil] at hfront; cases hfront
    obtain ⟨t, ht⟩ := exists_extractsTo h
    rw [extractLogical_of_ne hne, hfront, extractCandidate_of_short (by simpa using hshort)] at ht
    exact ⟨t, ht.completes, ht.resp, ht.rest, ht.keeps rfl⟩
  · obtain ⟨hcount, -⟩ := h
    have hle : (fromFirst s.sm (logical s)).length ≤ (logical s).length := List.length_dropWhile_le ..
    rw [hfront, logical_length] at hle
    omega

/-- Settles O37: the candidate is at the front after the first `EXTRACT`, where resynchronisation finds nothing to drop, so
the second one leaves everything as it is. -/
theorem wrongEndMarkerStallsOrDrops : Obligations.WrongEndMarkerStallsOrDrops := by
  unfold Obligations.WrongEndMarkerStallsOrDrops
  intro s g payload r len e c h hg hlen he hq
  obtain ⟨t, ht⟩ := exists_extractsTo h
  obtain ⟨-, hdrop', hsm, hem⟩ := ht.parameters
  rw [hq, extractLogical_behind hg, extractCandidate_wrong_end hlen he] at ht
  refine ⟨t, ht.completes, ht.resp, ht.keeps rfl, fun hdrop => ?_, fun hdrop => ?_⟩
  · have hrest : logical t = s.sm :: len :: (payload ++ e :: c :: r) := by rw [ht.rest, hdrop]; rfl
    have hne : t.count ≠ 0 := by rw [← logical_length, hrest]; exact Nat.succ_ne_zero _
    refine ⟨hrest, ?_, _, exec_pop_of_nonempty hne, ?_⟩
    · rw [exec_extract_stalled (hdrop'.trans hdrop) hlen (hem ▸ he) (hsm ▸ hrest), respond_self ht.resp]
    · rw [logical_respond, logical_dropBytes, hrest, List.drop_one, List.tail_cons]
  · rw [ht.rest, hdrop, if_pos rfl]

/-- Settles O38: with the right end marker the checksum decides. -/
theorem wrongChecksumDropsTheMarker : Obligations.WrongChecksumDropsTheMarker := by
  unfold Obligations.WrongChecksumDropsTheMarker
  refine ⟨fun s g payload r len c h hg hlen hc hq => ?_, rfl⟩
  obtain ⟨t, ht⟩ := exists_extractsTo h
  rw [hq, extractLogical_behind hg, extractCandidate_right_end hlen, if_neg hc.symm] at ht
  obtain ⟨hfront, hback⟩ := ht.stores payload rfl
  exact ⟨t, ht.completes, ht.resp, ht.rest, hfront, hback⟩

/-- Settles O39: none of the earlier ways the algorithm on `Q` ends applies to a valid frame. -/
theorem validFrameIsDelivered : Obligations.ValidFrameIsDelivered := by
  unfold Obligations.ValidFrameIsDelivered
  intro s g payload r h hg hlen hq
  obtain ⟨t, ht⟩ := exists_extractsTo h
  rw [hq, extractLogical_wireFrame hg hlen] at ht
  obtain ⟨hfront, hback⟩ := ht.stores payload rfl
  exact ⟨t, ht.completes, ht.resp, ht.rest, hfront, hback⟩

/-- Settles O40: of the ways the algorithm on `Q` ends only the last answers `OK`. -/
theorem okMeansAValidFrame : Obligations.OkMeansAValidFrame := by
  unfold Obligations.OkMeansAValidFrame
  exact fun s t => exists_wireFrame_of_exec_ok

/-- Settles O44: the frame's bytes but the last by induction, then its last byte and the empty ring. -/
theorem partialDeliveryWaitsForTheLastByte : Obligations.PartialDeliveryWaitsForTheLastByte := by
  unfold Obligations.PartialDeliveryWaitsForTheLastByte
  exact fun s payload => runAll_whole_frame

/-- Settles O45: each field by the step of the algorithm that reads it; a flipped bit changes the byte it stands in, and a
payload's checksum. -/
theorem singleBitFlipAnswers : Obligations.SingleBitFlipAnswers := by
  unfold Obligations.SingleBitFlipAnswers
  intro s payload j h hlen hj
  obtain ⟨t, ht⟩ := exists_extractsTo h
  have hbyte := toNat_ofNat_length hlen
  refine ⟨fun k hk hq => ?_, fun hq => ?_, fun hq => ?_, fun hq hnone => ?_,
    fun hq => ⟨fun hmore => ?_, fun hless he => ?_⟩⟩
  · rw [hq, extractLogical_cons, extractCandidate_right_end ((List.length_set ..).trans hbyte),
      if_neg (crc8_set_flipBit_ne payload hk hj)] at ht
    exact ⟨t, ht.completes, ht.resp⟩
  · rw [hq, extractLogical_cons, extractCandidate_right_end hbyte, if_neg (flipBit_ne hj _).symm] at ht
    exact ⟨t, ht.completes, ht.resp⟩
  · rw [hq, extractLogical_cons, extractCandidate_wrong_end hbyte (flipBit_ne hj _)] at ht
    exact ⟨t, ht.completes, ht.resp⟩
  · rw [hq, extractLogical_flipBit_start hj, fromFirst_eq_nil hnone] at ht
    exact ⟨t, ht.completes, ht.resp, ht.rest⟩
  · rw [hq, extractLogical_longer hmore] at ht
    exact ⟨t, ht.completes, ht.resp, ht.rest.trans hq.symm⟩
  · have hresp := ht.resp
    rw [hq, extractLogical_shorter_wrong_end hless he] at hresp
    exact ⟨t, ht.completes, hresp⟩

/-- Settles O46: `PLD` compares its index with 255; a delivered payload stands in `PL` from index 0 on. -/
theorem pldReadsThePayloadScratch : Obligations.PldReadsThePayloadScratch := by
  unfold Obligations.PldReadsThePayloadScratch
  refine ⟨fun _ => rfl, fun s => exec_pld_of_pmax_le (Nat.le_refl 255), fun k s hk => exec_pld_of_lt ?_,
    fun s g data r code h hg hlen hq => ?_⟩
  · have hne : k.toNat ≠ 255 := fun h => hk (BitVec.eq_of_toNat_eq h)
    have hlt := k.isLt
    rw [Config.pmax]
    omega
  · obtain ⟨t, hexec, hresp, -, hfront, -⟩ := validFrameIsDelivered s g (code :: data) r h hg hlen hq
    rw [List.length_cons, memReadN_succ, List.cons.injEq] at hfront
    obtain ⟨hcode, -⟩ := hfront
    have hpld : exec (.pld 0) t = .next (respond .ok [memRead .pl 0 t] t) := exec_pld_of_lt (Nat.succ_pos 254)
    rw [hcode] at hpld
    exact ⟨t, hexec, hresp, hpld⟩

/-- Settles O60: `OK` means a valid frame in the ring (O40), and the flipped frame is none of the original length. -/
theorem flippedFrameNeverDeliversItsPayload : Obligations.FlippedFrameNeverDeliversItsPayload := by
  unfold Obligations.FlippedFrameNeverDeliversItsPayload
  intro s payload j h hlen hj
  obtain ⟨t, ht⟩ := exists_extractsTo h
  refine ⟨fun k hk hq => ⟨t, _, ht.completes, ht.resp, fun hok => ?_⟩, fun m hm hless he hq => ?_,
    fun body _ _ hq => ?_⟩
  · exact exists_shorter_of_flipped_ok h hk hj hq ht.completes (ht.resp.trans (by rw [hok]; rfl))
  · subst hm
    rw [hq, extractLogical_shorter_right_end hless he] at ht
    have hstored := ht.stores (payload.take (flipBit (BitVec.ofNat 8 payload.length) j).toNat) (by split <;> rfl)
    rw [List.length_take, Nat.min_eq_left (Nat.le_of_lt hless)] at hstored
    obtain ⟨hfront, -⟩ := hstored
    exact ⟨t, ht.completes, hfront, ht.resp.trans (by split <;> rfl)⟩
  · rw [hq, extractLogical_flipBit_start hj] at ht
    exact ⟨t, ht.completes, ht.resp, ht.rest⟩

end Sys2Proof.Proofs
end

section
/-! What a `PACK_*` command writes and what `MSGLEN` and `MSGRD` read (42_pack.md R125, R126, R142 to R145). The fifteen
`PACK_*` commands are one case; a row of R80 then only says which data bytes its fields are. -/

namespace Sys2Proof

/-! ## The data bytes field by field (R74) -/

@[simp] theorem dataBytes_nil : dataBytes [] = [] := rfl

@[simp] theorem dataBytes_byte_cons (b : Byte) (vs : List FieldValue) :
    dataBytes (.byte b :: vs) = b :: dataBytes vs := rfl

@[simp] theorem dataBytes_int16_cons (v : Half) (vs : List FieldValue) :
    dataBytes (.int16 v :: vs) = halfBytes v ++ dataBytes vs := rfl

@[simp] theorem dataBytes_float32_cons (f : Word) (vs : List FieldValue) :
    dataBytes (.float32 f :: vs) = wordBytes f ++ dataBytes vs := rfl

/-- `bytes_of_half` in the claims' own term for a pattern of two bytes (R45). -/
@[simp] theorem halfBytes_half (lo hi : Byte) : halfBytes (Machine.half lo hi) = [lo, hi] := bytes_of_half lo hi

/-- The operand bytes of an Int16 are those of its residue modulo 65536 (R45, R130). -/
theorem halfBytes_ofInt (v : Int) : halfBytes (BitVec.ofInt 16 v)
    = [BitVec.ofNat 8 (v % 65536).toNat, BitVec.ofNat 8 ((v % 65536).toNat / 256)] := by
  rw [halfBytes_eq_ofNat, toNat_ofInt_half]

namespace Machine

/-! ## The `PACK_*` commands -/

/-- A frame in the order of its parts (R65). -/
theorem frameBytes_eq_append (sm em code : Byte) (data : List Byte) : frameBytes sm em code data
    = [sm, BitVec.ofNat 8 (1 + data.length), code] ++ data ++ [em, crc8 (code :: data)] := by
  simp [frameBytes]

/-- Every `PACK_*` command builds the frame of its code and data bytes and changes nothing else (R125, R126). -/
theorem buildsFrame_of_packOf {i : Instr} {sh : Shape} {code : Byte} {fields : List FieldValue}
    (h : packOf i = some (sh, code, fields)) : BuildsFrame i code (dataBytes fields) := by
  intro s
  refine ⟨_, (exec_of_packOf h s).trans (pack_eq ..), ?_, fun a ha => ?_, ?_, rfl, ?_⟩
  · rw [memReadN_respond, memReadN_buildFrame, frameBytes_eq_append]
  · rw [memRead_respond, memRead_buildFrame_ge _ _ _ ha]
  · rw [respond_msgLen, buildFrame_msgLen]
    omega
  · rw [buildFrame_frame]
    rfl

/-- The encoding and the frame of a `PACK_*` command whose fields make the given data bytes. -/
theorem encode_and_buildsFrame_of_packOf {i : Instr} {sh : Shape} {code : Byte} {fields : List FieldValue}
    {data : List Byte} (h : packOf i = some (sh, code, fields)) (hdata : dataBytes fields = data) :
    encode i = (Op.pack sh).code :: code :: data ∧ BuildsFrame i code data := by
  subst hdata
  exact ⟨encode_of_packOf h, buildsFrame_of_packOf h⟩

/-! ## Reading the message out -/

theorem exec_msglen (s : State) :
    exec .msglen s = .next { s with resp := some (okResponse [BitVec.ofNat 8 s.msgLen]) } := rfl

/-- `MSGRD` of an index past the message (R143). -/
theorem exec_msgrd_of_msgLen_le {k : Byte} {s : State} (h : s.msgLen ≤ k.toNat) :
    exec (.msgrd k) s = .next { s with resp := some (failResponse .range) } := if_pos h

/-- No message is longer than the buffer (R11, R25). -/
theorem MsgLenLegal.le_mmax {s : State} (h : MsgLenLegal s) : s.msgLen ≤ Config.mmax := by
  have hall : ∀ n ∈ [0, 6, 7, 8, 9, 11, 13, 17, 18, 19, 21, 29, 37], n ≤ Config.mmax := by decide
  exact hall _ h

end Machine

end Sys2Proof
end

section
/-! The statements of 42_pack.md settled. -/

namespace Sys2Proof.Proofs

open Sys2Proof.Machine

/-- Settles O49: the fifteen commands are `pack` of their fields, and their encoding is opcode, code, data bytes. -/
theorem everyPackBuildsItsFrame : Obligations.EveryPackBuildsItsFrame := by
  unfold Obligations.EveryPackBuildsItsFrame
  intro i sh code fields h
  rw [encode_of_packOf h]
  exact ⟨buildsFrame_of_packOf h, rfl, rfl⟩

/-- Settles O50: a byte field is its own data byte. -/
theorem packByteShapes : Obligations.PackByteShapes := by
  unfold Obligations.PackByteShapes
  intro code b0 b1 b2
  refine ⟨?b1, ?b2, ?b3⟩
  case b1 => exact encode_and_buildsFrame_of_packOf (sh := .b1) rfl (by simp)
  case b2 => exact encode_and_buildsFrame_of_packOf (sh := .b2) rfl (by simp)
  case b3 => exact encode_and_buildsFrame_of_packOf (sh := .b3) rfl (by simp)

/-- Settles O51: the bytes of a pattern made of two bytes are these two, low byte first. -/
theorem packIntegerShapes : Obligations.PackIntegerShapes := by
  unfold Obligations.PackIntegerShapes
  intro code l0 h0 l1 h1 l2 h2 l3 h3 l4 h4 l5 h5 l6 h6
  refine ⟨?i1, ?i2, ?i3, ?i7, fun v _ _ => ?int⟩
  case i1 => exact encode_and_buildsFrame_of_packOf (sh := .i1) rfl (by simp)
  case i2 => exact encode_and_buildsFrame_of_packOf (sh := .i2) rfl (by simp)
  case i3 => exact encode_and_buildsFrame_of_packOf (sh := .i3) rfl (by simp)
  case i7 => exact encode_and_buildsFrame_of_packOf (sh := .i7) rfl (by simp)
  case int =>
    have hframe := buildsFrame_of_packOf (i := .packI1 code (BitVec.ofInt 16 v)) rfl
    rwa [dataBytes_int16_cons, dataBytes_nil, List.append_nil, halfBytes_ofInt] at hframe

/-- Settles O52: the data bytes are the patterns' bytes one after another. -/
theorem packFloatShapes : Obligations.PackFloatShapes := by
  unfold Obligations.PackFloatShapes
  intro code f0 f1 f2 f3 f4 f5 f6 f7
  refine ⟨?f1, ?f2, ?f3, ?f4, ?f6, ?f8, wordBytes_eq_ofNat f0⟩
  case f1 => exact encode_and_buildsFrame_of_packOf (sh := .f1) rfl (by simp)
  case f2 => exact encode_and_buildsFrame_of_packOf (sh := .f2) rfl (by simp)
  case f3 => exact encode_and_buildsFrame_of_packOf (sh := .f3) rfl (by simp)
  case f4 => exact encode_and_buildsFrame_of_packOf (sh := .f4) rfl (by simp)
  case f6 => exact encode_and_buildsFrame_of_packOf (sh := .f6) rfl (by simp)
  case f8 => exact encode_and_buildsFrame_of_packOf (sh := .f8) rfl (by simp)

/-- Settles O53: the byte fields' data bytes come before the patterns' bytes. -/
theorem packMixedShapes : Obligations.PackMixedShapes := by
  unfold Obligations.PackMixedShapes
  intro code b0 b1 f0 f1 f2
  refine ⟨?b1f3, ?b2f1, wordBytes_eq_ofNat f0⟩
  case b1f3 => exact encode_and_buildsFrame_of_packOf (sh := .b1f3) rfl (by simp)
  case b2f1 => exact encode_and_buildsFrame_of_packOf (sh := .b2f1) rfl (by simp)

/-- Settles O54: `MSGRD` compares its index with `msg_len`, which a legal state keeps within `MMAX` and a reset clears. -/
theorem messageIsReadOut : Obligations.MessageIsReadOut := by
  unfold Obligations.MessageIsReadOut
  exact ⟨rfl, fun _ => rfl, exec_msglen, fun _ _ => exec_msgrd_of_msgLen_le, fun _ _ => exec_msgrd_of_lt,
    fun _ _ hlegal hk => Nat.lt_of_lt_of_le hk (MsgLenLegal.le_mmax hlegal), fun _ _ _ _ => exec_msglen _⟩

end Sys2Proof.Proofs
end

section
/-! What an `UNPACK_*` command reads, and the way of a message from `PACK_*` through the wire to `UNPACK_*` (43_unpack.md
R150, R151, R167). -/

namespace Sys2Proof.Machine

/-! ## The `UNPACK_*` commands by their shape (R150) -/

theorem exec_eq_of_unpackOf {i : Instr} {sh : Shape} (h : unpackOf i = some sh) (s : State) :
    exec i s = .next { s with resp := some (okResponse (memReadN .pl 0 (1 + sh.dataSize) s)) } :=
  (exec_of_unpackOf h s).trans (unpack_eq sh s)

/-- A row of R80 only says what the typed reading of `PL:0 .. PL:D` is, whatever these bytes are. -/
theorem unpacksTo_of_typedResult {i : Instr} {sh : Shape} {d : Nat} {fields : (Nat → Byte) → List FieldValue}
    (h : unpackOf i = some sh) (hsize : sh.dataSize = d)
    (hfields : ∀ pl : Nat → Byte, typedResult sh ((List.range (1 + d)).map pl) = (pl 0, fields pl)) :
    UnpacksTo i sh d fields := by
  subst hsize
  intro s
  have hread : memReadN .pl 0 (1 + sh.dataSize) s = (List.range (1 + sh.dataSize)).map fun p => memRead .pl p s := by
    simp only [memReadN, Nat.zero_add]
  exact ⟨exec_eq_of_unpackOf h s, by rw [hread, hfields]⟩

/-- The integer a pattern of two bytes stands for (R45, R155). -/
theorem toInt_half (lo hi : Byte) : (half lo hi).toInt
    = if lo.toNat + 256 * hi.toNat < 32768 then (lo.toNat + 256 * hi.toNat : Int)
      else (lo.toNat + 256 * hi.toNat : Int) - 65536 := by
  have hpattern : (half lo hi).toNat = lo.toNat + 256 * hi.toNat := halfAt_toNat [lo, hi] 0
  rw [BitVec.toInt_eq_toNat_cond, hpattern]
  split <;> split <;> omega

/-! ## The way through the wire (R167) -/

/-- `MSGRD` reads of indexes inside the message change nothing but the response (R143). -/
theorem runAll_msgrd {s : State} (hlen : s.msgLen ≤ 256) {ns : List Nat} (hns : ∀ n ∈ ns, n < s.msgLen) : ∃ t : State,
    runAll (ns.map fun n => .msgrd (BitVec.ofNat 8 n)) s = some (ns.map fun n => okResponse [memRead .msg n s], t)
      ∧ t = { s with resp := t.resp } := by
  induction ns generalizing s with
  | nil => exact ⟨s, rfl, rfl⟩
  | cons n ns ih =>
    obtain ⟨hn, hrest⟩ := List.forall_mem_cons.mp hns
    have hindex : (BitVec.ofNat 8 n).toNat = n := by rw [BitVec.toNat_ofNat, Nat.mod_eq_of_lt (by omega)]
    have hread := exec_msgrd_of_lt (k := BitVec.ofNat 8 n) (hindex.symm ▸ hn)
    rw [hindex] at hread
    obtain ⟨t, hrun, hframe⟩ := ih (s := respond .ok [memRead .msg n s] s) hlen hrest
    exact ⟨t, runAll_cons_eq_some hread rfl hrun, hframe⟩

/-- After a `PACK_*` command `MSGRD` of every index below `msg_len` gives the frame's bytes in order; the commands write
`MSG` and `msg_len` only (R125, R126, R143). -/
theorem exists_message_read {p : Instr} {sh : Shape} {code : Byte} {fields : List FieldValue}
    (hp : packOf p = some (sh, code, fields)) (s : State) : ∃ s1 s2 : State, exec p s = .next s1
      ∧ runAll ((List.range s1.msgLen).map fun k => .msgrd (BitVec.ofNat 8 k)) s1
        = some ((wireFrame s.sm s.em (code :: dataBytes fields)).map fun b => okResponse [b], s2)
      ∧ s2 = { s with msg := s2.msg, msgLen := s2.msgLen, resp := s2.resp } := by
  obtain ⟨s1, hexec, hmsg, -, hlen, -, hframe⟩ := buildsFrame_of_packOf hp s
  rw [← frameBytes_eq_append, frameBytes_eq_wireFrame, ← hlen] at hmsg
  have hbound : s1.msgLen ≤ 256 := by
    obtain ⟨-, hmax⟩ := sh.dataSize_bounds
    rw [hlen, dataBytes_length_of_packOf hp]
    omega
  obtain ⟨s2, hrun, hreads⟩ := runAll_msgrd hbound fun n hn => List.mem_range.mp hn
  refine ⟨s1, s2, hexec, ?_, ?_⟩
  · rw [hrun, ← hmsg, memReadN, List.map_map]
    simp only [Nat.zero_add, Function.comp_def]
  · rw [hreads, hframe]

/-- A valid frame fed into an empty ring that can hold it is delivered and leaves the ring empty (R108, R118). -/
theorem exists_delivered {s : State} {payload : List Byte} (h : RingInv s) (hempty : logical s = [])
    (hlen : payload.length ≤ 255) (hfits : payload.length + 4 ≤ s.cap) : ∃ s3 s4 : State,
      exec (.feed (wireFrame s.sm s.em payload)) s = .next s3 ∧ exec .extract s3 = .next s4
      ∧ s4.resp = some (okResponse []) ∧ logical s4 = [] ∧ memReadN .pl 0 payload.length s4 = payload := by
  have hring : RingInv (respond .ok [] (pushBytes (wireFrame s.sm s.em payload) s)) := ringInv_pushBytes h _
  have hq : logical (respond .ok [] (pushBytes (wireFrame s.sm s.em payload) s))
      = [] ++ wireFrame s.sm s.em payload ++ [] := by
    rw [logical_respond, logical_pushBytes_fits h (by rw [logical_eq_nil.mp hempty, wireFrame_length]; omega), hempty,
      List.append_nil]
  obtain ⟨t, ht⟩ := exists_extractsTo hring
  rw [hq, respond_sm, respond_em, pushBytes_sm, pushBytes_em, extractLogical_wireFrame List.not_mem_nil hlen] at ht
  obtain ⟨hfront, -⟩ := ht.stores payload rfl
  exact ⟨_, t, exec_feed _ s, ht.completes, ht.resp, ht.rest, hfront⟩

/-- The code and the fields of a `PACK_*` command are the typed reading of its payload (R74, R150). -/
theorem typedResult_of_packOf {p : Instr} {sh : Shape} {code : Byte} {fields : List FieldValue}
    (hp : packOf p = some (sh, code, fields)) : typedResult sh (code :: dataBytes fields) = (code, fields) := by
  have hfields := fieldsAt_dataBytes fields [code] []
  rw [types_of_packOf hp, List.append_nil] at hfields
  exact congrArg (Prod.mk code) hfields

end Sys2Proof.Machine
end

section
/-! The statements of 43_unpack.md settled. -/

namespace Sys2Proof.Proofs

open Sys2Proof.Machine

/-- Settles O59: reading the message out changes nothing the wire depends on, so the ring takes the whole frame and
delivers `CODE + DATA` to `PL`, where `UNPACK_*` reads as many bytes as the shape has. -/
theorem packedFieldsComeBackUnchanged : Obligations.PackedFieldsComeBackUnchanged := by
  unfold Obligations.PackedFieldsComeBackUnchanged
  intro p u sh code fields s hp hu h hempty hfits
  have hlen : (code :: dataBytes fields).length = 1 + sh.dataSize := by
    rw [List.length_cons, dataBytes_length_of_packOf hp, Nat.add_comm]
  obtain ⟨s1, s2, hpack, hread, hkeeps⟩ := exists_message_read hp s
  obtain ⟨hring, hnil, hcap, hsm, hem⟩ :
      RingInv s2 ∧ logical s2 = [] ∧ s2.cap = s.cap ∧ s2.sm = s.sm ∧ s2.em = s.em := by
    rw [hkeeps]
    exact ⟨h, hempty, rfl, rfl, rfl⟩
  have hmax : (code :: dataBytes fields).length ≤ 255 := by
    obtain ⟨-, hsize⟩ := sh.dataSize_bounds
    omega
  have hroom : (code :: dataBytes fields).length + 4 ≤ s2.cap := by rwa [hlen, hcap]
  obtain ⟨s3, s4, hfeed, hextract, hok, hleft, hpl⟩ := exists_delivered hring hnil hmax hroom
  rw [hsm, hem] at hfeed
  rw [hlen] at hpl
  exact ⟨_, s1, s2, s3, s4, hpack, hread, hfeed, hextract, hok, hleft, hpl ▸ exec_eq_of_unpackOf hu s4,
    typedResult_of_packOf hp⟩

/-- Settles O55: a byte field is the payload byte at its offset. -/
theorem unpackByteShapes : Obligations.UnpackByteShapes := by
  unfold Obligations.UnpackByteShapes
  refine ⟨rfl, rfl, rfl, ?_, ?_, ?_⟩
  all_goals exact unpacksTo_of_typedResult rfl rfl fun _ => rfl

/-- Settles O56: an Int16 field is the pattern of two payload bytes, which `toInt` sign-extends. -/
theorem unpackIntegerShapes : Obligations.UnpackIntegerShapes := by
  unfold Obligations.UnpackIntegerShapes
  refine ⟨rfl, rfl, rfl, rfl, ?_, ?_, ?_, ?_, toInt_half⟩
  all_goals exact unpacksTo_of_typedResult rfl rfl fun _ => rfl

/-- Settles O57: a Float32 field is the pattern of four payload bytes. -/
theorem unpackFloatShapes : Obligations.UnpackFloatShapes := by
  unfold Obligations.UnpackFloatShapes
  simp only [List.forall_mem_cons]
  refine ⟨rfl, rfl, rfl, rfl, rfl, rfl, ?_, ?_, ?_, ?_, ?_, ?_, List.forall_mem_nil _⟩
  all_goals exact unpacksTo_of_typedResult rfl rfl fun _ => rfl

/-- Settles O58: the byte fields stand before the Float32 fields. -/
theorem unpackMixedShapes : Obligations.UnpackMixedShapes := by
  unfold Obligations.UnpackMixedShapes
  refine ⟨rfl, rfl, ?_, ?_⟩
  all_goals exact unpacksTo_of_typedResult rfl rfl fun _ => rfl

end Sys2Proof.Proofs
end

section
/-! When a command fails, with which status, and what the failure changes (60_exceptions.md R170, R171). First the
failures that change nothing, as R171's rows; then what every status of a response says; then the failures of steps 3 to
8 of `EXTRACT`, by the algorithm on the candidate frame. -/

namespace Sys2Proof.Machine

/-! ## The failures that change nothing (R171) -/

/-- The rows `EMPTY`, `RANGE` and `NO_DATA` of R171: the commands that raise each and the condition. -/
inductive Refuses (s : State) : Instr → Status → Prop where
  | pop : s.count = 0 → Refuses s .pop .empty
  | top : s.count = 0 → Refuses s .top .empty
  | index (k : Half) : s.count ≤ k.toNat → Refuses s (.index k) .range
  | pld (k : Byte) : Config.pmax ≤ k.toNat → Refuses s (.pld k) .range
  | msgrd (k : Byte) : s.msgLen ≤ k.toNat → Refuses s (.msgrd k) .range
  | extract : s.count = 0 → Refuses s .extract .noData

theorem refuses_empty_iff {i : Instr} {s : State} : Refuses s i .empty ↔ (i = .pop ∨ i = .top) ∧ s.count = 0 := by
  constructor
  · intro h
    cases h with
    | pop h => exact ⟨.inl rfl, h⟩
    | top h => exact ⟨.inr rfl, h⟩
  · rintro ⟨rfl | rfl, h⟩
    · exact .pop h
    · exact .top h

theorem refuses_range_iff {i : Instr} {s : State} : Refuses s i .range ↔ (∃ k, i = .index k ∧ s.count ≤ k.toNat)
    ∨ (∃ k, i = .pld k ∧ 255 ≤ k.toNat) ∨ ∃ k, i = .msgrd k ∧ s.msgLen ≤ k.toNat := by
  constructor
  · intro h
    cases h with
    | index k h => exact .inl ⟨k, rfl, h⟩
    | pld k h => exact .inr (.inl ⟨k, rfl, h⟩)
    | msgrd k h => exact .inr (.inr ⟨k, rfl, h⟩)
  · rintro (⟨k, rfl, h⟩ | ⟨k, rfl, h⟩ | ⟨k, rfl, h⟩)
    · exact .index k h
    · exact .pld k h
    · exact .msgrd k h

theorem refuses_noData_iff {i : Instr} {s : State} : Refuses s i .noData ↔ i = .extract ∧ s.count = 0 := by
  constructor
  · intro h
    cases h with
    | extract h => exact ⟨rfl, h⟩
  · rintro ⟨rfl, h⟩
    exact .extract h

theorem Refuses.status_eq {i : Instr} {s : State} {st st' : Status} (h : Refuses s i st) (h' : Refuses s i st') :
    st = st' := by
  cases h <;> cases h' <;> rfl

theorem Refuses.status_mem {i : Instr} {s : State} {st : Status} (h : Refuses s i st) :
    st ∈ [Status.empty, .range, .noData] := by
  cases h <;> decide

/-- A refused command gets its status and changes nothing else. -/
theorem Refuses.exec_eq {i : Instr} {s : State} {st : Status} (h : Refuses s i st) :
    exec i s = .next (respond st [] s) := by
  cases h with
  | pop h => exact exec_pop_of_empty h
  | top h => exact exec_top_of_empty h
  | index k h => exact exec_index_of_count_le h
  | pld k h => exact exec_pld_of_pmax_le h
  | msgrd k h => exact exec_msgrd_of_msgLen_le h
  | extract h => exact exec_extract_of_empty h

/-- But for `EXTRACT`, a command that no row refuses answers `OK`. -/
theorem exec_of_not_refuses {i : Instr} {s : State} (hi : i ≠ .extract) (h : ∀ st, ¬ Refuses s i st) :
    ∃ (r : List Byte) (u : State), exec i s = .next (respond .ok r u) := by
  match hp : packOf i, hu : unpackOf i with
  | some (_, _, _), _ => exact ⟨_, _, exec_pack_eq hp s⟩
  | none, some _ => exact ⟨_, _, exec_of_unpackOf hu s⟩
  | none, none =>
    cases i <;> simp only [packOf, unpackOf, reduceCtorEq] at hp hu
    case extract => exact absurd rfl hi
    case pop => exact ⟨_, _, exec_pop_of_nonempty fun hc => h _ (.pop hc)⟩
    case top => exact ⟨_, _, exec_top_of_nonempty fun hc => h _ (.top hc)⟩
    case index k => exact ⟨_, _, exec_index_of_toNat_lt (Nat.lt_of_not_le fun hk => h _ (.index k hk))⟩
    case pld k => exact ⟨_, _, exec_pld_of_lt (Nat.lt_of_not_le fun hk => h _ (.pld k hk))⟩
    case msgrd k => exact ⟨_, _, exec_msgrd_of_lt (Nat.lt_of_not_le fun hk => h _ (.msgrd k hk))⟩
    all_goals exact ⟨_, _, rfl⟩

/-! ## What a status says (R171) -/

theorem ExtractOutcome.status_mem {u t : State} {r : Response} (h : ExtractOutcome u t) (hr : t.resp = some r) :
    r.status ∈ [Status.ok, .incomplete, .endMismatch, .crcFail] := by
  obtain ⟨-, rfl⟩ | ⟨-, -, rfl⟩ | ⟨-, -, -, rfl⟩ | ⟨-, -, -, rfl⟩ := h <;> (cases hr; decide)

/-- No status of a row without an effect is one that `EXTRACT` ends with on a ring that holds a byte. -/
theorem refusal_ne_ending {st st' : Status} (h : st ∈ [Status.empty, .range, .noData])
    (h' : st' ∈ [Status.ok, .incomplete, .endMismatch, .crcFail]) : st' ≠ st := by
  rintro rfl
  cases st' <;> simp at h h'

section
variable {i : Instr} {s t : State} {r : Response} (he : exec i s = .next t) (hr : t.resp = some r)
include he hr

/-- Where a command's status comes from: a row without an effect refuses the command, or none does, and then only an
`EXTRACT` on a ring that holds a byte fails. -/
theorem exec_status_cases : (Refuses s i r.status ∧ t = { s with resp := some r })
    ∨ ((∀ st, ¬ Refuses s i st) ∧ r.status ∈ [Status.ok, .incomplete, .endMismatch, .crcFail]
        ∧ (r.status ≠ .ok → i = .extract ∧ s.count ≠ 0)) := by
  by_cases hrefuses : ∃ st, Refuses s i st
  case pos =>
    obtain ⟨st, h⟩ := hrefuses
    cases h.exec_eq.symm.trans he
    cases hr
    exact .inl ⟨h, rfl⟩
  case neg =>
    have hnone := not_exists.mp hrefuses
    by_cases hi : i = .extract
    · subst hi
      have hcount : s.count ≠ 0 := fun hc => hnone _ (.extract hc)
      have hout := extractFrame_outcome ((execExtract_nonempty hcount).symm.trans he)
      exact .inr ⟨hnone, hout.status_mem hr, fun _ => ⟨rfl, hcount⟩⟩
    · obtain ⟨_, _, heq⟩ := exec_of_not_refuses hi hnone
      cases heq.symm.trans he
      cases hr
      exact .inr ⟨hnone, List.mem_cons_self, fun h => absurd rfl h⟩

/-- A status of a row without an effect is given exactly when that row refuses the command. -/
theorem status_eq_iff_refuses {st : Status} (hst : st ∈ [Status.empty, .range, .noData]) :
    r.status = st ↔ Refuses s i st := by
  obtain ⟨h, -⟩ | ⟨hnone, hmem, -⟩ := exec_status_cases he hr
  · exact ⟨fun heq => heq ▸ h, h.status_eq⟩
  · exact iff_of_false (refusal_ne_ending hst hmem) (hnone st)

theorem extract_of_candidate_failure
    (hst : r.status = .incomplete ∨ r.status = .endMismatch ∨ r.status = .crcFail) : i = .extract ∧ s.count ≠ 0 := by
  obtain ⟨h, -⟩ | ⟨-, -, hextract⟩ := exec_status_cases he hr
  · have hmem := h.status_mem
    obtain hst | hst | hst := hst <;> simp [hst] at hmem
  · exact hextract (by obtain hst | hst | hst := hst <;> simp [hst])

theorem status_ne_illegal : r.status ≠ .illegal := by
  intro hst
  obtain ⟨h, -⟩ | ⟨-, hmem, -⟩ := exec_status_cases he hr
  · have hmem := h.status_mem
    simp [hst] at hmem
  · simp [hst] at hmem

theorem unchanged_of_refusal_status (hst : r.status ∈ [Status.empty, .range, .noData]) :
    t = { s with resp := some r } := by
  obtain ⟨-, hframe⟩ | ⟨-, hmem, -⟩ := exec_status_cases he hr
  · exact hframe
  · exact absurd rfl (refusal_ne_ending hst hmem)

end

/-! ## The failures of steps 3 to 8 of `EXTRACT` (R112 to R117) -/

/-- Every way the algorithm on the candidate frame ends, `p` being its `payload_size`, with the condition. -/
theorem extractCandidate_cases (drop : Bool) (em : Byte) {q : List Byte} {p : Nat} (hp : p = (q.getD 1 0).toNat) :
    ((q.length < 2 ∨ q.length < p + 4) ∧ extractCandidate drop em q = ⟨.incomplete, q, none⟩)
    ∨ (p + 4 ≤ q.length ∧ q.getD (p + 2) 0 ≠ em
        ∧ extractCandidate drop em q = ⟨.endMismatch, if drop then q.drop 1 else q, none⟩)
    ∨ (p + 4 ≤ q.length ∧ q.getD (p + 2) 0 = em ∧ crc8 ((q.drop 2).take p) ≠ q.getD (p + 3) 0
        ∧ extractCandidate drop em q = ⟨.crcFail, q.drop 1, some ((q.drop 2).take p)⟩)
    ∨ (p + 4 ≤ q.length ∧ q.getD (p + 2) 0 = em ∧ crc8 ((q.drop 2).take p) = q.getD (p + 3) 0
        ∧ extractCandidate drop em q = ⟨.ok, q.drop (p + 4), some ((q.drop 2).take p)⟩) := by
  by_cases htwo : q.length < 2
  · exact .inl ⟨.inl htwo, extractCandidate_of_length_lt_two htwo⟩
  obtain ⟨m, len, body, rfl⟩ : ∃ m len body, q = m :: len :: body := by
    match q with
    | [] | [_] => simp at htwo
    | m :: len :: body => exact ⟨m, len, body, rfl⟩
  obtain rfl : p = len.toNat := hp
  by_cases hshort : body.length < len.toNat + 2
  · exact .inl ⟨.inr (by simpa using hshort), extractCandidate_of_short hshort⟩
  have hwhole : len.toNat + 2 ≤ body.length := Nat.not_lt.mp hshort
  have hlen : len.toNat + 4 ≤ (m :: len :: body).length := Nat.add_le_add_right hwhole 2
  by_cases hend : body.getD len.toNat 0 = em
  case neg => exact .inr (.inl ⟨hlen, hend, extractCandidate_of_wrong_end hwhole hend⟩)
  have heq := extractCandidate_of_right_end (drop := drop) (m := m) hwhole hend
  by_cases hcrc : crc8 (body.take len.toNat) = body.getD (len.toNat + 1) 0
  · exact .inr (.inr (.inr ⟨hlen, hend, hcrc, heq.trans (if_pos hcrc)⟩))
  · exact .inr (.inr (.inl ⟨hlen, hend, hcrc, heq.trans (if_neg hcrc)⟩))

/-- What R171 says of the failures of steps 3 to 8, `q` being the contents step 2 leaves and `p` their `payload_size`:
when `EXTRACT` gives each status, and what it leaves of the ring and of `PL` then. -/
structure CandidateFailures (s t : State) (q : List Byte) (p : Nat) (st : Status) : Prop where
  incomplete_iff : st = .incomplete ↔ q.length < 2 ∨ q.length < p + 4
  endMismatch_iff : st = .endMismatch ↔ p + 4 ≤ q.length ∧ q.getD (p + 2) 0 ≠ s.em
  crcFail_iff : st = .crcFail ↔ p + 4 ≤ q.length ∧ q.getD (p + 2) 0 = s.em
    ∧ crc8 ((q.drop 2).take p) ≠ q.getD (p + 3) 0
  of_incomplete : st = .incomplete → logical t = q ∧ t.pl = s.pl
  of_endMismatch : st = .endMismatch → logical t = (if s.emDrop then q.drop 1 else q) ∧ t.pl = s.pl
  of_crcFail : st = .crcFail → logical t = q.drop 1 ∧ memReadN .pl 0 p t = (q.drop 2).take p
    ∧ ∀ a, p ≤ a → memRead .pl a t = memRead .pl a s

/-- `EXTRACT` on a ring that holds a byte fails as R171 says: each way the algorithm on the candidate ends has its own
status, and the conditions exclude each other. -/
theorem exec_extract_failures {s t : State} {r : Response} {q : List Byte} {p : Nat} (h : RingInv s)
    (hcount : s.count ≠ 0) (he : exec .extract s = .next t) (hr : t.resp = some r) (hq : q = fromFirst s.sm (logical s))
    (hp : p = (q.getD 1 0).toNat) : CandidateFailures s t q p r.status := by
  obtain ⟨t', ht⟩ := exists_extractsTo h
  cases he.symm.trans ht.completes
  cases hr.symm.trans ht.resp
  rw [extractLogical_of_ne (mt logical_eq_nil.mp hcount), ← hq] at ht ⊢
  obtain ⟨hshort, heq⟩ | ⟨hlen, hend, heq⟩ | ⟨hlen, hend, hcrc, heq⟩ | ⟨hlen, hend, hcrc, heq⟩ :=
    extractCandidate_cases s.emDrop s.em hp <;> rw [heq] at ht ⊢
  · have hnot : ¬ p + 4 ≤ q.length := by omega
    exact ⟨iff_of_true rfl hshort, iff_of_false nofun fun h => hnot h.1, iff_of_false nofun fun h => hnot h.1,
      fun _ => ⟨ht.rest, ht.keeps rfl⟩, nofun, nofun⟩
  · exact ⟨iff_of_false nofun (by omega), iff_of_true rfl ⟨hlen, hend⟩, iff_of_false nofun fun ⟨_, h, _⟩ => hend h,
      nofun, fun _ => ⟨ht.rest, ht.keeps rfl⟩, nofun⟩
  · have hstored := ht.stores _ rfl
    have hsize : ((q.drop 2).take p).length = p := by rw [List.length_take, List.length_drop]; omega
    rw [hsize] at hstored
    exact ⟨iff_of_false nofun (by omega), iff_of_false nofun fun ⟨_, h⟩ => h hend, iff_of_true rfl ⟨hlen, hend, hcrc⟩,
      nofun, nofun, fun _ => ⟨ht.rest, hstored⟩⟩
  · exact ⟨iff_of_false nofun (by omega), iff_of_false nofun fun ⟨_, h⟩ => h hend,
      iff_of_false nofun fun ⟨_, _, h⟩ => h hcrc, nofun, nofun, nofun⟩

end Sys2Proof.Machine
end

section
/-! The statements of 60_exceptions.md settled. -/

namespace Sys2Proof.Proofs

open Sys2Proof.Machine

/-- Settles O15: with an empty port a step takes nothing. -/
theorem idleBlockDoesNotChange : Obligations.IdleBlockDoesNotChange := by
  unfold Obligations.IdleBlockDoesNotChange
  intro s hport
  simp only [step, hport]

/-- Settles O6: a step is idle (O15), a reset, the answer `ILLEGAL` or a decoded command (O14), and every command
answers. -/
theorem nothingStopsTheBlock : Obligations.NothingStopsTheBlock := by
  unfold Obligations.NothingStopsTheBlock
  refine ⟨fun s => ?_, fun i s => ?_⟩
  · match hport : s.port with
    | [] => exact ⟨s, idleBlockDoesNotChange s hport⟩
    | .reset cs ce :: rest => exact ⟨applyReset cs ce (takeInput rest s), by simp only [step, hport]⟩
    | .command op operands :: rest =>
      match hdecode : decode (op :: operands) with
      | .ok i =>
        rw [stepRunsTheDecodedCommand s op operands rest i hport hdecode]
        exact exec_next ..
      | .error e =>
        have hstep := step_of_decode_error hdecode s rest
        rw [← hport] at hstep
        exact ⟨_, hstep⟩
  · obtain ⟨t, r, hexec, hresp, -⟩ := exec_answersWith i s
    exact ⟨t, r, hexec, hresp⟩

/-- Settles O17: the failures without an effect by their rows; the others are those of `EXTRACT` on a ring that holds a
byte, which follows the algorithm on the candidate frame (O34). -/
theorem failureStatusesExactlyWhen : Obligations.FailureStatusesExactlyWhen := by
  unfold Obligations.FailureStatusesExactlyWhen
  intro i s
  obtain ⟨t, r, hexec, hresp, -⟩ := exec_answersWith i s
  refine ⟨t, r, hexec, hresp, ?_, ?_, ?_, extract_of_candidate_failure hexec hresp, status_ne_illegal hexec hresp,
    fun hst => unchanged_of_refusal_status hexec hresp (by simpa using hst), fun hring q p hq hp => ?_⟩
  · exact (status_eq_iff_refuses hexec hresp (by decide)).trans refuses_empty_iff
  · exact (status_eq_iff_refuses hexec hresp (by decide)).trans refuses_range_iff
  · exact (status_eq_iff_refuses hexec hresp (by decide)).trans refuses_noData_iff
  by_cases hrun : i = .extract ∧ s.count ≠ 0
  · obtain ⟨rfl, hcount⟩ := hrun
    have h := exec_extract_failures hring hcount hexec hresp hq hp
    simp only [true_and, hcount, ne_eq, not_false_eq_true]
    exact ⟨h.incomplete_iff, h.endMismatch_iff, h.crcFail_iff, h.of_incomplete, h.of_endMismatch, h.of_crcFail⟩
  · obtain ⟨hincomplete, hend, hcrc⟩ : r.status ≠ .incomplete ∧ r.status ≠ .endMismatch ∧ r.status ≠ .crcFail := by
      simpa only [not_or] using mt (extract_of_candidate_failure hexec hresp) hrun
    have hshort : i = .extract → ¬ p + 4 ≤ q.length := fun hi => by
      have hempty : logical s = [] := logical_eq_nil.mpr (by simpa [hi] using hrun)
      simp [hq, hempty, fromFirst]
    exact ⟨iff_of_false hincomplete fun ⟨hi, hcount, _⟩ => hrun ⟨hi, hcount⟩,
      iff_of_false hend fun ⟨hi, hlen, _⟩ => hshort hi hlen, iff_of_false hcrc fun ⟨hi, hlen, _⟩ => hshort hi hlen,
      fun hst => absurd hst hincomplete, fun hst => absurd hst hend, fun hst => absurd hst hcrc⟩

end Sys2Proof.Proofs
end

section
/-! What a reset changes that nothing else does, and the two hazards of `EXTRACT` that more input does not end
(70_reset_and_hazards.md R191, R201, R203). -/

namespace Sys2Proof.Machine

/-! ## The parameters and the markers (R191) -/

/-- Two states have the same parameters and markers. -/
def SameConfig (s t : State) : Prop := t.cap = s.cap ∧ t.emDrop = s.emDrop ∧ t.sm = s.sm ∧ t.em = s.em

theorem sameConfig_refl (s : State) : SameConfig s s := ⟨rfl, rfl, rfl, rfl⟩

/-- No operation of a command writes a parameter or a marker. -/
theorem sameConfig_kept (s : State) : KeptByOps (SameConfig s) where
  respond _ _ _ h := h
  pushByte _ _ h := h
  dropBytes _ _ _ h := h
  copyPayload u h := by
    rw [copyPayload_frame]
    exact h
  buildFrame u _ code data _ h := by
    rw [buildFrame_frame]
    exact h

/-- A step that takes no reset keeps the parameters and the markers. -/
theorem sameConfig_step {s t : State} (hstep : step s = .next t)
    (hport : ∀ cs ce rest, s.port ≠ .reset cs ce :: rest) : SameConfig s t := by
  have htake : ∀ rest, SameConfig s (takeInput rest s) := fun _ => sameConfig_refl s
  obtain ⟨-, rfl⟩ | ⟨cs, ce, rest, hreset, -⟩ | ⟨_, _, rest, -, -, rfl⟩ | ⟨_, _, rest, _, -, -, hexec⟩ :=
    step_cases hstep
  · exact sameConfig_refl _
  · exact absurd hreset (hport cs ce rest)
  · exact htake rest
  · exact (sameConfig_kept s).exec (htake rest) hexec

/-! ## The stall (R201) -/

/-- What an `END_MISMATCH` leaves when `EM_DROP = 0`: a whole candidate with a wrong end byte at the front of the ring
(R115), `EM_DROP` and `PL` as they were. -/
theorem exists_stalled_of_endMismatch {s t : State} (h : RingInv s) (hdrop : s.emDrop = false)
    (hexec : exec .extract s = .next t) (hresp : t.resp = some (failResponse .endMismatch)) :
    ∃ (len e c : Byte) (payload r : List Byte), payload.length = len.toNat ∧ e ≠ t.em
      ∧ logical t = t.sm :: len :: (payload ++ e :: c :: r) ∧ t.emDrop = false ∧ t.pl = s.pl := by
  obtain ⟨-, hcount⟩ := extract_of_candidate_failure hexec hresp (.inr (.inl rfl))
  have hfailed := exec_extract_failures h hcount hexec hresp rfl rfl
  obtain ⟨hwhole, hend⟩ := hfailed.endMismatch_iff.mp rfl
  obtain ⟨hrest, hpl⟩ := hfailed.of_endMismatch rfl
  rw [hdrop, if_neg Bool.false_ne_true] at hrest
  obtain ⟨-, hdrop', hsm, hem⟩ := (sameConfig_kept s).exec (sameConfig_refl s) hexec
  match hfront : fromFirst s.sm (logical s) with
  | [] | [_] => simp [hfront] at hwhole
  | m :: len :: body =>
    obtain rfl : m = s.sm := fromFirst_head hfront
    simp only [hfront] at hwhole hend hrest
    have hbody : len.toNat + 2 ≤ body.length := Nat.le_of_add_le_add_right (b := 2) hwhole
    obtain ⟨payload, e, c, r, hlen, rfl⟩ := exists_body_eq hbody
    have he : e ≠ s.em := by simpa [← hlen] using hend
    exact ⟨len, e, c, payload, r, hlen, hem ▸ he, hsm ▸ hrest, hdrop'.trans hdrop, hpl⟩

/-- Bytes fed behind a stalled candidate do not move its end byte, so `EXTRACT` changes nothing but the response
(R201). -/
theorem exec_extract_stalled_of_fed {s : State} {payload r bytes : List Byte} {len e c : Byte} (h : RingInv s)
    (hfits : s.count + bytes.length ≤ s.cap) (hdrop : s.emDrop = false) (hlen : payload.length = len.toNat)
    (he : e ≠ s.em) (hq : logical s = s.sm :: len :: (payload ++ e :: c :: r)) :
    exec .extract (respond .ok [] (pushBytes bytes s)) = .next (respond .endMismatch [] (pushBytes bytes s)) := by
  refine exec_extract_stalled (payload := payload) (r := r ++ bytes) (len := len) (e := e) (c := c) ?_ hlen ?_ ?_
  · rwa [respond_emDrop, pushBytes_emDrop]
  · rwa [respond_em, pushBytes_em]
  · rw [logical_respond, logical_pushBytes_fits h hfits, hq, respond_sm, pushBytes_sm]
    simp

/-! ## A candidate that has not arrived (R114, R203) -/

/-- With the candidate at the front, `EXTRACT` waits for the rest of it and changes nothing but the response. -/
theorem exec_extract_of_short {s : State} {len : Byte} {body : List Byte} (hq : logical s = s.sm :: len :: body)
    (hshort : body.length < len.toNat + 2) : exec .extract s = .next (respond .incomplete [] s) := by
  obtain ⟨hcount, hsize, -⟩ := candidate_reads hq
  rw [exec_extract_of_front hq, extractFrame, if_neg (by omega), if_pos (by omega), raise]

end Sys2Proof.Machine
end

section
/-! The statements of 70_reset_and_hazards.md settled. -/

namespace Sys2Proof.Proofs

open Sys2Proof.Machine

/-- Settles O8: no operation of a command writes a parameter or a marker, and a reset writes no parameter. -/
theorem onlyResetLoadsTheMarkers : Obligations.OnlyResetLoadsTheMarkers := by
  unfold Obligations.OnlyResetLoadsTheMarkers
  intro s t hstep
  by_cases hreset : ∃ cs ce rest, s.port = .reset cs ce :: rest
  case pos =>
    obtain ⟨cs, ce, rest, hport⟩ := hreset
    simp only [step, hport] at hstep
    cases hstep
    refine ⟨rfl, rfl, fun cs' ce' rest' hport' => ?_, fun hnone => absurd hport (hnone cs ce rest)⟩
    cases hport.symm.trans hport'
    exact ⟨rfl, rfl⟩
  case neg =>
    simp only [not_exists] at hreset
    obtain ⟨hcap, hdrop, hmarkers⟩ := sameConfig_step hstep hreset
    exact ⟨hcap, hdrop, fun cs ce rest hport => absurd hport (hreset cs ce rest), fun _ => hmarkers⟩

/-- Settles O42: the bytes fed stand behind the candidate, whose end byte stays the wrong one. -/
theorem feedingDoesNotEndTheStall : Obligations.FeedingDoesNotEndTheStall := by
  unfold Obligations.FeedingDoesNotEndTheStall
  intro s t bytes h hdrop hexec hresp hfits
  obtain ⟨len, e, c, payload, r, hlen, he, hq, hdrop', hpl⟩ := exists_stalled_of_endMismatch h hdrop hexec hresp
  have hring : RingInv t := ringInv_kept.exec h hexec
  refine ⟨_, _, exec_feed bytes t, exec_extract_stalled_of_fed hring hfits hdrop' hlen he hq, rfl, ?_, ?_⟩
  · rw [logical_respond, logical_pushBytes_fits hring hfits]
  · rw [respond_pl, pushBytes_pl, hpl]

/-- Settles O43: the ring holds no more than `CAP` bytes, so the candidate never arrives. -/
theorem framesLongerThanTheRingNeverEnd : Obligations.FramesLongerThanTheRingNeverEnd := by
  unfold Obligations.FramesLongerThanTheRingNeverEnd
  refine ⟨fun s len body h hq hlong => exec_extract_of_short hq ?_, fun s len hcap => ?_⟩
  · obtain ⟨hcount, -⟩ := h
    rw [← logical_length, hq, List.length_cons, List.length_cons] at hcount
    omega
  · have hlen := len.isLt
    omega

end Sys2Proof.Proofs
end
